-- ==== Sys2Proof/Word.lean ====
section
/-! DEFINITION. The word types of the block and the plainest arithmetic on them. -/

namespace Sys2Proof

/-- A bus word: every transaction moves exactly 32 bits (20_memory.md R56). -/
abbrev Word := BitVec 32

/-- A payload or decoded byte. -/
abbrev Byte := BitVec 8

/-- A byte offset from the block's base (20_memory.md R51). -/
abbrev Offset := BitVec 18

/-- `ceil_div(a, b)` of 00_scope.md R12. -/
def ceilDiv (a b : Nat) : Nat := (a + b - 1) / b

end Sys2Proof
end

