-- ==== Sys2Proof/Config.lean ====
section
/-! DEFINITION. What an implementation of the block fixes (its parameters) and the free values: what the spec
leaves open and nothing in Lean can evaluate. -/

namespace Sys2Proof

/-- The two parameters a model takes as arguments (00_scope.md R7). They are carried in `State.cfg`
(log entry 3). -/
structure Config where
  /-- TREE_NODES, the number of TREE node words implemented. -/
  treeNodes : Nat
  /-- OBUF_SIZE, the size in bytes of each of EOBUF and DOBUF. -/
  obufSize : Nat
  deriving DecidableEq, Repr

/-- The legal parameter values of 00_scope.md R7. -/
abbrev Config.Legal (c : Config) : Prop :=
  (1 ≤ c.treeNodes ∧ c.treeNodes ≤ 1024) ∧
  (c.obufSize % 4 = 0 ∧ 4 ≤ c.obufSize ∧ c.obufSize ≤ 65536)

/-- The default parameter values of 00_scope.md R7. -/
def Config.default : Config := { treeNodes := 513, obufSize := 4096 }

/-- HUFF_BASE, the block's base address in the host's address space: left open, and no rule of the block
depends on it (20_memory.md R51, log entry 12). -/
opaque Config.huffBase : Nat

/-- Where the host finds an offset of the block in its own address space (20_memory.md R51). -/
def Config.hostAddress (off : Offset) : Nat := Config.huffBase + off.toNat

/-- FREE VALUE: what a host read finds in a byte of RAM that nothing has written (93_implementation_defined.md
U1). The arguments are `State.hostCtr` and the byte's offset, so a repeated read repeats its value while no write
intervenes (20_memory.md R61). Log entry 5. -/
opaque Config.hostByte : Nat → Nat → Byte

/-- FREE VALUE: what an engine read finds in a byte of RAM that nothing has written
(93_implementation_defined.md U2). The arguments are `State.engineCtr`, which of the command's reads it is, and the
byte's offset, so no two engine reads of such a byte are tied to one value. Log entry 6. -/
opaque Config.engineByte : Nat → Nat → Nat → Byte

end Sys2Proof
end

