-- ==== Sys2Proof/Syntax.lean ====
section
/-! DEFINITION. The instructions: one constructor per row of spec/opcode_table.json, in the table's order. -/

namespace Sys2Proof

/-- One host operation of the block: a command word (30_encoding.md R71) or a bus transaction form
(30_encoding.md R77). Operands that are indices are natural numbers, bounded by `Instr.wellFormed`; operands that
are data are bit vectors. A write's `v` is the 32 bits of data of the transaction (20_memory.md R51). -/
inductive Instr where
  /-- NOP (41_bus_access.md R106). -/
  | nop
  /-- ENC_START (42_encoder.md R133). -/
  | encStart
  /-- ENC_SYM BYTE (42_encoder.md R134). -/
  | encSym (byte : Byte)
  /-- ENC_END (42_encoder.md R135). -/
  | encEnd
  /-- ENC_OCLR (42_encoder.md R136). -/
  | encOclr
  /-- DEC_START ROOT (43_decoder.md R153). -/
  | decStart (root : Nat)
  /-- DEC_BYTE BYTE (43_decoder.md R152). -/
  | decByte (byte : Byte)
  /-- DEC_END (43_decoder.md R154). -/
  | decEnd
  /-- DEC_OCLR (43_decoder.md R155). -/
  | decOclr
  /-- RD_ID, RD_VERSION, … RD_DEC_NODE (41_bus_access.md R101). -/
  | rdId
  | rdVersion
  | rdCfgTree
  | rdCfgObuf
  | rdCmd
  | rdFlags
  | rdEncStatus
  | rdEncOcnt
  | rdDecStatus
  | rdDecOcnt
  | rdDecNode
  /-- WR_CMD (41_bus_access.md R103). -/
  | wrCmd (v : Word)
  /-- WR_FLAGS (41_bus_access.md R105). -/
  | wrFlags (v : Word)
  /-- WR_ID … WR_DEC_NODE: writes to read-only registers (41_bus_access.md R104). -/
  | wrId (v : Word)
  | wrVersion (v : Word)
  | wrCfgTree (v : Word)
  | wrCfgObuf (v : Word)
  | wrEncStatus (v : Word)
  | wrEncOcnt (v : Word)
  | wrDecStatus (v : Word)
  | wrDecOcnt (v : Word)
  | wrDecNode (v : Word)
  /-- RD_TREE of node `index` (41_bus_access.md R108). -/
  | rdTree (index : Nat)
  /-- WR_TREE of node `index` (41_bus_access.md R109). -/
  | wrTree (index : Nat) (v : Word)
  /-- RD_CTAB of word `word` of the entry of byte symbol `sym` (41_bus_access.md R110). -/
  | rdCtab (sym word : Nat)
  /-- WR_CTAB (41_bus_access.md R111). -/
  | wrCtab (sym word : Nat) (v : Word)
  /-- RD_CTAB_EOS: word `word` of the sentinel's entry (41_bus_access.md R110). -/
  | rdCtabEos (word : Nat)
  /-- WR_CTAB_EOS (41_bus_access.md R111). -/
  | wrCtabEos (word : Nat) (v : Word)
  /-- RD_EOBUF of word `wordIdx` of the encoder's output buffer (41_bus_access.md R112). -/
  | rdEobuf (wordIdx : Nat)
  /-- WR_EOBUF (41_bus_access.md R113). -/
  | wrEobuf (wordIdx : Nat) (v : Word)
  /-- RD_DOBUF of word `wordIdx` of the decoder's output buffer (41_bus_access.md R112). -/
  | rdDobuf (wordIdx : Nat)
  /-- WR_DOBUF (41_bus_access.md R113). -/
  | wrDobuf (wordIdx : Nat) (v : Word)
  deriving DecidableEq, Repr

end Sys2Proof
end

