-- ==== Sys2Proof/WellFormed.lean ====
section
/-! DEFINITION. Which instruction terms have an encoding: each index operand fits its field of
spec/opcode_table.json. -/

namespace Sys2Proof

/-- The operand field ROOT is ARG[9:0] (30_encoding.md R72); INDEX, SYM, WORD and WORDIDX are the offset
fields 11:2, 13:6, 5:2 and 15:2 of the bus rows (30_encoding.md R77, 20_memory.md R52 to R54). -/
def Instr.wellFormed : Instr → Bool
  | .nop => true
  | .encStart => true
  | .encSym _ => true
  | .encEnd => true
  | .encOclr => true
  | .decStart root => decide (root < 1024)
  | .decByte _ => true
  | .decEnd => true
  | .decOclr => true
  | .rdId => true
  | .rdVersion => true
  | .rdCfgTree => true
  | .rdCfgObuf => true
  | .rdCmd => true
  | .rdFlags => true
  | .rdEncStatus => true
  | .rdEncOcnt => true
  | .rdDecStatus => true
  | .rdDecOcnt => true
  | .rdDecNode => true
  | .wrCmd _ => true
  | .wrFlags _ => true
  | .wrId _ => true
  | .wrVersion _ => true
  | .wrCfgTree _ => true
  | .wrCfgObuf _ => true
  | .wrEncStatus _ => true
  | .wrEncOcnt _ => true
  | .wrDecStatus _ => true
  | .wrDecOcnt _ => true
  | .wrDecNode _ => true
  | .rdTree index => decide (index < 1024)
  | .wrTree index _ => decide (index < 1024)
  | .rdCtab sym word => decide (sym < 256) && decide (word < 16)
  | .wrCtab sym word _ => decide (sym < 256) && decide (word < 16)
  | .rdCtabEos word => decide (word < 16)
  | .wrCtabEos word _ => decide (word < 16)
  | .rdEobuf wordIdx => decide (wordIdx < 16384)
  | .wrEobuf wordIdx _ => decide (wordIdx < 16384)
  | .rdDobuf wordIdx => decide (wordIdx < 16384)
  | .wrDobuf wordIdx _ => decide (wordIdx < 16384)

end Sys2Proof
end

