-- ==== Sys2Proof/Decode.lean ====
section
/-! DEFINITION. From the host's operations to instructions, total, rejecting by name; and the encoder, written
from the same tables (30_encoding.md R70 to R77, spec/opcode_table.json). -/

namespace Sys2Proof

/-- What the host issues (20_memory.md R51, 30_encoding.md R77): one of the two transactions, or a command word,
which is shorthand for a BusWrite of it to CMD (30_encoding.md R80). -/
inductive HostOp where
  /-- A command word (30_encoding.md R70). -/
  | command (w : Word)
  /-- `BusRead(off)`. -/
  | read (off : Offset)
  /-- `BusWrite(off, v)`. -/
  | write (off : Offset) (v : Word)
  deriving DecidableEq, Repr

/-- The nine commands of 30_encoding.md R71: what the command decoder behind CMD tells apart. -/
inductive Command where
  | nop
  | encStart
  | encSym (byte : Byte)
  | encEnd
  | encOclr
  | decStart (root : Nat)
  | decByte (byte : Byte)
  | decEnd
  | decOclr
  deriving DecidableEq, Repr

/-- The instruction a command is. -/
def Command.toInstr : Command → Instr
  | .nop => .nop
  | .encStart => .encStart
  | .encSym b => .encSym b
  | .encEnd => .encEnd
  | .encOclr => .encOclr
  | .decStart r => .decStart r
  | .decByte b => .decByte b
  | .decEnd => .decEnd
  | .decOclr => .decOclr

/-- Why an operation is no instruction. Each is an outcome the spec describes, not a stop of the machine. -/
inductive Reject where
  /-- The command word matches no row (30_encoding.md R74): FLAGS.CMD_BAD (41_bus_access.md R107). -/
  | illegalCommand (w : Word)
  /-- The offset has off[1:0] ≠ 0: bus ERROR (20_memory.md R55). -/
  | misaligned (off : Offset)
  /-- No region of the map holds the offset: bus ERROR (20_memory.md R52, R55). -/
  | unmapped (off : Offset)
  deriving DecidableEq, Repr

/-- A row of the table of 30_encoding.md R71: a word matches when (word AND mask) = match. -/
structure CommandRow where
  pattern : Word
  mask : Word
  operand : Word → Command

/-- BYTE = ARG[7:0] (30_encoding.md R72). -/
def byteField (w : Word) : Byte := w.extractLsb' 0 8

/-- ROOT = ARG[9:0] (30_encoding.md R72). -/
def rootField (w : Word) : Nat := (w.extractLsb' 0 10).toNat

/-- The opcode map of 30_encoding.md R71. -/
def commandRows : List CommandRow :=
  [ { pattern := 0x00000000#32, mask := 0xFFFFFFFF#32, operand := fun _ => .nop },
    { pattern := 0x01000000#32, mask := 0xFFFFFFFF#32, operand := fun _ => .encStart },
    { pattern := 0x02000000#32, mask := 0xFFFFFF00#32, operand := fun w => .encSym (byteField w) },
    { pattern := 0x03000000#32, mask := 0xFFFFFFFF#32, operand := fun _ => .encEnd },
    { pattern := 0x04000000#32, mask := 0xFFFFFFFF#32, operand := fun _ => .encOclr },
    { pattern := 0x11000000#32, mask := 0xFFFFFC00#32, operand := fun w => .decStart (rootField w) },
    { pattern := 0x12000000#32, mask := 0xFFFFFF00#32, operand := fun w => .decByte (byteField w) },
    { pattern := 0x13000000#32, mask := 0xFFFFFFFF#32, operand := fun _ => .decEnd },
    { pattern := 0x14000000#32, mask := 0xFFFFFFFF#32, operand := fun _ => .decOclr } ]

/-- The command decoder of 41_bus_access.md R103: `none` for an illegal word (30_encoding.md R74). -/
def decodeCommand (w : Word) : Option Command :=
  (commandRows.find? (fun r => (w &&& r.mask) == r.pattern)).map (fun r => r.operand w)

/-- A bus row of spec/opcode_table.json over the header {W, off[17:0]} (30_encoding.md R77). -/
structure BusRow where
  pattern : BitVec 19
  mask : BitVec 19
  operand : Offset → Word → Instr

/-- The header {W, off} of 30_encoding.md R77: W = 1 for BusWrite. -/
def busHeader (w : Bool) (off : Offset) : BitVec 19 := (BitVec.ofBool w) ++ off

/-- The bits `lo + len - 1 .. lo` of an offset, as an index. -/
def offField (lo len : Nat) (off : Offset) : Nat := (off.extractLsb' lo len).toNat

/-- The register rows (10_state.md R21, 41_bus_access.md R101 to R105). -/
def registerRows : List BusRow :=
  [ { pattern := 0x00000#19, mask := 0x7FFFF#19, operand := fun _ _ => .rdId },
    { pattern := 0x00004#19, mask := 0x7FFFF#19, operand := fun _ _ => .rdVersion },
    { pattern := 0x00008#19, mask := 0x7FFFF#19, operand := fun _ _ => .rdCfgTree },
    { pattern := 0x0000C#19, mask := 0x7FFFF#19, operand := fun _ _ => .rdCfgObuf },
    { pattern := 0x00010#19, mask := 0x7FFFF#19, operand := fun _ _ => .rdCmd },
    { pattern := 0x00014#19, mask := 0x7FFFF#19, operand := fun _ _ => .rdFlags },
    { pattern := 0x00018#19, mask := 0x7FFFF#19, operand := fun _ _ => .rdEncStatus },
    { pattern := 0x0001C#19, mask := 0x7FFFF#19, operand := fun _ _ => .rdEncOcnt },
    { pattern := 0x00020#19, mask := 0x7FFFF#19, operand := fun _ _ => .rdDecStatus },
    { pattern := 0x00024#19, mask := 0x7FFFF#19, operand := fun _ _ => .rdDecOcnt },
    { pattern := 0x00028#19, mask := 0x7FFFF#19, operand := fun _ _ => .rdDecNode },
    { pattern := 0x40010#19, mask := 0x7FFFF#19, operand := fun _ v => .wrCmd v },
    { pattern := 0x40014#19, mask := 0x7FFFF#19, operand := fun _ v => .wrFlags v },
    { pattern := 0x40000#19, mask := 0x7FFFF#19, operand := fun _ v => .wrId v },
    { pattern := 0x40004#19, mask := 0x7FFFF#19, operand := fun _ v => .wrVersion v },
    { pattern := 0x40008#19, mask := 0x7FFFF#19, operand := fun _ v => .wrCfgTree v },
    { pattern := 0x4000C#19, mask := 0x7FFFF#19, operand := fun _ v => .wrCfgObuf v },
    { pattern := 0x40018#19, mask := 0x7FFFF#19, operand := fun _ v => .wrEncStatus v },
    { pattern := 0x4001C#19, mask := 0x7FFFF#19, operand := fun _ v => .wrEncOcnt v },
    { pattern := 0x40020#19, mask := 0x7FFFF#19, operand := fun _ v => .wrDecStatus v },
    { pattern := 0x40024#19, mask := 0x7FFFF#19, operand := fun _ v => .wrDecOcnt v },
    { pattern := 0x40028#19, mask := 0x7FFFF#19, operand := fun _ v => .wrDecNode v } ]

/-- The RAM window rows, at their largest extent: the bound check is the instruction's (30_encoding.md R77). -/
def windowRows : List BusRow :=
  [ { pattern := 0x01000#19, mask := 0x7F003#19, operand := fun o _ => .rdTree (offField 2 10 o) },
    { pattern := 0x41000#19, mask := 0x7F003#19, operand := fun o v => .wrTree (offField 2 10 o) v },
    { pattern := 0x08000#19, mask := 0x7C003#19, operand := fun o _ => .rdCtab (offField 6 8 o) (offField 2 4 o) },
    { pattern := 0x48000#19, mask := 0x7C003#19, operand := fun o v => .wrCtab (offField 6 8 o) (offField 2 4 o) v },
    { pattern := 0x0C000#19, mask := 0x7FFC3#19, operand := fun o _ => .rdCtabEos (offField 2 4 o) },
    { pattern := 0x4C000#19, mask := 0x7FFC3#19, operand := fun o v => .wrCtabEos (offField 2 4 o) v },
    { pattern := 0x10000#19, mask := 0x70003#19, operand := fun o _ => .rdEobuf (offField 2 14 o) },
    { pattern := 0x50000#19, mask := 0x70003#19, operand := fun o v => .wrEobuf (offField 2 14 o) v },
    { pattern := 0x20000#19, mask := 0x70003#19, operand := fun o _ => .rdDobuf (offField 2 14 o) },
    { pattern := 0x60000#19, mask := 0x70003#19, operand := fun o v => .wrDobuf (offField 2 14 o) v } ]

/-- All bus rows of spec/opcode_table.json. -/
def busRows : List BusRow := registerRows ++ windowRows

/-- The instruction of a transaction's header, `none` where no row matches. -/
def decodeBus (w : Bool) (off : Offset) (v : Word) : Option Instr :=
  (busRows.find? (fun r => (busHeader w off &&& r.mask) == r.pattern)).map (fun r => r.operand off v)

/-- Why a transaction whose header matches no row is a bus ERROR (20_memory.md R55). -/
def rejectBus (off : Offset) : Reject :=
  if off.extractLsb' 0 2 = 0#2 then .unmapped off else .misaligned off

/-- The decoder, total on every operation. -/
def decode : HostOp → Except Reject Instr
  | .command w =>
    match decodeCommand w with
    | some c => .ok c.toInstr
    | none => .error (.illegalCommand w)
  | .read off =>
    match decodeBus false off 0#32 with
    | some i => .ok i
    | none => .error (rejectBus off)
  | .write off v =>
    match decodeBus true off v with
    | some i => .ok i
    | none => .error (rejectBus off)

/-- A command word {OP, ARG} (30_encoding.md R70). -/
def commandWord (op : Byte) (arg : BitVec 24) : Word := op ++ arg

/-- The offset of TREE node `index`: {0b000001, INDEX, 0b00} (20_memory.md R53). -/
def treeOffset (index : Nat) : Offset := 0b000001#6 ++ BitVec.ofNat 10 index ++ 0#2

/-- The offset of word `word` of byte symbol `sym`'s CTAB entry: {0b0010, SYM, WORD, 0b00} (20_memory.md R54). -/
def ctabOffset (sym word : Nat) : Offset := 0b0010#4 ++ BitVec.ofNat 8 sym ++ BitVec.ofNat 4 word ++ 0#2

/-- The offset of word `word` of the sentinel's CTAB entry, from 0x0C000 on (20_memory.md R54). -/
def ctabEosOffset (word : Nat) : Offset := 0b001100000000#12 ++ BitVec.ofNat 4 word ++ 0#2

/-- The offset of word `q` of EOBUF, from 0x10000 on (20_memory.md R52). -/
def eobufOffset (q : Nat) : Offset := 0b01#2 ++ BitVec.ofNat 14 q ++ 0#2

/-- The offset of word `q` of DOBUF, from 0x20000 on (20_memory.md R52). -/
def dobufOffset (q : Nat) : Offset := 0b10#2 ++ BitVec.ofNat 14 q ++ 0#2

/-- The encoder: the operation of an instruction. -/
def encode : Instr → HostOp
  | .nop => .command (commandWord 0x00#8 0#24)
  | .encStart => .command (commandWord 0x01#8 0#24)
  | .encSym b => .command (commandWord 0x02#8 (0#16 ++ b))
  | .encEnd => .command (commandWord 0x03#8 0#24)
  | .encOclr => .command (commandWord 0x04#8 0#24)
  | .decStart r => .command (commandWord 0x11#8 (0#14 ++ BitVec.ofNat 10 r))
  | .decByte b => .command (commandWord 0x12#8 (0#16 ++ b))
  | .decEnd => .command (commandWord 0x13#8 0#24)
  | .decOclr => .command (commandWord 0x14#8 0#24)
  | .rdId => .read 0x00000#18
  | .rdVersion => .read 0x00004#18
  | .rdCfgTree => .read 0x00008#18
  | .rdCfgObuf => .read 0x0000C#18
  | .rdCmd => .read 0x00010#18
  | .rdFlags => .read 0x00014#18
  | .rdEncStatus => .read 0x00018#18
  | .rdEncOcnt => .read 0x0001C#18
  | .rdDecStatus => .read 0x00020#18
  | .rdDecOcnt => .read 0x00024#18
  | .rdDecNode => .read 0x00028#18
  | .wrCmd v => .write 0x00010#18 v
  | .wrFlags v => .write 0x00014#18 v
  | .wrId v => .write 0x00000#18 v
  | .wrVersion v => .write 0x00004#18 v
  | .wrCfgTree v => .write 0x00008#18 v
  | .wrCfgObuf v => .write 0x0000C#18 v
  | .wrEncStatus v => .write 0x00018#18 v
  | .wrEncOcnt v => .write 0x0001C#18 v
  | .wrDecStatus v => .write 0x00020#18 v
  | .wrDecOcnt v => .write 0x00024#18 v
  | .wrDecNode v => .write 0x00028#18 v
  | .rdTree i => .read (treeOffset i)
  | .wrTree i v => .write (treeOffset i) v
  | .rdCtab s w => .read (ctabOffset s w)
  | .wrCtab s w v => .write (ctabOffset s w) v
  | .rdCtabEos w => .read (ctabEosOffset w)
  | .wrCtabEos w v => .write (ctabEosOffset w) v
  | .rdEobuf q => .read (eobufOffset q)
  | .wrEobuf q v => .write (eobufOffset q) v
  | .rdDobuf q => .read (dobufOffset q)
  | .wrDobuf q v => .write (dobufOffset q) v

/-- The operation that spec/opcode_table.json's numbering of bits stands for (log entry 10). A row of 32 bits is
a command word. A shorter row is a bus header in bits 18..0; bits 23..19 are no bits of it; a write's data are the
bits from 24 up. Bits at or above `nbits` are 0. -/
def hostOpOfTable (nbits w : Nat) : HostOp :=
  let bits := w % 2 ^ nbits
  if nbits = 32 then .command (BitVec.ofNat 32 bits)
  else if bits / 2 ^ 18 % 2 = 1 then .write (BitVec.ofNat 18 bits) (BitVec.ofNat 32 (bits / 2 ^ 24))
  else .read (BitVec.ofNat 18 bits)

/-- The instruction the decoder reads from a table word, `none` where it rejects it. -/
def decodeTableWord (nbits w : Nat) : Option Instr :=
  match decode (hostOpOfTable nbits w) with
  | .ok i => some i
  | .error _ => none

end Sys2Proof
end

