-- ==== Sys2Proof/Machine/State.lean ====
section
/-! DEFINITION. The state of the block as plain data: everything 10_state.md gives it, the response of the last
transaction, what the outside has issued, and the counters the free values are applied to. -/

namespace Sys2Proof.Machine

/-- ENC.STATE (10_state.md R30). -/
inductive EncState where
  | idle
  | active
  | done
  | error
  deriving DecidableEq, Repr

/-- DEC.STATE (10_state.md R36). -/
inductive DecState where
  | idle
  | run
  | done
  | error
  deriving DecidableEq, Repr

/-- The engine error codes 0..7 of 60_exceptions.md R200. Codes 8..15 are never produced (U8), so they are no
values of the ERR fields (log entry 18). -/
inductive EngineErr where
  | none
  | seq
  | nosym
  | badlen
  | overflow
  | malformed
  | treeRange
  | treeSym
  deriving DecidableEq, Repr

/-- The two engines (00_scope.md R1). -/
inductive Engine where
  | enc
  | dec
  deriving DecidableEq, Repr

/-- The encoder engine's state (10_state.md R30). -/
structure EncEngine where
  /-- ENC.STATE -/
  state : EncState
  /-- ENC.ERR -/
  err : EngineErr
  /-- ENC.ACC, the pending bits, left-aligned -/
  acc : Byte
  /-- ENC.NB, the number of pending bits -/
  nb : BitVec 3
  /-- ENC.OCNT -/
  ocnt : BitVec 17
  deriving DecidableEq, Repr

/-- The decoder engine's state (10_state.md R36). -/
structure DecEngine where
  /-- DEC.STATE -/
  state : DecState
  /-- DEC.ERR -/
  err : EngineErr
  /-- DEC.ROOT -/
  root : BitVec 10
  /-- DEC.CUR -/
  cur : BitVec 10
  /-- DEC.OCNT -/
  ocnt : BitVec 17
  deriving DecidableEq, Repr

/-- The RAM windows TREE, CTAB, EOBUF and DOBUF as one memory over the block's byte offsets (20_memory.md R52):
written bytes only, offsets strictly rising, none equal to what an unlisted offset reads as (`Memory.wf`, log
entry 4). -/
structure Memory where
  cells : List Host.Cell
  deriving DecidableEq, Repr

/-- The response of a transaction (20_memory.md R51). -/
inductive RespStatus where
  | okay
  | error
  deriving DecidableEq, Repr

/-- A response: its status and, for a read, its 32 bits of data. -/
structure Response where
  status : RespStatus
  data : Option Word
  deriving DecidableEq, Repr

/-- What the outside can do to the block: a host operation (20_memory.md R50), or a reset, which falls between
transactions (70_reset_and_hazards.md R220). -/
inductive Input where
  | op (o : HostOp)
  | reset
  deriving DecidableEq, Repr

/-- The block's state. -/
structure State where
  /-- the parameters TREE_NODES and OBUF_SIZE (00_scope.md R7), which CFG_TREE and CFG_OBUF show -/
  cfg : Config
  /-- FLAGS[3:0] (10_state.md R27); FLAGS[31:4] read 0 and are not stored -/
  flags : BitVec 4
  /-- the encoder engine -/
  enc : EncEngine
  /-- the decoder engine -/
  dec : DecEngine
  /-- TREE, CTAB, EOBUF and DOBUF -/
  mem : Memory
  /-- the response to the last transaction, none before the first (log entry 2) -/
  resp : Option Response
  /-- what the outside has issued and the block has not executed, oldest first (log entry 1) -/
  pending : List Input
  /-- MODEL'S OWN: the counter the free values of host reads are applied to (log entries 5 and 7) -/
  hostCtr : Nat
  /-- MODEL'S OWN: the counter the free values of engine reads are applied to (log entries 6 and 7) -/
  engineCtr : Nat
  deriving DecidableEq, Repr

/-- Why the machine stops with a fault. NO CONSTRUCTOR: every transaction of the block completes (43_decoder.md
R157), so no step raises a fault (log entry 15). -/
inductive Fault where
  deriving DecidableEq, Repr

/-- Why an instruction has no meaning. -/
inductive Refusal where
  /-- Raised by an arm of `exec` whose instruction has no meaning yet; no arm raises it. Safe: the run stops. -/
  | notModelled (mnemonic : String)
  deriving DecidableEq, Repr

/-- The outcome of an instruction or a step. -/
abbrev Out := Host.Outcome State Fault Refusal

/-- The encoder after reset (10_state.md R44). -/
def EncEngine.reset : EncEngine := { state := .idle, err := .none, acc := 0#8, nb := 0#3, ocnt := 0#17 }

/-- The decoder after reset (10_state.md R44). -/
def DecEngine.reset : DecEngine := { state := .idle, err := .none, root := 0#10, cur := 0#10, ocnt := 0#17 }

/-- The block right after reset, for given parameters (10_state.md R44, 70_reset_and_hazards.md R220). Nothing is
listed in memory: every CTAB LEN reads 0 and every other RAM byte is unwritten. -/
def State.resetWith (c : Config) : State :=
  { cfg := c, flags := 0#4, enc := EncEngine.reset, dec := DecEngine.reset, mem := { cells := [] },
    resp := none, pending := [], hostCtr := 0, engineCtr := 0 }

/-- The block right after reset, with the default parameters of 00_scope.md R7. -/
def State.reset : State := State.resetWith Config.default

end Sys2Proof.Machine
end

