-- ==== Sys2Proof/Machine/Ops.lean ====
section
/-! DEFINITION. The named operations over memory and state that the meanings are written with: memory bytes and
words, responses, raising an engine error and leaving it, the atomic commit of a command, reset, and fetching what
the outside has issued. -/

namespace Sys2Proof.Machine

/-! ## Memory -/

/-- What a byte offset that nothing has written holds: 0 in a CTAB LEN word, which reset clears, and nothing
anywhere else (10_state.md R42, R44). -/
def Memory.unlisted (a : Nat) : Option Byte :=
  if 0x08000 ≤ a ∧ a < 0x0C040 ∧ (a - 0x08000) % 64 < 4 then some 0#8 else none

/-- The listed byte at an offset. -/
def lookupCell (a : Nat) : List Host.Cell → Option Byte
  | [] => none
  | c :: cs => if c.1 = a then some c.2 else lookupCell a cs

/-- A list of cells with the byte at `a` set, in its place. -/
def insertCell (a : Nat) (v : Byte) : List Host.Cell → List Host.Cell
  | [] => [(a, v)]
  | c :: cs =>
    if a < c.1 then (a, v) :: c :: cs
    else if a = c.1 then (a, v) :: cs
    else c :: insertCell a v cs

/-- A list of cells without the byte at `a`. -/
def eraseCell (a : Nat) : List Host.Cell → List Host.Cell
  | [] => []
  | c :: cs => if c.1 = a then eraseCell a cs else c :: eraseCell a cs

/-- The byte at an offset, none where it is unwritten. -/
def Memory.read (m : Memory) (a : Nat) : Option Byte :=
  match lookupCell a m.cells with
  | some v => some v
  | none => Memory.unlisted a

/-- The memory with one byte written, in canonical form. -/
def Memory.write (m : Memory) (a : Nat) (v : Byte) : Memory :=
  if Memory.unlisted a = some v then { cells := eraseCell a m.cells }
  else { cells := insertCell a v m.cells }

/-- The canonical form: offsets strictly rising, no entry equal to what an unlisted offset reads as. -/
abbrev Memory.wf (m : Memory) : Prop :=
  m.cells.Pairwise (fun c d => c.1 < d.1) ∧ ∀ c ∈ m.cells, Memory.unlisted c.1 ≠ some c.2

/-- The 32-bit word at a byte offset: byte `a` in bits [7:0], byte `a + 3` in bits [31:24] (20_memory.md R57).
`free` says what an unwritten byte is taken to hold. -/
def Memory.readWord (free : Nat → Byte) (m : Memory) (a : Nat) : Word :=
  (m.read (a + 3)).getD (free (a + 3)) ++ (m.read (a + 2)).getD (free (a + 2)) ++
  (m.read (a + 1)).getD (free (a + 1)) ++ (m.read a).getD (free a)

/-- The memory with a 32-bit word written at a byte offset, in the byte order of `Memory.readWord`. -/
def Memory.writeWord (m : Memory) (a : Nat) (v : Word) : Memory :=
  (((m.write a (v.extractLsb' 0 8)).write (a + 1) (v.extractLsb' 8 8)).write (a + 2) (v.extractLsb' 16 8)).write
    (a + 3) (v.extractLsb' 24 8)

/-! ## Responses (20_memory.md R51, R55) -/

/-- `respond OKAY` of a write. -/
def respondOkay (s : State) : State := { s with resp := some { status := .okay, data := none } }

/-- `respond OKAY(v)` of a read. -/
def respondData (v : Word) (s : State) : State := { s with resp := some { status := .okay, data := some v } }

/-- `respond ERROR` of a read: data 0x00000000 (20_memory.md R55). -/
def respondReadError (s : State) : State := { s with resp := some { status := .error, data := some 0#32 } }

/-- `respond ERROR` of a write (20_memory.md R55). -/
def respondWriteError (s : State) : State := { s with resp := some { status := .error, data := none } }

/-! ## Engine errors: entry, commit and exit -/

/-- `raise EngineError(e, c)` (60_exceptions.md R202): the engine's STATE and ERR, and nothing else, change. -/
def raiseEngineError (e : Engine) (c : EngineErr) (s : State) : State :=
  match e with
  | .enc => { s with enc := { s.enc with state := .error, err := c } }
  | .dec => { s with dec := { s.dec with state := .error, err := c } }

/-- The end of an atomic command (00_scope.md R12): the copy it computed, or, where it raised an engine error, the
state before the command with only the error's effects. -/
def commit (e : Engine) (s : State) (r : Except EngineErr State) : State :=
  match r with
  | .ok t => t
  | .error c => raiseEngineError e c s

/-- The encoder's way out of ERROR, and into a session from any state (42_encoder.md R133, 60_exceptions.md
R205). -/
def openEncSession (s : State) : State :=
  { s with enc := { state := .active, err := .none, acc := 0#8, nb := 0#3, ocnt := 0#17 } }

/-- The decoder's way out of ERROR, and into a session at a root from any state (43_decoder.md R153,
60_exceptions.md R205). -/
def openDecSession (root : BitVec 10) (s : State) : State :=
  { s with dec := { state := .run, err := .none, root := root, cur := root, ocnt := 0#17 } }

/-! ## What the outside does -/

/-- Reset (70_reset_and_hazards.md R220): every piece of the block's state at its value of 10_state.md R44. The
parameters are not state of the block and stay; what the outside has still to issue stays; the counters of the free
values advance, so that the RAM cells reset leaves unspecified are unspecified anew (log entries 5, 6 and 13). -/
def takeReset (s : State) : State :=
  { State.resetWith s.cfg with pending := s.pending, hostCtr := s.hostCtr + 1, engineCtr := s.engineCtr + 1 }

/-- The oldest thing issued, and the state without it. -/
def fetch (s : State) : Option (Input × State) :=
  match s.pending with
  | [] => none
  | x :: rest => some (x, { s with pending := rest })

/-- Whether an operation is a write: a BusWrite or a command word, which is a BusWrite to CMD (30_encoding.md
R80). -/
def opIsWrite : HostOp → Bool
  | .command _ => true
  | .read _ => false
  | .write _ _ => true

end Sys2Proof.Machine
end

