-- ==== Sys2Proof/Machine/Flags.lean ====
section
/-! DEFINITION. The sticky FLAGS (10_state.md R27): setting one and clearing by writing 1. -/

namespace Sys2Proof.Machine

/-- The four flags (10_state.md R27). -/
inductive Flag where
  | cmdBad
  | ctLock
  | trLock
  | dxtra
  deriving DecidableEq, Repr

/-- The flag's bit of FLAGS. -/
def Flag.bit : Flag → Nat
  | .cmdBad => 0
  | .ctLock => 1
  | .trLock => 2
  | .dxtra => 3

/-- The flag's value in FLAGS. -/
def flagValue (f : Flag) (v : BitVec 4) : Bool := v.getLsbD f.bit

/-- FLAGS with one flag set. -/
def withFlag (f : Flag) (v : BitVec 4) : BitVec 4 := v ||| (1#4 <<< f.bit)

/-- `set FLAGS.X` (00_scope.md R11). -/
def setFlag (f : Flag) (s : State) : State := { s with flags := withFlag f s.flags }

/-- FLAGS[3:0] AND NOT v[3:0] (41_bus_access.md R105). -/
def flagsAfterWrite (v : Word) (old : BitVec 4) : BitVec 4 := old &&& ~~~(v.extractLsb' 0 4)

/-- Write 1 to clear (41_bus_access.md R105). -/
def clearFlags (v : Word) (s : State) : State := { s with flags := flagsAfterWrite v s.flags }

/-- FLAGS as a read returns it: bits [31:4] are 0 (10_state.md R27). -/
def flagsWord (s : State) : Word := s.flags.zeroExtend 32

end Sys2Proof.Machine
end

