-- ==== Sys2Proof/Machine/Operands.lean ====
section
/-! DEFINITION. The operand forms: where the RAM windows' cells lie, what a host read and an engine read of a word
find, the fields of CTAB entries and TREE node words, and the read views of the status registers. -/

namespace Sys2Proof.Machine

/-! ## The map (20_memory.md R52 to R54) -/

/-- The offset of TREE[i]. -/
def treeAddr (i : Nat) : Nat := 0x01000 + 4 * i

/-- The offset of word `w` of CTAB entry `sym`: word 0 is LEN, words 1 to 8 are BITS[0] to BITS[7]. -/
def ctabAddr (sym w : Nat) : Nat := 0x08000 + 64 * sym + 4 * w

/-- The offset of EOBUF[j]. -/
def eobufAddr (j : Nat) : Nat := 0x10000 + j

/-- The offset of DOBUF[j]. -/
def dobufAddr (j : Nat) : Nat := 0x20000 + j

/-- The sentinel symbol (00_scope.md R7). -/
def sentinel : Nat := 256

/-- TREE[i] is implemented (20_memory.md R53). -/
def treeMapped (s : State) (i : Nat) : Bool := decide (i < s.cfg.treeNodes)

/-- Word `w` of CTAB entry `sym` is implemented (20_memory.md R54). -/
def ctabMapped (sym w : Nat) : Bool := decide (sym ≤ 256) && decide (w ≤ 8)

/-- Word `q` of an output buffer is implemented (41_bus_access.md R112). -/
def obufMapped (s : State) (q : Nat) : Bool := decide (4 * q < s.cfg.obufSize)

/-! ## Reading a word -/

/-- A host read of a word. An unwritten byte reads as a free value, the same while nothing writes (20_memory.md
R61, 93_implementation_defined.md U1). -/
def hostWord (s : State) (a : Nat) : Word := s.mem.readWord (Config.hostByte s.hostCtr) a

/-- An engine read of a word, the command's read number `pos`. An unwritten byte reads as a free value of its own
(93_implementation_defined.md U2). -/
def engineWord (s : State) (pos a : Nat) : Word := s.mem.readWord (Config.engineByte s.engineCtr pos) a

/-! ## CTAB entries (10_state.md R37, R38) -/

/-- CTAB[sym].LEN. A LEN word's bytes always have a value (10_state.md R44), so nothing free is read here. -/
def ctabLen (s : State) (sym : Nat) : BitVec 9 :=
  (s.mem.readWord (fun _ => 0#8) (ctabAddr sym 0)).extractLsb' 0 9

/-- Code bit `i` of symbol `sym`: `CTAB[sym].BITS[i div 32][31 − (i mod 32)]` (10_state.md R38), read by the
encoder. -/
def codeBit (s : State) (sym i : Nat) : Bool :=
  (engineWord s i (ctabAddr sym (1 + i / 32))).getLsbD (31 - i % 32)

/-- The code of a symbol as a bit string (00_scope.md R10): the code bits below LEN, in order. -/
def codeBits (s : State) (sym : Nat) : List Bool := (List.range (ctabLen s sym).toNat).map (codeBit s sym)

/-! ## TREE node words (30_encoding.md R76) -/

/-- LEAF, bit 31. -/
def nodeIsLeaf (n : Word) : Bool := n.getLsbD 31

/-- SYM, bits 8:0 of a leaf. -/
def nodeSym (n : Word) : BitVec 9 := n.extractLsb' 0 9

/-- C0, bits 9:0 of an internal node. -/
def nodeC0 (n : Word) : BitVec 10 := n.extractLsb' 0 10

/-- C1, bits 25:16 of an internal node. -/
def nodeC1 (n : Word) : BitVec 10 := n.extractLsb' 16 10

/-- The child taken on a bit: C0 on 0, C1 on 1 (43_decoder.md R151). -/
def nodeChild (n : Word) (bit : Bool) : BitVec 10 := if bit then nodeC1 n else nodeC0 n

/-- TREE[i] as the decoder's read number `pos` of the command finds it. -/
def treeWord (s : State) (pos i : Nat) : Word := engineWord s pos (treeAddr i)

/-! ## Status registers (10_state.md R28 to R34) -/

/-- The 2-bit code of ENC.STATE (10_state.md R28). -/
def encStateCode : EncState → BitVec 2
  | .idle => 0#2
  | .active => 1#2
  | .done => 2#2
  | .error => 3#2

/-- The 2-bit code of DEC.STATE (10_state.md R32). -/
def decStateCode : DecState → BitVec 2
  | .idle => 0#2
  | .run => 1#2
  | .done => 2#2
  | .error => 3#2

/-- The 4-bit error code (60_exceptions.md R200). -/
def errCode : EngineErr → BitVec 4
  | .none => 0#4
  | .seq => 1#4
  | .nosym => 2#4
  | .badlen => 3#4
  | .overflow => 4#4
  | .malformed => 5#4
  | .treeRange => 6#4
  | .treeSym => 7#4

/-- ENC_STATUS: {8'b0, ACC, 5'b0, NB, ERR, 2'b0, STATE} (41_bus_access.md R101). -/
def encStatusWord (e : EncEngine) : Word :=
  0#8 ++ e.acc ++ 0#5 ++ e.nb ++ errCode e.err ++ 0#2 ++ encStateCode e.state

/-- DEC_STATUS: {24'b0, ERR, 2'b0, STATE} (41_bus_access.md R101). -/
def decStatusWord (d : DecEngine) : Word := 0#24 ++ errCode d.err ++ 0#2 ++ decStateCode d.state

/-- DEC_NODE: {6'b0, ROOT, 6'b0, CUR} (41_bus_access.md R101). -/
def decNodeWord (d : DecEngine) : Word := 0#6 ++ d.root ++ 0#6 ++ d.cur

/-- ENC_OCNT and DEC_OCNT: zext_32(OCNT) (41_bus_access.md R101). -/
def ocntWord (n : BitVec 17) : Word := n.zeroExtend 32

end Sys2Proof.Machine
end

