-- ==== Sys2Proof/Machine/Decoder.lean ====
section
/-! DEFINITION. The decoder's commands DEC_START, DEC_BYTE, DEC_END and DEC_OCLR and their helpers (43_decoder.md
R150 to R155). -/

namespace Sys2Proof.Machine

/-- How a step of the walk ends: `STOP` at the sentinel, or `CONTINUE` (43_decoder.md R150). -/
inductive Walk where
  | stop
  | cont
  deriving DecidableEq, Repr

/-- `hit_leaf(n)` (43_decoder.md R150). -/
def hitLeaf (n : Word) (s : State) : Except EngineErr (Walk × State) :=
  if 256 < (nodeSym n).toNat then .error .treeSym
  else if (nodeSym n).toNat = 256 then
    .ok (.stop, { s with dec := { s.dec with state := .done, cur := s.dec.root } })
  else if s.dec.ocnt.toNat = s.cfg.obufSize then .error .overflow
  else
    .ok (.cont, { s with
      mem := s.mem.write (dobufAddr s.dec.ocnt.toNat) ((nodeSym n).setWidth 8)
      dec := { s.dec with ocnt := s.dec.ocnt + 1#17, cur := s.dec.root } })

/-- `walk_bit(bit)` (43_decoder.md R151), the command's bit number `k`: its two reads of TREE are the command's
reads 2k and 2k + 1. -/
def walkBit (k : Nat) (bit : Bool) (s : State) : Except EngineErr (Walk × State) :=
  let n := treeWord s (2 * k) s.dec.cur.toNat
  if nodeIsLeaf n then hitLeaf n s
  else
    let nxt := nodeChild n bit
    if s.cfg.treeNodes ≤ nxt.toNat then .error .treeRange
    else
      let m := treeWord s (2 * k + 1) nxt.toNat
      if nodeIsLeaf m then hitLeaf m s
      else .ok (.cont, { s with dec := { s.dec with cur := nxt } })

/-- The bits of a byte in stream order: bit 7 first (20_memory.md R58, 00_scope.md R10). -/
def bitsMsbFirst (b : Byte) : List Bool := (List.range 8).map (fun i => b.getLsbD (7 - i))

/-- The loop of DEC_BYTE (43_decoder.md R152) over the bits that are left, from bit number `k` on: it ends at the
sentinel, and the first bit to raise decides the error (60_exceptions.md R206). -/
def walkBits (k : Nat) : List Bool → State → Except EngineErr State
  | [], s => .ok s
  | bit :: rest, s =>
    match walkBit k bit s with
    | .error c => .error c
    | .ok (.stop, t) => .ok t
    | .ok (.cont, t) => walkBits (k + 1) rest t

/-- DEC_BYTE (43_decoder.md R152) up to its commit. -/
def decByteEffect (b : Byte) (s : State) : Except EngineErr State :=
  match s.dec.state with
  | .error => .ok s
  | .done => .ok (setFlag .dxtra s)
  | .idle => .error .seq
  | .run => walkBits 0 (bitsMsbFirst b) s

/-- DEC_START (43_decoder.md R153) up to its commit. -/
def decStartEffect (root : Nat) (s : State) : Except EngineErr State :=
  if s.cfg.treeNodes ≤ root then .error .treeRange
  else .ok (openDecSession (BitVec.ofNat 10 root) s)

/-- DEC_END (43_decoder.md R154) up to its commit. -/
def decEndEffect (s : State) : Except EngineErr State :=
  match s.dec.state with
  | .error => .ok s
  | .done => .ok s
  | .idle => .error .seq
  | .run => .error .malformed

/-- DEC_START (43_decoder.md R153). -/
def execDecStart (root : Nat) (s : State) : Out :=
  .next (respondOkay (commit .dec s (decStartEffect root s)))

/-- DEC_BYTE (43_decoder.md R152). -/
def execDecByte (byte : Byte) (s : State) : Out :=
  .next (respondOkay (commit .dec s (decByteEffect byte s)))

/-- DEC_END (43_decoder.md R154). -/
def execDecEnd (s : State) : Out := .next (respondOkay (commit .dec s (decEndEffect s)))

/-- DEC_OCLR (43_decoder.md R155). -/
def execDecOclr (s : State) : Out := .next (respondOkay { s with dec := { s.dec with ocnt := 0#17 } })

end Sys2Proof.Machine
end

