-- ==== Sys2Proof/Machine/Encoder.lean ====
section
/-! DEFINITION. The encoder's commands ENC_START, ENC_SYM, ENC_END and ENC_OCLR and their helpers (42_encoder.md
R130 to R136). -/

namespace Sys2Proof.Machine

/-- `emit_byte(b)` (42_encoder.md R130). -/
def emitByte (b : Byte) (s : State) : State :=
  { s with
    mem := s.mem.write (eobufAddr s.enc.ocnt.toNat) b
    enc := { s.enc with ocnt := s.enc.ocnt + 1#17 } }

/-- `x[k] <- bit`. -/
def assignBit (x : Byte) (k : Nat) (bit : Bool) : Byte :=
  if bit then x ||| (1#8 <<< k) else x &&& ~~~(1#8 <<< k)

/-- One turn of `append_code`'s loop (42_encoder.md R131): the bit goes to ACC[7 − NB], NB, counted as an integer,
goes up by one, and a full byte is emitted. -/
def appendBit (s : State) (bit : Bool) : State :=
  let acc := assignBit s.enc.acc (7 - s.enc.nb.toNat) bit
  let nb := s.enc.nb.toNat + 1
  if nb = 8 then
    let t := emitByte acc s
    { t with enc := { t.enc with acc := 0#8, nb := 0#3 } }
  else { s with enc := { s.enc with acc := acc, nb := BitVec.ofNat 3 nb } }

/-- `append_code(s)` (42_encoder.md R131). The code is read from CTAB before any bit is appended: the loop writes
EOBUF only, a RAM of its own. -/
def appendCode (sym : Nat) (s : State) : State := (codeBits s sym).foldl appendBit s

/-- `check_code(s)` (42_encoder.md R132). -/
def checkCode (sym : Nat) (s : State) : Except EngineErr Unit :=
  if (ctabLen s sym).toNat = 0 then .error .nosym
  else if 256 < (ctabLen s sym).toNat then .error .badlen
  else .ok ()

/-- The bytes ENC_SYM emits: `(ENC.NB + LEN) div 8` (42_encoder.md R134). -/
def symNeed (sym : Nat) (s : State) : Nat := (s.enc.nb.toNat + (ctabLen s sym).toNat) / 8

/-- The bytes ENC_END emits: `ceil_div(ENC.NB + CTAB[256].LEN, 8)` (42_encoder.md R135). -/
def endNeed (s : State) : Nat := ceilDiv (s.enc.nb.toNat + (ctabLen s sentinel).toNat) 8

/-- ENC_SYM in ACTIVE: the checks in the order of 60_exceptions.md R206, then the code's bits. -/
def encSymActive (sym : Nat) (s : State) : Except EngineErr State :=
  match checkCode sym s with
  | .error c => .error c
  | .ok _ =>
    if s.cfg.obufSize < s.enc.ocnt.toNat + symNeed sym s then .error .overflow
    else .ok (appendCode sym s)

/-- ENC_SYM (42_encoder.md R134) up to its commit. -/
def encSymEffect (sym : Nat) (s : State) : Except EngineErr State :=
  match s.enc.state with
  | .error => .ok s
  | .idle => .error .seq
  | .done => .error .seq
  | .active => encSymActive sym s

/-- ENC_END's padding: a byte in progress is emitted as it stands (42_encoder.md R135). -/
def padAndEmit (s : State) : State :=
  if 0 < s.enc.nb.toNat then
    let t := emitByte s.enc.acc s
    { t with enc := { t.enc with acc := 0#8, nb := 0#3 } }
  else s

/-- ENC_END in ACTIVE. -/
def encEndActive (s : State) : Except EngineErr State :=
  match checkCode sentinel s with
  | .error c => .error c
  | .ok _ =>
    if s.cfg.obufSize < s.enc.ocnt.toNat + endNeed s then .error .overflow
    else
      let t := padAndEmit (appendCode sentinel s)
      .ok { t with enc := { t.enc with state := .done } }

/-- ENC_END (42_encoder.md R135) up to its commit. -/
def encEndEffect (s : State) : Except EngineErr State :=
  match s.enc.state with
  | .error => .ok s
  | .idle => .error .seq
  | .done => .error .seq
  | .active => encEndActive s

/-- ENC_START (42_encoder.md R133). -/
def execEncStart (s : State) : Out := .next (respondOkay (openEncSession s))

/-- ENC_SYM (42_encoder.md R134). The symbol is zext_9(BYTE) (30_encoding.md R72). -/
def execEncSym (byte : Byte) (s : State) : Out :=
  .next (respondOkay (commit .enc s (encSymEffect byte.toNat s)))

/-- ENC_END (42_encoder.md R135). -/
def execEncEnd (s : State) : Out := .next (respondOkay (commit .enc s (encEndEffect s)))

/-- ENC_OCLR (42_encoder.md R136). -/
def execEncOclr (s : State) : Out := .next (respondOkay { s with enc := { s.enc with ocnt := 0#17 } })

end Sys2Proof.Machine
end

