-- ==== Sys2Proof/Machine/CommandPort.lean ====
section
/-! DEFINITION. NOP, the illegal command word and the CMD write that issues a command (41_bus_access.md R103, R106,
R107). -/

namespace Sys2Proof.Machine

/-- NOP (41_bus_access.md R106): no effect; the CMD write that carried it responds OKAY. -/
def execNop (s : State) : Out := .next (respondOkay s)

/-- An illegal command word (41_bus_access.md R107): FLAGS.CMD_BAD, and no other effect. -/
def illegalCommand (s : State) : State := respondOkay (setFlag .cmdBad s)

/-- The command behind a legal command word (41_bus_access.md R103). -/
def runCommand (c : Command) (s : State) : Out :=
  match c with
  | .nop => execNop s
  | .encStart => execEncStart s
  | .encSym b => execEncSym b s
  | .encEnd => execEncEnd s
  | .encOclr => execEncOclr s
  | .decStart r => execDecStart r s
  | .decByte b => execDecByte b s
  | .decEnd => execDecEnd s
  | .decOclr => execDecOclr s

/-- WR_CMD (41_bus_access.md R103): a CMD write never responds ERROR. -/
def execWrCmd (v : Word) (s : State) : Out :=
  match decodeCommand v with
  | some c => runCommand c s
  | none => .next (illegalCommand s)

/-- What an operation that is no instruction does: an illegal command word sets CMD_BAD (41_bus_access.md R107); a
misaligned or unmapped transaction responds ERROR and changes nothing (20_memory.md R55). -/
def rejectOp (o : HostOp) (r : Reject) (s : State) : State :=
  match r with
  | .illegalCommand _ => illegalCommand s
  | .misaligned _ => if opIsWrite o then respondWriteError s else respondReadError s
  | .unmapped _ => if opIsWrite o then respondWriteError s else respondReadError s

end Sys2Proof.Machine
end

