-- ==== Sys2Proof/Machine/RegisterReads.lean ====
section
/-! DEFINITION. The register reads RD_ID … RD_DEC_NODE (41_bus_access.md R101). A read changes no state
(20_memory.md R61). -/

namespace Sys2Proof.Machine

/-- RD_ID (10_state.md R22). -/
def execRdId (s : State) : Out := .next (respondData 0x48554646#32 s)

/-- RD_VERSION (10_state.md R23). -/
def execRdVersion (s : State) : Out := .next (respondData 0x00000001#32 s)

/-- RD_CFG_TREE (10_state.md R24). -/
def execRdCfgTree (s : State) : Out := .next (respondData (BitVec.ofNat 32 s.cfg.treeNodes) s)

/-- RD_CFG_OBUF (10_state.md R25). -/
def execRdCfgObuf (s : State) : Out := .next (respondData (BitVec.ofNat 32 s.cfg.obufSize) s)

/-- RD_CMD (10_state.md R26): CMD has no storage and reads 0. -/
def execRdCmd (s : State) : Out := .next (respondData 0#32 s)

/-- RD_FLAGS (10_state.md R27). -/
def execRdFlags (s : State) : Out := .next (respondData (flagsWord s) s)

/-- RD_ENC_STATUS (10_state.md R28). -/
def execRdEncStatus (s : State) : Out := .next (respondData (encStatusWord s.enc) s)

/-- RD_ENC_OCNT (10_state.md R29). -/
def execRdEncOcnt (s : State) : Out := .next (respondData (ocntWord s.enc.ocnt) s)

/-- RD_DEC_STATUS (10_state.md R32). -/
def execRdDecStatus (s : State) : Out := .next (respondData (decStatusWord s.dec) s)

/-- RD_DEC_OCNT (10_state.md R33). -/
def execRdDecOcnt (s : State) : Out := .next (respondData (ocntWord s.dec.ocnt) s)

/-- RD_DEC_NODE (10_state.md R34). -/
def execRdDecNode (s : State) : Out := .next (respondData (decNodeWord s.dec) s)

end Sys2Proof.Machine
end

