-- ==== Sys2Proof/Machine/RegisterWrites.lean ====
section
/-! DEFINITION. WR_FLAGS (41_bus_access.md R105) and the writes to read-only registers (41_bus_access.md R104). -/

namespace Sys2Proof.Machine

/-- WR_FLAGS (41_bus_access.md R105). -/
def execWrFlags (v : Word) (s : State) : Out := .next (respondOkay (clearFlags v s))

/-- A write to a read-only register (41_bus_access.md R104): `respond OKAY`, the data ignored. -/
def ignoreWrite (_v : Word) (s : State) : State := respondOkay s

/-- WR_ID (41_bus_access.md R104). -/
def execWrId (v : Word) (s : State) : Out := .next (ignoreWrite v s)

/-- WR_VERSION (41_bus_access.md R104). -/
def execWrVersion (v : Word) (s : State) : Out := .next (ignoreWrite v s)

/-- WR_CFG_TREE (41_bus_access.md R104). -/
def execWrCfgTree (v : Word) (s : State) : Out := .next (ignoreWrite v s)

/-- WR_CFG_OBUF (41_bus_access.md R104). -/
def execWrCfgObuf (v : Word) (s : State) : Out := .next (ignoreWrite v s)

/-- WR_ENC_STATUS (41_bus_access.md R104). -/
def execWrEncStatus (v : Word) (s : State) : Out := .next (ignoreWrite v s)

/-- WR_ENC_OCNT (41_bus_access.md R104). -/
def execWrEncOcnt (v : Word) (s : State) : Out := .next (ignoreWrite v s)

/-- WR_DEC_STATUS (41_bus_access.md R104). -/
def execWrDecStatus (v : Word) (s : State) : Out := .next (ignoreWrite v s)

/-- WR_DEC_OCNT (41_bus_access.md R104). -/
def execWrDecOcnt (v : Word) (s : State) : Out := .next (ignoreWrite v s)

/-- WR_DEC_NODE (41_bus_access.md R104). -/
def execWrDecNode (v : Word) (s : State) : Out := .next (ignoreWrite v s)

end Sys2Proof.Machine
end

