-- ==== Sys2Proof/Machine/Windows.lean ====
section
/-! DEFINITION. The RAM windows TREE, CTAB, EOBUF and DOBUF (41_bus_access.md R108 to R113). A row of the opcode
table matches a window's largest extent; the check against TREE_NODES, OBUF_SIZE and the entry's nine words is the
instruction's own, and beyond it the transaction is a bus ERROR (30_encoding.md R77, 20_memory.md R55). -/

namespace Sys2Proof.Machine

/-- A read of a window's word: ERROR where it is not implemented. -/
def readWindow (mapped : Bool) (v : Word) (s : State) : State :=
  if mapped then respondData v s else respondReadError s

/-- A write to a window's word: ERROR where it is not implemented. -/
def writeWindow (mapped : Bool) (t : State) (s : State) : State :=
  if mapped then respondOkay t else respondWriteError s

/-- TREE[i] <- v, or the lock (41_bus_access.md R109). -/
def writeTree (index : Nat) (v : Word) (s : State) : State :=
  if s.dec.state = .run then setFlag .trLock s
  else { s with mem := s.mem.writeWord (treeAddr index) v }

/-- What a host read of a CTAB word returns (41_bus_access.md R110). -/
def ctabReadWord (sym word : Nat) (s : State) : Word :=
  if word = 0 then (ctabLen s sym).zeroExtend 32 else hostWord s (ctabAddr sym word)

/-- What a CTAB write stores: v[8:0] in LEN, all of v in BITS (41_bus_access.md R111). -/
def ctabStored (word : Nat) (v : Word) : Word :=
  if word = 0 then (v.extractLsb' 0 9).zeroExtend 32 else v

/-- A CTAB write, or the lock (41_bus_access.md R111). -/
def writeCtab (sym word : Nat) (v : Word) (s : State) : State :=
  if s.enc.state = .active then setFlag .ctLock s
  else { s with mem := s.mem.writeWord (ctabAddr sym word) (ctabStored word v) }

/-- RD_TREE (41_bus_access.md R108). -/
def execRdTree (index : Nat) (s : State) : Out :=
  .next (readWindow (treeMapped s index) (hostWord s (treeAddr index)) s)

/-- WR_TREE (41_bus_access.md R109). -/
def execWrTree (index : Nat) (v : Word) (s : State) : Out :=
  .next (writeWindow (treeMapped s index) (writeTree index v s) s)

/-- RD_CTAB (41_bus_access.md R110). -/
def execRdCtab (sym word : Nat) (s : State) : Out :=
  .next (readWindow (ctabMapped sym word) (ctabReadWord sym word s) s)

/-- WR_CTAB (41_bus_access.md R111). -/
def execWrCtab (sym word : Nat) (v : Word) (s : State) : Out :=
  .next (writeWindow (ctabMapped sym word) (writeCtab sym word v s) s)

/-- RD_CTAB_EOS (41_bus_access.md R110): the sentinel's entry. -/
def execRdCtabEos (word : Nat) (s : State) : Out :=
  .next (readWindow (ctabMapped sentinel word) (ctabReadWord sentinel word s) s)

/-- WR_CTAB_EOS (41_bus_access.md R111): the sentinel's entry. -/
def execWrCtabEos (word : Nat) (v : Word) (s : State) : Out :=
  .next (writeWindow (ctabMapped sentinel word) (writeCtab sentinel word v s) s)

/-- RD_EOBUF (41_bus_access.md R112). -/
def execRdEobuf (wordIdx : Nat) (s : State) : Out :=
  .next (readWindow (obufMapped s wordIdx) (hostWord s (eobufAddr (4 * wordIdx))) s)

/-- WR_EOBUF (41_bus_access.md R113): no state change. -/
def execWrEobuf (wordIdx : Nat) (v : Word) (s : State) : Out :=
  .next (writeWindow (obufMapped s wordIdx) (ignoreWrite v s) s)

/-- RD_DOBUF (41_bus_access.md R112). -/
def execRdDobuf (wordIdx : Nat) (s : State) : Out :=
  .next (readWindow (obufMapped s wordIdx) (hostWord s (dobufAddr (4 * wordIdx))) s)

/-- WR_DOBUF (41_bus_access.md R113): no state change. -/
def execWrDobuf (wordIdx : Nat) (v : Word) (s : State) : Out :=
  .next (writeWindow (obufMapped s wordIdx) (ignoreWrite v s) s)

end Sys2Proof.Machine
end

