-- ==== Sys2Proof/Machine/Dispatch.lean ====
section
/-! DEFINITION. One arm per instruction. -/

namespace Sys2Proof.Machine

def exec (i : Instr) (s : State) : Host.Outcome State Fault Refusal :=
  match i with
  | .nop => Sys2Proof.Machine.execNop s
  | .encStart => Sys2Proof.Machine.execEncStart s
  | .encSym b => Sys2Proof.Machine.execEncSym b s
  | .encEnd => Sys2Proof.Machine.execEncEnd s
  | .encOclr => Sys2Proof.Machine.execEncOclr s
  | .decStart r => Sys2Proof.Machine.execDecStart r s
  | .decByte b => Sys2Proof.Machine.execDecByte b s
  | .decEnd => Sys2Proof.Machine.execDecEnd s
  | .decOclr => Sys2Proof.Machine.execDecOclr s
  | .rdId => Sys2Proof.Machine.execRdId s
  | .rdVersion => Sys2Proof.Machine.execRdVersion s
  | .rdCfgTree => Sys2Proof.Machine.execRdCfgTree s
  | .rdCfgObuf => Sys2Proof.Machine.execRdCfgObuf s
  | .rdCmd => Sys2Proof.Machine.execRdCmd s
  | .rdFlags => Sys2Proof.Machine.execRdFlags s
  | .rdEncStatus => Sys2Proof.Machine.execRdEncStatus s
  | .rdEncOcnt => Sys2Proof.Machine.execRdEncOcnt s
  | .rdDecStatus => Sys2Proof.Machine.execRdDecStatus s
  | .rdDecOcnt => Sys2Proof.Machine.execRdDecOcnt s
  | .rdDecNode => Sys2Proof.Machine.execRdDecNode s
  | .wrCmd v => Sys2Proof.Machine.execWrCmd v s
  | .wrFlags v => Sys2Proof.Machine.execWrFlags v s
  | .wrId v => Sys2Proof.Machine.execWrId v s
  | .wrVersion v => Sys2Proof.Machine.execWrVersion v s
  | .wrCfgTree v => Sys2Proof.Machine.execWrCfgTree v s
  | .wrCfgObuf v => Sys2Proof.Machine.execWrCfgObuf v s
  | .wrEncStatus v => Sys2Proof.Machine.execWrEncStatus v s
  | .wrEncOcnt v => Sys2Proof.Machine.execWrEncOcnt v s
  | .wrDecStatus v => Sys2Proof.Machine.execWrDecStatus v s
  | .wrDecOcnt v => Sys2Proof.Machine.execWrDecOcnt v s
  | .wrDecNode v => Sys2Proof.Machine.execWrDecNode v s
  | .rdTree n => Sys2Proof.Machine.execRdTree n s
  | .wrTree n v => Sys2Proof.Machine.execWrTree n v s
  | .rdCtab c w => Sys2Proof.Machine.execRdCtab c w s
  | .wrCtab c w v => Sys2Proof.Machine.execWrCtab c w v s
  | .rdCtabEos w => Sys2Proof.Machine.execRdCtabEos w s
  | .wrCtabEos w v => Sys2Proof.Machine.execWrCtabEos w v s
  | .rdEobuf q => Sys2Proof.Machine.execRdEobuf q s
  | .wrEobuf q v => Sys2Proof.Machine.execWrEobuf q v s
  | .rdDobuf q => Sys2Proof.Machine.execRdDobuf q s
  | .wrDobuf q v => Sys2Proof.Machine.execWrDobuf q v s

end Sys2Proof.Machine
end

