-- ==== Sys2Proof/Machine/FreeValues.lean ====
section
/-! DEFINITION. When the free values of unwritten RAM may change: the two counters they are applied to, and what of
an operation advances them (log entries 5 to 7). The counters are no state of the block, and no meaning reads or
changes them but through `hostWord` and `engineWord`. -/

namespace Sys2Proof.Machine

/-- A table write that is carried out: mapped (20_memory.md R53, R54), and not dropped by a lock (41_bus_access.md
R109, R111). -/
def storesTable (i : Instr) (s : State) : Bool :=
  match i with
  | .wrTree index _ => treeMapped s index && decide (s.dec.state ≠ .run)
  | .wrCtab sym word _ => ctabMapped sym word && decide (s.enc.state ≠ .active)
  | .wrCtabEos word _ => ctabMapped sentinel word && decide (s.enc.state ≠ .active)
  | .nop | .encStart | .encSym _ | .encEnd | .encOclr | .decStart _ | .decByte _ | .decEnd | .decOclr => false
  | .rdId | .rdVersion | .rdCfgTree | .rdCfgObuf | .rdCmd | .rdFlags | .rdEncStatus | .rdEncOcnt => false
  | .rdDecStatus | .rdDecOcnt | .rdDecNode | .rdTree _ | .rdCtab _ _ | .rdCtabEos _ | .rdEobuf _ | .rdDobuf _ => false
  | .wrCmd _ | .wrFlags _ | .wrId _ | .wrVersion _ | .wrCfgTree _ | .wrCfgObuf _ | .wrEncStatus _ => false
  | .wrEncOcnt _ | .wrDecStatus _ | .wrDecOcnt _ | .wrDecNode _ | .wrEobuf _ _ | .wrDobuf _ _ => false

/-- Whether an instruction that leads from `s` to `t` has written a RAM cell: a table write that was carried out, or
an output byte, each of which raises its engine's OCNT (42_encoder.md R130, 43_decoder.md R150). -/
def ramWritten (i : Instr) (s t : State) : Bool :=
  storesTable i s || decide (s.enc.ocnt.toNat < t.enc.ocnt.toNat) || decide (s.dec.ocnt.toNat < t.dec.ocnt.toNat)

/-- The commands in which an engine reads a RAM cell that may be unwritten: ENC_SYM and ENC_END read BITS, DEC_BYTE
reads TREE (10_state.md R42). -/
def commandReadsTables : Command → Bool
  | .encSym _ | .encEnd | .decByte _ => true
  | .nop | .encStart | .encOclr | .decStart _ | .decEnd | .decOclr => false

/-- The instructions in which an engine reads such a cell: the commands, and the CMD write of one. -/
def readsTables : Instr → Bool
  | .encSym _ | .encEnd | .decByte _ => true
  | .wrCmd w => ((decodeCommand w).map commandReadsTables).getD false
  | .nop | .encStart | .encOclr | .decStart _ | .decEnd | .decOclr => false
  | .rdId | .rdVersion | .rdCfgTree | .rdCfgObuf | .rdCmd | .rdFlags | .rdEncStatus | .rdEncOcnt => false
  | .rdDecStatus | .rdDecOcnt | .rdDecNode | .rdTree _ | .rdCtab _ _ | .rdCtabEos _ | .rdEobuf _ | .rdDobuf _ => false
  | .wrFlags _ | .wrId _ | .wrVersion _ | .wrCfgTree _ | .wrCfgObuf _ | .wrEncStatus _ | .wrEncOcnt _ => false
  | .wrDecStatus _ | .wrDecOcnt _ | .wrDecNode _ | .wrTree _ _ | .wrCtab _ _ _ | .wrCtabEos _ _ => false
  | .wrEobuf _ _ | .wrDobuf _ _ => false

/-- The state after an instruction, with the counters as the instruction leaves them: the host's advances where a RAM
cell was written, so that a read repeats its value while nothing writes (20_memory.md R61); the engines' where an
engine may have read. -/
def countFree (i : Instr) (s t : State) : State :=
  { t with
    hostCtr := if ramWritten i s t then t.hostCtr + 1 else t.hostCtr
    engineCtr := if readsTables i then t.engineCtr + 1 else t.engineCtr }

/-- The outcome of an instruction, with the counters advanced. -/
def countOut (i : Instr) (s : State) : Out → Out
  | .next t => .next (countFree i s t)
  | .fault f => .fault f
  | .refused r => .refused r

end Sys2Proof.Machine
end

