-- ==== Sys2Proof/Machine/Step.lean ====
section
/-! DEFINITION. One step: one transaction of the host, or one reset (20_memory.md R50, R60, R62). -/

namespace Sys2Proof.Machine

/-- One host operation (41_bus_access.md R100): the decoded instruction, after which the counters of the free
values advance where it wrote or read RAM (log entries 5 and 6), or what a rejected operation does. -/
def runOp (o : HostOp) (s : State) : Host.Outcome State Fault Refusal :=
  match decode o with
  | .ok i => countOut i s (exec i s)
  | .error r => .next (rejectOp o r s)

/-- The oldest thing issued takes effect, whole; where nothing has been issued nothing happens (log entry 1). -/
def step (s : State) : Host.Outcome State Fault Refusal :=
  match fetch s with
  | none => .next s
  | some (.reset, t) => .next (takeReset t)
  | some (.op o, t) => runOp o t

/-- The state with the instruction of a table word as the next thing issued (log entry 1). -/
def State.withFetchWord (s : State) (nbits w : Nat) : State :=
  { s with pending := .op (hostOpOfTable nbits w) :: s.pending }

end Sys2Proof.Machine
end

