-- ==== Sys2Proof/Machine/HostReference.lean ====
section
/-! DEFINITION. The host's side, as pure functions: the reference functions of 45_host_reference.md, the payload of
30_encoding.md R79 and the pseudo-instructions of 30_encoding.md R81. Nothing here is executed by the block
(00_scope.md R5); claims about a session are stated through it. Log entry 20. -/

namespace Sys2Proof.Machine

/-- A Huffman tree (00_scope.md R13): a leaf holds a symbol, an internal node two children, child 0 taken on bit
0. -/
inductive HTree where
  | leaf (sym : Nat)
  | node (c0 c1 : HTree)
  deriving DecidableEq, Repr

/-! ## Frequency table, priority structure, builder (R170 to R172) -/

/-- The weight of a symbol in a stream: its occurrences, and 1 for the sentinel (45_host_reference.md R170). -/
def symWeight (stream : List Byte) (sym : Nat) : Nat :=
  if sym = 256 then 1 else stream.countP (fun b => b.toNat = sym)

/-- `scan(S)` (45_host_reference.md R170): the (symbol, weight) pairs of nonzero weight, symbols ascending. -/
def scan (stream : List Byte) : List (Nat × Nat) :=
  ((List.range 257).map (fun v => (v, symWeight stream v))).filter (fun p => 0 < p.2)

/-- A pair held by the priority structure, with its insertion number (45_host_reference.md R171). -/
structure PqItem where
  weight : Nat
  seq : Nat
  tree : HTree
  deriving DecidableEq, Repr

/-- The priority structure (45_host_reference.md R171): what it holds, and the next insertion number. -/
structure Pq where
  items : List PqItem
  next : Nat
  deriving DecidableEq, Repr

/-- The empty structure. -/
def Pq.empty : Pq := { items := [], next := 0 }

/-- `insert(x)` (45_host_reference.md R171). -/
def Pq.insert (q : Pq) (w : Nat) (t : HTree) : Pq :=
  { items := q.items ++ [{ weight := w, seq := q.next, tree := t }], next := q.next + 1 }

/-- `size()` (45_host_reference.md R171). -/
def Pq.size (q : Pq) : Nat := q.items.length

/-- The comparison reads the weight and the insertion number only (45_host_reference.md R171). -/
def PqItem.before (x y : PqItem) : Bool :=
  decide (x.weight < y.weight) || (decide (x.weight = y.weight) && decide (x.seq < y.seq))

/-- The least of a nonempty list of pairs, and the others. -/
def takeLeast (x : PqItem) : List PqItem → PqItem × List PqItem
  | [] => (x, [])
  | y :: rest =>
    let r := takeLeast y rest
    if r.1.before x then (r.1, x :: r.2) else (x, y :: rest)

/-- `extract_min()` (45_host_reference.md R171): none, the failure of R185, on an empty structure. -/
def Pq.extractMin (q : Pq) : Option (PqItem × Pq) :=
  match q.items with
  | [] => none
  | x :: rest => some ((takeLeast x rest).1, { q with items := (takeLeast x rest).2 })

/-- The builder's initial insertions (45_host_reference.md R172). -/
def insertLeaves (w : List (Nat × Nat)) : Pq :=
  w.foldl (fun q p => q.insert p.2 (.leaf p.1)) Pq.empty

/-- The builder's loop (45_host_reference.md R172), with a bound on its turns: each turn lowers `size()` by one.
None: an `extract_min` on an empty structure (R185). -/
def buildLoop : Nat → Pq → Option HTree
  | 0, _ => none
  | n + 1, q =>
    match q.extractMin with
    | none => none
    | some (a, q1) =>
      match q1.extractMin with
      | none => some a.tree
      | some (b, q2) => buildLoop n (q2.insert (a.weight + b.weight) (.node a.tree b.tree))

/-- `build(w)` (45_host_reference.md R172). -/
def build (w : List (Nat × Nat)) : Option HTree := buildLoop (w.length + 1) (insertLeaves w)

/-! ## Codes (R174, R176) -/

/-- `walk(n, path)` (45_host_reference.md R174): the codes of a subtree's leaves, in order. -/
def walkCodes : HTree → List Bool → List (Nat × List Bool)
  | .leaf s, path => [(s, path)]
  | .node a b, path => walkCodes a (path ++ [false]) ++ walkCodes b (path ++ [true])

/-- `generate(root)` (45_host_reference.md R174): none, the empty-structure error of R185, on an absent root; a
root leaf gets the one-bit code 0. -/
def generate : Option HTree → Option (List (Nat × List Bool))
  | none => none
  | some (.leaf s) => some [(s, [false])]
  | some (.node a b) => some (walkCodes (.node a b) [])

/-- The leaves' symbols, from left to right. -/
def leafSyms : HTree → List Nat
  | .leaf s => [s]
  | .node a b => leafSyms a ++ leafSyms b

/-- The number of nodes of a tree. -/
def HTree.size : HTree → Nat
  | .leaf _ => 1
  | .node a b => 1 + a.size + b.size

/-- The code a table gives a symbol, empty where it gives none. -/
def codeIn (table : List (Nat × List Bool)) (sym : Nat) : List Bool :=
  match table.find? (fun p => p.1 == sym) with
  | some p => p.2
  | none => []

/-- The codes of a tree (45_host_reference.md R174), as a function of the symbol. -/
def treeCode (t : HTree) (sym : Nat) : List Bool := codeIn ((generate (some t)).getD []) sym

/-! ## The TREE image (R177) -/

/-- The word of an internal node with children at indices `i0` and `i1` (30_encoding.md R81 NODE). -/
def nodeWord (i0 i1 : Nat) : Word := 0#6 ++ BitVec.ofNat 10 i1 ++ 0#6 ++ BitVec.ofNat 10 i0

/-- The word of a leaf (30_encoding.md R81 LEAF). -/
def leafWord (sym : Nat) : Word := 1#1 ++ 0#22 ++ BitVec.ofNat 9 sym

/-- `TREE` of a tree in preorder from index `i` on (45_host_reference.md R177). -/
def treeImage : HTree → Nat → List Word
  | .leaf s, _ => [leafWord s]
  | .node a b, i => nodeWord (i + 1) (i + 1 + a.size) :: (treeImage a (i + 1) ++ treeImage b (i + 1 + a.size))

/-! ## The payload (30_encoding.md R79) -/

/-- The bits of a payload before padding: the inputs' codes in order, then the sentinel's. -/
def payloadBits (code : Nat → List Bool) (stream : List Byte) : List Bool :=
  stream.flatMap (fun b => code b.toNat) ++ code sentinel

/-- The byte whose bit 7 is the first of eight bits; missing bits are the padding's zeros. -/
def packByte (bits : List Bool) : Byte :=
  (List.range 8).foldl (fun acc i => acc <<< 1 ||| (BitVec.ofBool (bits.getD i false)).zeroExtend 8) 0#8

/-- Bits packed most significant first into ceil_div(length, 8) bytes, the last zero-padded. -/
def packBytes (bits : List Bool) : List Byte :=
  (List.range (ceilDiv bits.length 8)).map (fun j => packByte ((bits.drop (8 * j)).take 8))

/-- The payload of an input under a code (30_encoding.md R79). -/
def payload (code : Nat → List Bool) (stream : List Byte) : List Byte := packBytes (payloadBits code stream)

/-! ## Pseudo-instructions (30_encoding.md R81) -/

/-- The offset of a CTAB word of any symbol 0..256, 0x08000 + 64·s + 4·w. -/
def ctabWordOffset (sym w : Nat) : Offset := BitVec.ofNat 18 (0x08000 + 64 * sym + 4 * w)

/-- Word `k` of a code: bit 31 − j is code bit 32k + j, every other bit 0. -/
def codeWord (code : List Bool) (k : Nat) : Word :=
  (List.range 32).foldl (fun acc j => acc <<< 1 ||| (BitVec.ofBool (code.getD (32 * k + j) false)).zeroExtend 32) 0#32

/-- `LOADCODE s, "c"`. -/
def loadCode (sym : Nat) (code : List Bool) : List HostOp :=
  .write (ctabWordOffset sym 0) (BitVec.ofNat 32 code.length) ::
    (List.range (ceilDiv code.length 32)).map (fun k => .write (ctabWordOffset sym (1 + k)) (codeWord code k))

/-- `CLEARCODE s`. -/
def clearCode (sym : Nat) : List HostOp := [.write (ctabWordOffset sym 0) 0#32]

/-- `NODE i, c0, c1`. -/
def nodeOp (i c0 c1 : Nat) : HostOp := .write (BitVec.ofNat 18 (0x01000 + 4 * i)) (nodeWord c0 c1)

/-- `LEAF i, sym`. -/
def leafOp (i sym : Nat) : HostOp := .write (BitVec.ofNat 18 (0x01000 + 4 * i)) (leafWord sym)

/-- `READOUT E, n` and `READOUT D, n`. -/
def readOut (e : Engine) (n : Nat) : List HostOp :=
  (List.range (ceilDiv n 4)).map (fun q =>
    .read (BitVec.ofNat 18 ((match e with | .enc => 0x10000 | .dec => 0x20000) + 4 * q)))

/-- Loading a tree's code table (45_host_reference.md R176, R178): LOADCODE of every symbol of the table and
CLEARCODE of every other. -/
def loadCtab (t : HTree) : List HostOp :=
  (List.range 257).flatMap (fun s => if treeCode t s = [] then clearCode s else loadCode s (treeCode t s))

/-- Loading a tree in preorder from index 0 on (45_host_reference.md R177, R178). -/
def loadTree (t : HTree) : List HostOp :=
  (treeImage t 0).mapIdx (fun i w => .write (BitVec.ofNat 18 (0x01000 + 4 * i)) w)

/-- An encoder session (70_reset_and_hazards.md R222, steps 3 to 5) without drains. -/
def encSession (stream : List Byte) : List Instr :=
  .encStart :: (stream.map (fun b => .encSym b) ++ [.encEnd])

/-- A decoder session (70_reset_and_hazards.md R223, steps 3 to 5) without drains. -/
def decSession (root : Nat) (bytes : List Byte) : List Instr :=
  .decStart root :: (bytes.map (fun b => .decByte b) ++ [.decEnd])

end Sys2Proof.Machine
end

