-- ==== Sys2Proof/Safety.lean ====
section
/-! DEFINITION. The terms claims are stated in: the invariants of the block, its map of offsets, the bytes a window
holds, and runs of instructions. -/

namespace Sys2Proof.Machine

/-! ## Invariants -/

/-- ENC.ACC[7 − NB : 0] = 0 (10_state.md R31). -/
abbrev accumulatorClean (e : EncEngine) : Prop :=
  ∀ k, k < 8 → k + e.nb.toNat < 8 → e.acc.getLsbD k = false

/-- The error codes the encoder raises (60_exceptions.md R200). -/
def encoderErr : EngineErr → Bool
  | .none => true
  | .seq => true
  | .nosym => true
  | .badlen => true
  | .overflow => true
  | .malformed => false
  | .treeRange => false
  | .treeSym => false

/-- The error codes the decoder raises (60_exceptions.md R200). -/
def decoderErr : EngineErr → Bool
  | .none => true
  | .seq => true
  | .nosym => false
  | .badlen => false
  | .overflow => true
  | .malformed => true
  | .treeRange => true
  | .treeSym => true

/-- The invariant of the block: what every step keeps. -/
structure Inv (s : State) : Prop where
  /-- the parameters are legal (00_scope.md R7) -/
  legal : s.cfg.Legal
  /-- memory is in canonical form -/
  memWf : s.mem.wf
  /-- the accumulator invariant (10_state.md R31) -/
  accClean : accumulatorClean s.enc
  /-- ENC.OCNT is in 0..OBUF_SIZE (10_state.md R29) -/
  encCount : s.enc.ocnt.toNat ≤ s.cfg.obufSize
  /-- DEC.OCNT is in 0..OBUF_SIZE (10_state.md R33) -/
  decCount : s.dec.ocnt.toNat ≤ s.cfg.obufSize
  /-- DEC.ROOT indexes TREE -/
  rootBound : s.dec.root.toNat < s.cfg.treeNodes
  /-- DEC.CUR indexes TREE -/
  curBound : s.dec.cur.toNat < s.cfg.treeNodes
  /-- ENC.ERR is 0 exactly outside ERROR (10_state.md R35) -/
  encErr : s.enc.err = .none ↔ s.enc.state ≠ .error
  /-- DEC.ERR is 0 exactly outside ERROR (10_state.md R35) -/
  decErr : s.dec.err = .none ↔ s.dec.state ≠ .error
  /-- ENC.ERR is a code of the encoder (60_exceptions.md R200) -/
  encCode : encoderErr s.enc.err = true
  /-- DEC.ERR is a code of the decoder (60_exceptions.md R200) -/
  decCode : decoderErr s.dec.err = true

/-- Every output byte below OCNT has been written: the host reads no unspecified byte there (10_state.md R29, R33,
R40, R41). -/
def OutputWritten (s : State) : Prop :=
  (∀ j, j < s.enc.ocnt.toNat → (s.mem.read (eobufAddr j)).isSome = true) ∧
  (∀ j, j < s.dec.ocnt.toNat → (s.mem.read (dobufAddr j)).isSome = true)

/-! ## Offsets and words -/

/-- The bytes of the RAM windows (20_memory.md R52 to R54). -/
def inWindow (c : Config) (a : Nat) : Prop :=
  (0x01000 ≤ a ∧ a < 0x01000 + 4 * c.treeNodes) ∨
  (0x08000 ≤ a ∧ a < 0x0C040 ∧ (a - 0x08000) % 64 < 36) ∨
  (0x10000 ≤ a ∧ a < 0x10000 + c.obufSize) ∨
  (0x20000 ≤ a ∧ a < 0x20000 + c.obufSize)

/-- The mapped offsets of 20_memory.md R52 and R54: the eleven registers and the words of the windows. -/
def mappedOffset (c : Config) (off : Offset) : Prop := off.toNat ≤ 0x00028 ∨ inWindow c off.toNat

/-- Every listed byte lies in a RAM window. -/
def RamInWindows (s : State) : Prop := ∀ p ∈ s.mem.cells, inWindow s.cfg p.1

/-- The word at an offset where all four of its bytes are written. -/
def writtenWord (m : Memory) (a : Nat) : Option Word :=
  match m.read (a + 3), m.read (a + 2), m.read (a + 1), m.read a with
  | some b3, some b2, some b1, some b0 => some (b3 ++ b2 ++ b1 ++ b0)
  | _, _, _, _ => none

/-- Every byte of memory reads the same but those from `lo` on, `n` of them. -/
def MemSameOutside (lo n : Nat) (s t : State) : Prop :=
  ∀ a, ¬ (lo ≤ a ∧ a < lo + n) → t.mem.read a = s.mem.read a

/-- In RUN the cursor stands at the root or at a written word that is no leaf, or at an unwritten word (10_state.md
R36). -/
def CursorInternal (s : State) : Prop :=
  s.dec.state = .run → s.dec.cur = s.dec.root ∨
    ∀ n, writtenWord s.mem (treeAddr s.dec.cur.toNat) = some n → nodeIsLeaf n = false

/-! ## Output streams -/

/-- EOBUF[0 .. n − 1], an unwritten byte taken as 0. -/
def eobufBytes (s : State) (n : Nat) : List Byte := (List.range n).map (fun j => (s.mem.read (eobufAddr j)).getD 0#8)

/-- DOBUF[0 .. n − 1], an unwritten byte taken as 0. -/
def dobufBytes (s : State) (n : Nat) : List Byte := (List.range n).map (fun j => (s.mem.read (dobufAddr j)).getD 0#8)

/-- The pending bits of the accumulator, in stream order (10_state.md R31). -/
def pendingBits (e : EncEngine) : List Bool := (List.range e.nb.toNat).map (fun i => e.acc.getLsbD (7 - i))

/-- The encoder's stream since OCNT was last 0: the bits of EOBUF[0 .. OCNT − 1] and then the pending bits. -/
def encStream (s : State) : List Bool :=
  (eobufBytes s s.enc.ocnt.toNat).flatMap bitsMsbFirst ++ pendingBits s.enc

/-! ## Tables in memory -/

/-- The words of a symbol's code that the encoder reads are written (10_state.md R38). -/
def CodeWritten (s : State) (sym : Nat) : Prop :=
  ∀ k, k < ceilDiv (ctabLen s sym).toNat 32 → (writtenWord s.mem (ctabAddr sym (1 + k))).isSome = true

/-- CTAB holds a code for a symbol, written (10_state.md R37, R38). -/
def HoldsCode (s : State) (sym : Nat) (code : List Bool) : Prop := CodeWritten s sym ∧ codeBits s sym = code

/-- What TREE holds from an index on, with the links followed as deep as wanted: a leaf, an internal node with what
its links lead to, an index outside TREE, or nothing said. -/
inductive Shape where
  | leaf (sym : Nat)
  | node (c0 c1 : Shape)
  | outside
  | beyond
  deriving DecidableEq, Repr

/-- TREE holds a shape from an index on (30_encoding.md R76). A TREE with cycles holds every finite unfolding of
itself. -/
def HoldsShape (s : State) : Nat → Shape → Prop
  | i, .leaf sym => i < s.cfg.treeNodes ∧
      ∃ n, writtenWord s.mem (treeAddr i) = some n ∧ nodeIsLeaf n = true ∧ (nodeSym n).toNat = sym
  | i, .node a b => i < s.cfg.treeNodes ∧
      ∃ n, writtenWord s.mem (treeAddr i) = some n ∧ nodeIsLeaf n = false ∧
        HoldsShape s (nodeC0 n).toNat a ∧ HoldsShape s (nodeC1 n).toNat b
  | i, .outside => s.cfg.treeNodes ≤ i
  | _, .beyond => True

/-- A host's tree as a shape. -/
def HTree.toShape : HTree → Shape
  | .leaf sym => .leaf sym
  | .node a b => .node a.toShape b.toShape

/-- How the walk of a byte's bits ends: at a place in the tree, at the sentinel, or with an engine error. A walk
that goes on says how it came to its place: by the bits of `path` from the root, where it hit a leaf on its way, or from
where it started. -/
inductive WalkEnd where
  | running (cur : Shape) (hit : Bool) (path : List Bool)
  | stopped
  | failed (c : EngineErr)
  deriving DecidableEq, Repr

/-- The end of a walk with one move to an internal node in front of it: part of the way, unless a hit follows. -/
def WalkEnd.afterMove (bit : Bool) : WalkEnd → WalkEnd
  | .running cur false path => .running cur false (bit :: path)
  | .running cur true path => .running cur true path
  | .stopped => .stopped
  | .failed c => .failed c

/-- The end of a walk with a leaf hit in front of it: the way starts at the root. -/
def WalkEnd.afterHit : WalkEnd → WalkEnd
  | .running cur _ path => .running cur true path
  | .stopped => .stopped
  | .failed c => .failed c

/-- The index that the bits of a way lead to from an index, by the links of the words in TREE: C0 on 0 and C1 on 1
(30_encoding.md R76, 43_decoder.md R151). -/
def followLinks (s : State) : BitVec 10 → List Bool → BitVec 10
  | i, [] => i
  | i, bit :: rest => followLinks s (nodeChild ((writtenWord s.mem (treeAddr i.toNat)).getD 0#32) bit) rest

/-- What a bit leads to (43_decoder.md R151): on a leaf the leaf itself, whatever the bit. -/
def shapeAfter : Shape → Bool → Shape
  | .leaf sym, _ => .leaf sym
  | .node a b, bit => if bit then b else a
  | .outside, _ => .beyond
  | .beyond, _ => .beyond

/-- The walk of bits from a place in a shape, as 43_decoder.md R150 and R151 tell it of a tree: the bytes emitted
and how it ends. `room` is what the output buffer still holds; none where the walk leaves what the shape says. -/
def walkShape (root : Shape) : Nat → Shape → List Bool → Option (List Byte × WalkEnd)
  | _, cur, [] => some ([], .running cur false [])
  | room, cur, bit :: rest =>
    match shapeAfter cur bit with
    | .leaf sym =>
      if 256 < sym then some ([], .failed .treeSym)
      else if sym = 256 then some ([], .stopped)
      else if room = 0 then some ([], .failed .overflow)
      else (walkShape root (room - 1) root rest).map (fun r => (BitVec.ofNat 8 sym :: r.1, r.2.afterHit))
    | .node a b => (walkShape root room (.node a b) rest).map (fun r => (r.1, r.2.afterMove bit))
    | .outside => some ([], .failed .treeRange)
    | .beyond => none

/-! ## Forms and events -/

/-- The read of word `word` of CTAB entry `sym`, 0..256: the sentinel's entry has a form of its own. -/
def ctabRead (sym word : Nat) : Instr := if sym = 256 then .rdCtabEos word else .rdCtab sym word

/-- The write of word `word` of CTAB entry `sym`, 0..256. -/
def ctabWrite (sym word : Nat) (v : Word) : Instr := if sym = 256 then .wrCtabEos word v else .wrCtab sym word v

/-- The event that sets a flag (10_state.md R27). -/
def flagEvent (s : State) : Flag → Instr → Bool
  | .cmdBad, .wrCmd w => decide (decodeCommand w = none)
  | .ctLock, .wrCtab sym word _ => decide (sym ≤ 256 ∧ word ≤ 8 ∧ s.enc.state = .active)
  | .ctLock, .wrCtabEos word _ => decide (word ≤ 8 ∧ s.enc.state = .active)
  | .trLock, .wrTree index _ => decide (index < s.cfg.treeNodes ∧ s.dec.state = .run)
  | .dxtra, .decByte _ => decide (s.dec.state = .done)
  | .dxtra, .wrCmd w =>
    (match decodeCommand w with
      | some (.decByte _) => true
      | _ => false) && decide (s.dec.state = .done)
  | _, _ => false

/-- The write that clears a flag (41_bus_access.md R105). -/
def flagCleared (f : Flag) : Instr → Bool
  | .wrFlags v => v.getLsbD f.bit
  | _ => false

/-- The commands of an engine. -/
def engineCommand : Engine → Instr → Bool
  | .enc, .encStart => true
  | .enc, .encSym _ => true
  | .enc, .encEnd => true
  | .enc, .encOclr => true
  | .dec, .decStart _ => true
  | .dec, .decByte _ => true
  | .dec, .decEnd => true
  | .dec, .decOclr => true
  | _, _ => false

/-! ## Runs -/

/-- The state with a list of instructions issued, before whatever was pending. -/
def issue (is : List Instr) (s : State) : State := { s with pending := is.map (fun i => .op (encode i)) ++ s.pending }

/-- `n` steps of the machine, stopping at the first stop. -/
def stepN : Nat → State → Out
  | 0, s => .next s
  | n + 1, s =>
    match step s with
    | .next t => stepN n t
    | .fault r => .fault r
    | .refused r => .refused r

end Sys2Proof.Machine
end

