-- ==== Sys2Proof/Certificates/Slice0/Obligations.lean ====
section
/-! DEFINITION. What is claimed of the block. Each statement's docstring names the rule of spec/ it rests on. -/

open Sys2Proof Sys2Proof.Machine

/-! ## Encodings -/

/-- The decoder reads back every instruction the encoder can write (30_encoding.md R70 to R77). -/
def Obligations.DecodeOfEncode : Prop :=
  ∀ i : Instr, i.wellFormed = true → decode (encode i) = .ok i

/-- Every operation the decoder accepts is the encoding of exactly the instruction it reads: no two operations
share an instruction, and no operand bit is dropped. -/
def Obligations.EncodeOfDecode : Prop :=
  ∀ (o : HostOp) (i : Instr), decode o = .ok i → i.wellFormed = true ∧ encode i = o

/-- 30_encoding.md R71 and R72: the command of a word is the row it matches, with the operand of its field. -/
def Obligations.OpcodeMapOfCommandWords : Prop :=
  (∀ w : Word,
    (decodeCommand w = some .nop ↔ w &&& 0xFFFFFFFF#32 = 0x00000000#32) ∧
    (decodeCommand w = some .encStart ↔ w &&& 0xFFFFFFFF#32 = 0x01000000#32) ∧
    (∀ b, decodeCommand w = some (.encSym b) ↔ w &&& 0xFFFFFF00#32 = 0x02000000#32 ∧ b = w.extractLsb' 0 8) ∧
    (decodeCommand w = some .encEnd ↔ w &&& 0xFFFFFFFF#32 = 0x03000000#32) ∧
    (decodeCommand w = some .encOclr ↔ w &&& 0xFFFFFFFF#32 = 0x04000000#32) ∧
    (∀ r, decodeCommand w = some (.decStart r) ↔
      w &&& 0xFFFFFC00#32 = 0x11000000#32 ∧ r = (w.extractLsb' 0 10).toNat) ∧
    (∀ b, decodeCommand w = some (.decByte b) ↔ w &&& 0xFFFFFF00#32 = 0x12000000#32 ∧ b = w.extractLsb' 0 8) ∧
    (decodeCommand w = some .decEnd ↔ w &&& 0xFFFFFFFF#32 = 0x13000000#32) ∧
    (decodeCommand w = some .decOclr ↔ w &&& 0xFFFFFFFF#32 = 0x14000000#32)) ∧
  (∀ (w : Word) (r r' : CommandRow), r ∈ commandRows → r' ∈ commandRows →
    w &&& r.mask = r.pattern → w &&& r'.mask = r'.pattern → r.pattern = r'.pattern)

/-- 30_encoding.md R73 and R74, 41_bus_access.md R107: which command words are illegal, and that writing one sets
CMD_BAD and does nothing else. -/
def Obligations.IllegalCommandWordSetsOnlyCmdBad : Prop :=
  ∀ w : Word,
    let op := (w.extractLsb' 24 8).toNat
    let illegal :=
      (0x05 ≤ op ∧ op ≤ 0x10) ∨ 0x15 ≤ op ∨
      ((op = 0x00 ∨ op = 0x01 ∨ op = 0x03 ∨ op = 0x04 ∨ op = 0x13 ∨ op = 0x14) ∧ w.extractLsb' 0 24 ≠ 0#24) ∨
      ((op = 0x02 ∨ op = 0x12) ∧ w.extractLsb' 8 16 ≠ 0#16) ∨
      (op = 0x11 ∧ w.extractLsb' 10 14 ≠ 0#14)
    (decodeCommand w = none ↔ illegal) ∧
    ∀ s : State, illegal →
      exec (.wrCmd w) s = .next { s with
        flags := s.flags ||| 0b0001#4
        resp := some { status := .okay, data := none } }

/-- 20_memory.md R53 and R54: which cell an offset of the TREE and CTAB windows selects, in both directions of
transfer, and that words 9 to 15 of a CTAB entry are unmapped. -/
def Obligations.TableOffsetsSelectTheirCells : Prop :=
  (∀ (off : Offset) (v : Word) (s : State), s.cfg.Legal → off.toNat % 4 = 0 →
    0x01000 ≤ off.toNat → off.toNat < 0x01000 + 4 * s.cfg.treeNodes →
    decode (.read off) = .ok (.rdTree ((off.toNat - 0x01000) / 4)) ∧
    decode (.write off v) = .ok (.wrTree ((off.toNat - 0x01000) / 4) v)) ∧
  (∀ (off : Offset) (v : Word) (s : State), off.toNat % 4 = 0 → 0x08000 ≤ off.toNat → off.toNat ≤ 0x0C03C →
    let sym := (off.toNat - 0x08000) / 64
    let word := (off.toNat - 0x08000) % 64 / 4
    decode (.read off) = .ok (ctabRead sym word) ∧ decode (.write off v) = .ok (ctabWrite sym word v) ∧
    (9 ≤ word →
      exec (ctabRead sym word) s = .next { s with resp := some { status := .error, data := some 0#32 } } ∧
      exec (ctabWrite sym word v) s = .next { s with resp := some { status := .error, data := none } }))

/-- Words written out bit by bit from 30_encoding.md R71 and the bus rows of spec/opcode_table.json. -/
def Obligations.SpecWordsDecode : Prop :=
  decode (.command 0b00000000_000000000000000000000000#32) = .ok .nop ∧
  decode (.command 0b00000010_0000000000000000_01100001#32) = .ok (.encSym 0x61#8) ∧
  decode (.command 0b00010001_00000000000000_1000000001#32) = .ok (.decStart 513) ∧
  decode (.command 0b00010010_0000000000000000_11100010#32) = .ok (.decByte 0xE2#8) ∧
  decode (.read 0b000000_000000011000#18) = .ok .rdEncStatus ∧
  decode (.write 0b000000_000000010000#18 0x05000000#32) = .ok (.wrCmd 0x05000000#32) ∧
  decode (.write 0b000001_0000000100_00#18 0x80000061#32) = .ok (.wrTree 4 0x80000061#32) ∧
  decode (.read 0b0010_01100001_0001_00#18) = .ok (.rdCtab 0x61 1) ∧
  decode (.write 0b001100000000_1000_00#18 7#32) = .ok (.wrCtabEos 8 7#32) ∧
  decode (.read 0b01_00000000000001_00#18) = .ok (.rdEobuf 1) ∧
  decode (.read 0b10_11111111111111_00#18) = .ok (.rdDobuf 16383)

/-! ## Steps -/

/-- When the oldest thing issued is an operation that decodes to `i`, the step is `exec i`, after the operation is
taken from what is pending; after it, the counters of the free values advance where a RAM cell was written and where
an engine may have read one (the model's own fields, log entries 1, 5 and 6). -/
def Obligations.StepRunsDecodedInstruction : Prop :=
  ∀ (s : State) (o : HostOp) (rest : List Input) (i : Instr),
    s.pending = .op o :: rest → decode o = .ok i →
    ∃ t, exec i { s with pending := rest } = .next t ∧
      step s = .next { t with
        hostCtr := if ramWritten i s t then s.hostCtr + 1 else s.hostCtr
        engineCtr := if readsTables i then s.engineCtr + 1 else s.engineCtr }

/-- 20_memory.md R55: exactly the misaligned and unmapped transactions respond ERROR, with read data 0 and no state
change. The map is R52's and R54's, written with numbers in `mappedOffset`. -/
def Obligations.ExactlyUnmappedOrMisalignedIsBusError : Prop :=
  ∀ (s : State) (off : Offset) (v : Word), s.cfg.Legal →
    ((off.toNat % 4 ≠ 0 ∨ ¬ mappedOffset s.cfg off) →
      runOp (.read off) s = .next { s with resp := some { status := .error, data := some 0x00000000#32 } } ∧
      runOp (.write off v) s = .next { s with resp := some { status := .error, data := none } }) ∧
    (off.toNat % 4 = 0 → mappedOffset s.cfg off →
      (∃ t d, runOp (.read off) s = .next t ∧ t.resp = some { status := .okay, data := some d }) ∧
      (∃ t, runOp (.write off v) s = .next t ∧ t.resp = some { status := .okay, data := none }))

/-- A command word is shorthand for the write of it to CMD at offset 0x00010 (30_encoding.md R80). -/
def Obligations.CommandWordIsWriteToCmd : Prop :=
  ∀ (w : Word) (s : State), runOp (.command w) s = runOp (.write 0x00010#18 w) s

/-- 41_bus_access.md R103: a CMD write runs the command its word encodes, does what R107 says for a word that
matches no row, and never responds ERROR. -/
def Obligations.CmdWriteRunsTheCommand : Prop :=
  (∀ (i : Instr) (w : Word) (s : State), i.wellFormed = true → encode i = .command w →
    exec (.wrCmd w) s = exec i s) ∧
  (∀ (w : Word) (s : State), decodeCommand w = none →
    exec (.wrCmd w) s = .next { s with
      flags := s.flags ||| 0b0001#4
      resp := some { status := .okay, data := none } }) ∧
  (∀ (w : Word) (s : State), ∃ t, exec (.wrCmd w) s = .next t ∧
    t.resp = some { status := .okay, data := none })

/-- No step stops the block. 43_decoder.md R157 says so of every transaction, and 70_reset_and_hazards.md R220 gives
reset its effect. That a step with nothing issued changes nothing is the model's own (log entry 1), and so is that a
command goes on where an engine reads an unwritten cell (log entry 6). -/
def Obligations.EveryStepCompletes : Prop := ∀ s : State, ∃ t, step s = .next t

/-- 10_state.md R44: the values after reset. What R44 leaves unspecified is unwritten. -/
def Obligations.StateAfterReset : Prop :=
  State.reset.enc.state = .idle ∧ State.reset.enc.err = .none ∧ State.reset.enc.acc = 0#8 ∧
  State.reset.enc.nb = 0#3 ∧ State.reset.enc.ocnt = 0#17 ∧
  State.reset.dec.state = .idle ∧ State.reset.dec.err = .none ∧ State.reset.dec.root = 0#10 ∧
  State.reset.dec.cur = 0#10 ∧ State.reset.dec.ocnt = 0#17 ∧
  State.reset.flags = 0#4 ∧
  (∀ sym, sym ≤ 256 → ctabLen State.reset sym = 0#9) ∧
  (∀ sym k, sym ≤ 256 → k < 8 → ∀ j, j < 4 → State.reset.mem.read (ctabAddr sym (1 + k) + j) = none) ∧
  (∀ i j, i < State.reset.cfg.treeNodes → j < 4 → State.reset.mem.read (treeAddr i + j) = none) ∧
  (∀ j, j < State.reset.cfg.obufSize →
    State.reset.mem.read (eobufAddr j) = none ∧ State.reset.mem.read (dobufAddr j) = none) ∧
  exec .rdId State.reset =
    .next { State.reset with resp := some { status := .okay, data := some 0x48554646#32 } } ∧
  exec .rdVersion State.reset =
    .next { State.reset with resp := some { status := .okay, data := some 0x00000001#32 } } ∧
  exec .rdCfgTree State.reset =
    .next { State.reset with resp := some { status := .okay, data := some 513#32 } } ∧
  exec .rdCfgObuf State.reset =
    .next { State.reset with resp := some { status := .okay, data := some 4096#32 } }

/-- 70_reset_and_hazards.md R220: a reset falls between transactions and leaves, whatever went before, the engines
idle and cleared, FLAGS 0, every LEN 0 and every other RAM byte unwritten. It keeps the parameters and what the
outside has still to issue (the model's own, log entry 13). -/
def Obligations.ResetClearsTheBlock : Prop :=
  ∀ (s : State) (rest : List Input), s.pending = .reset :: rest →
    ∃ t, step s = .next t ∧
      t.enc = { state := .idle, err := .none, acc := 0#8, nb := 0#3, ocnt := 0#17 } ∧
      t.dec = { state := .idle, err := .none, root := 0#10, cur := 0#10, ocnt := 0#17 } ∧
      t.flags = 0#4 ∧
      (∀ sym, sym ≤ 256 → ctabLen t sym = 0#9) ∧
      (∀ a, ¬ (0x08000 ≤ a ∧ a < 0x0C040 ∧ (a - 0x08000) % 64 < 4) → t.mem.read a = none) ∧
      t.cfg = s.cfg ∧ t.pending = rest

/-! ## Invariants -/

/-- The invariants hold after reset, for every legal choice of the parameters. -/
def Obligations.InvariantsHoldAfterReset : Prop :=
  (∀ c : Config, c.Legal →
    Inv (State.resetWith c) ∧ OutputWritten (State.resetWith c) ∧ RamInWindows (State.resetWith c) ∧
    CursorInternal (State.resetWith c)) ∧
  Inv State.reset

/-- Every step keeps the invariant of the block: legal parameters, canonical memory, the accumulator's clear low bits
(10_state.md R31), the counts and indices within their bounds (R29, R33), ERR zero exactly outside ERROR (R35) and
within the engine's own codes (60_exceptions.md R200). -/
def Obligations.StepKeepsTheInvariant : Prop :=
  ∀ s t : State, Inv s → step s = .next t → Inv t

/-- Every step keeps the output bytes below OCNT written (10_state.md R29, R33). -/
def Obligations.StepKeepsOutputWritten : Prop :=
  ∀ s t : State, Inv s → OutputWritten s → step s = .next t → OutputWritten t

/-- No step writes a byte outside the RAM windows of 20_memory.md R52. -/
def Obligations.StepWritesOnlyTheWindows : Prop :=
  ∀ s t : State, Inv s → RamInWindows s → step s = .next t → RamInWindows t

/-- 10_state.md R36: in RUN the cursor stands at the root or at no leaf, of the words that are written. -/
def Obligations.StepKeepsTheCursorOffLeaves : Prop :=
  ∀ s t : State, Inv s → CursorInternal s → step s = .next t → CursorInternal t

/-! ## Bus transactions -/

/-- 41_bus_access.md R101: what each register reads, and that the read changes nothing but the response. -/
def Obligations.RegisterReadsReturnTheirValues : Prop :=
  ∀ s : State,
    let answer (d : Word) : Out := .next { s with resp := some { status := .okay, data := some d } }
    exec .rdId s = answer 0x48554646#32 ∧
    exec .rdVersion s = answer 0x00000001#32 ∧
    exec .rdCfgTree s = answer (BitVec.ofNat 32 s.cfg.treeNodes) ∧
    exec .rdCfgObuf s = answer (BitVec.ofNat 32 s.cfg.obufSize) ∧
    exec .rdCmd s = answer 0x00000000#32 ∧
    exec .rdFlags s = answer (BitVec.ofNat 32 s.flags.toNat) ∧
    exec .rdEncStatus s = answer (BitVec.ofNat 32
      (s.enc.acc.toNat * 2 ^ 16 + s.enc.nb.toNat * 2 ^ 8 + (errCode s.enc.err).toNat * 2 ^ 4 +
        (encStateCode s.enc.state).toNat)) ∧
    exec .rdEncOcnt s = answer (BitVec.ofNat 32 s.enc.ocnt.toNat) ∧
    exec .rdDecStatus s = answer (BitVec.ofNat 32
      ((errCode s.dec.err).toNat * 2 ^ 4 + (decStateCode s.dec.state).toNat)) ∧
    exec .rdDecOcnt s = answer (BitVec.ofNat 32 s.dec.ocnt.toNat) ∧
    exec .rdDecNode s = answer (BitVec.ofNat 32 (s.dec.root.toNat * 2 ^ 16 + s.dec.cur.toNat))

/-- Every read, of any offset, leaves every piece of state but the response alone, and repeating it gives the same
response (20_memory.md R61). -/
def Obligations.ReadsChangeNothingAndRepeat : Prop :=
  ∀ (off : Offset) (s : State), ∃ r : Response,
    runOp (.read off) s = .next { s with resp := some r } ∧
    runOp (.read off) { s with resp := some r } = .next { s with resp := some r }

/-- 41_bus_access.md R104 and R113: writes to read-only registers and to the output buffers respond OKAY and change
nothing; beyond OBUF_SIZE an output window is unmapped (20_memory.md R55). -/
def Obligations.ReadOnlyWritesAreIgnored : Prop :=
  ∀ (v : Word) (s : State),
    let ignored : Out := .next { s with resp := some { status := .okay, data := none } }
    let busError : Out := .next { s with resp := some { status := .error, data := none } }
    exec (.wrId v) s = ignored ∧ exec (.wrVersion v) s = ignored ∧ exec (.wrCfgTree v) s = ignored ∧
    exec (.wrCfgObuf v) s = ignored ∧ exec (.wrEncStatus v) s = ignored ∧ exec (.wrEncOcnt v) s = ignored ∧
    exec (.wrDecStatus v) s = ignored ∧ exec (.wrDecOcnt v) s = ignored ∧ exec (.wrDecNode v) s = ignored ∧
    (∀ q, 4 * q < s.cfg.obufSize → exec (.wrEobuf q v) s = ignored ∧ exec (.wrDobuf q v) s = ignored) ∧
    (∀ q, s.cfg.obufSize ≤ 4 * q → exec (.wrEobuf q v) s = busError ∧ exec (.wrDobuf q v) s = busError)

/-- 41_bus_access.md R105: a write of 1 clears a flag, a write of 0 leaves it, and no write sets one. -/
def Obligations.FlagsClearOnWriteOfOne : Prop :=
  ∀ (v : Word) (s : State), ∃ t, exec (.wrFlags v) s = .next t ∧
    (∀ k, k < 4 → t.flags.getLsbD k = (s.flags.getLsbD k && !v.getLsbD k)) ∧
    t = { s with flags := t.flags, resp := some { status := .okay, data := none } }

/-- 10_state.md R27: over every instruction, a flag is set after it exactly when its event happened or it was set and
not cleared by a write of 1; a read of FLAGS shows 0 in bits 31:4. -/
def Obligations.FlagsChangeOnlyByTheirEvents : Prop :=
  (∀ (i : Instr) (s t : State), exec i s = .next t → ∀ f : Flag,
    flagValue f t.flags = ((flagValue f s.flags && !flagCleared f i) || flagEvent s f i)) ∧
  (∀ s : State, ∃ d, exec .rdFlags s = .next { s with resp := some { status := .okay, data := some d } } ∧
    d.extractLsb' 0 4 = s.flags ∧ d.extractLsb' 4 28 = 0#28)

/-- 41_bus_access.md R109: a TREE write stores all 32 bits in its node and changes no other byte, or, in RUN, is
dropped and sets TR_LOCK; beyond TREE_NODES it is a bus ERROR. -/
def Obligations.TreeWriteStoresOrLocks : Prop :=
  ∀ (index : Nat) (v : Word) (s : State),
    (index < s.cfg.treeNodes → s.dec.state = .run →
      exec (.wrTree index v) s = .next { s with
        flags := s.flags ||| 0b0100#4
        resp := some { status := .okay, data := none } }) ∧
    (index < s.cfg.treeNodes → s.dec.state ≠ .run →
      ∃ t, exec (.wrTree index v) s = .next t ∧ writtenWord t.mem (treeAddr index) = some v ∧
        MemSameOutside (treeAddr index) 4 s t ∧
        t = { s with mem := t.mem, resp := some { status := .okay, data := none } }) ∧
    (s.cfg.treeNodes ≤ index →
      exec (.wrTree index v) s = .next { s with resp := some { status := .error, data := none } })

/-- 41_bus_access.md R108: a TREE read, in every decoder state, returns the node's word where it is written, and
changes nothing. -/
def Obligations.TreeReadReturnsTheNode : Prop :=
  ∀ (index : Nat) (s : State),
    (index < s.cfg.treeNodes → ∃ d,
      exec (.rdTree index) s = .next { s with resp := some { status := .okay, data := some d } } ∧
      ∀ w, writtenWord s.mem (treeAddr index) = some w → d = w) ∧
    (s.cfg.treeNodes ≤ index →
      exec (.rdTree index) s = .next { s with resp := some { status := .error, data := some 0#32 } })

/-- 41_bus_access.md R111: a CTAB write, of either form, stores LEN's nine bits or the whole BITS word and changes no
byte of another word, or, in ACTIVE, is dropped and sets CT_LOCK. -/
def Obligations.CtabWriteStoresOrLocks : Prop :=
  ∀ (sym word : Nat) (v : Word) (s : State), sym ≤ 256 → word ≤ 8 →
    (s.enc.state = .active →
      exec (ctabWrite sym word v) s = .next { s with
        flags := s.flags ||| 0b0010#4
        resp := some { status := .okay, data := none } }) ∧
    (s.enc.state ≠ .active →
      ∃ t, exec (ctabWrite sym word v) s = .next t ∧
        (word = 0 → ctabLen t sym = v.extractLsb' 0 9) ∧
        (word ≠ 0 → writtenWord t.mem (ctabAddr sym word) = some v) ∧
        MemSameOutside (ctabAddr sym word) 4 s t ∧
        t = { s with mem := t.mem, resp := some { status := .okay, data := none } })

/-- 41_bus_access.md R110: a CTAB read, of either form, returns LEN zero-extended, or the BITS word where it is
written; words 9 to 15 of an entry are unmapped. -/
def Obligations.CtabReadReturnsTheEntry : Prop :=
  ∀ (sym word : Nat) (s : State), sym ≤ 256 →
    (word = 0 → exec (ctabRead sym word) s =
      .next { s with resp := some { status := .okay, data := some (BitVec.ofNat 32 (ctabLen s sym).toNat) } }) ∧
    (1 ≤ word → word ≤ 8 → ∃ d,
      exec (ctabRead sym word) s = .next { s with resp := some { status := .okay, data := some d } } ∧
      ∀ w, writtenWord s.mem (ctabAddr sym word) = some w → d = w) ∧
    (9 ≤ word →
      exec (ctabRead sym word) s = .next { s with resp := some { status := .error, data := some 0#32 } })

/-- 41_bus_access.md R112 and 20_memory.md R57: a read of an output buffer's word q returns bytes 4q to 4q + 3, byte
4q in bits 7:0, and changes nothing; beyond OBUF_SIZE it is a bus ERROR. -/
def Obligations.OutputReadsAreLittleEndian : Prop :=
  ∀ (q : Nat) (s : State),
    (4 * q < s.cfg.obufSize →
      (∃ d, exec (.rdEobuf q) s = .next { s with resp := some { status := .okay, data := some d } } ∧
        ∀ j b, j < 4 → s.mem.read (eobufAddr (4 * q + j)) = some b → d.extractLsb' (8 * j) 8 = b) ∧
      (∃ d, exec (.rdDobuf q) s = .next { s with resp := some { status := .okay, data := some d } } ∧
        ∀ j b, j < 4 → s.mem.read (dobufAddr (4 * q + j)) = some b → d.extractLsb' (8 * j) 8 = b)) ∧
    (s.cfg.obufSize ≤ 4 * q →
      exec (.rdEobuf q) s = .next { s with resp := some { status := .error, data := some 0#32 } } ∧
      exec (.rdDobuf q) s = .next { s with resp := some { status := .error, data := some 0#32 } })

/-! ## Commands -/

/-- 41_bus_access.md R106, 42_encoder.md R133 and R136, 43_decoder.md R155: NOP, ENC_START and the two drain
acknowledgements, from every state. -/
def Obligations.NopStartAndClearCommands : Prop :=
  ∀ s : State,
    exec .nop s = .next { s with resp := some { status := .okay, data := none } } ∧
    exec .encStart s = .next { s with
      enc := { state := .active, err := .none, acc := 0#8, nb := 0#3, ocnt := 0#17 }
      resp := some { status := .okay, data := none } } ∧
    exec .encOclr s = .next { s with
      enc := { s.enc with ocnt := 0#17 }
      resp := some { status := .okay, data := none } } ∧
    exec .decOclr s = .next { s with
      dec := { s.dec with ocnt := 0#17 }
      resp := some { status := .okay, data := none } }

/-- 42_encoder.md R131 and R134: in ACTIVE, with a legal code and room, ENC_SYM appends exactly the symbol's code to
the stream of emitted and pending bits, emits (NB + LEN) div 8 bytes from EOBUF[OCNT] on, and changes nothing
else. -/
def Obligations.EncSymAppendsTheCode : Prop :=
  ∀ (b : Byte) (s : State), Inv s → s.enc.state = .active →
    let len := (ctabLen s b.toNat).toNat
    let need := (s.enc.nb.toNat + len) / 8
    1 ≤ len → len ≤ 256 → s.enc.ocnt.toNat + need ≤ s.cfg.obufSize →
    ∃ t, exec (.encSym b) s = .next t ∧
      encStream t = encStream s ++ codeBits s b.toNat ∧
      t.enc.state = .active ∧ t.enc.err = s.enc.err ∧
      t.enc.ocnt.toNat = s.enc.ocnt.toNat + need ∧
      t.enc.nb.toNat = (s.enc.nb.toNat + len) % 8 ∧
      accumulatorClean t.enc ∧
      MemSameOutside (eobufAddr s.enc.ocnt.toNat) need s t ∧
      t = { s with enc := t.enc, mem := t.mem, resp := some { status := .okay, data := none } }

/-- 42_encoder.md R134 and R132, 60_exceptions.md R202: what ENC_SYM does where it appends nothing, in the order of
its checks. Only STATE and ERR change at an error, and nothing at all in ERROR. -/
def Obligations.EncSymErrorsInOrder : Prop :=
  ∀ (b : Byte) (s : State),
    let len := (ctabLen s b.toNat).toNat
    let fails (c : EngineErr) : Out := .next { s with
      enc := { s.enc with state := .error, err := c }
      resp := some { status := .okay, data := none } }
    (s.enc.state = .error → exec (.encSym b) s = .next { s with resp := some { status := .okay, data := none } }) ∧
    (s.enc.state = .idle ∨ s.enc.state = .done → exec (.encSym b) s = fails .seq) ∧
    (s.enc.state = .active → len = 0 → exec (.encSym b) s = fails .nosym) ∧
    (s.enc.state = .active → 256 < len → exec (.encSym b) s = fails .badlen) ∧
    (s.enc.state = .active → 1 ≤ len → len ≤ 256 →
      s.cfg.obufSize < s.enc.ocnt.toNat + (s.enc.nb.toNat + len) / 8 → exec (.encSym b) s = fails .overflow)

/-- 42_encoder.md R135: in ACTIVE, with a legal sentinel code and room, ENC_END appends the sentinel's code and the
least number of zero bits that fills the last byte, leaves no pending bit, and ends the session in DONE. -/
def Obligations.EncEndPadsAndCloses : Prop :=
  ∀ s : State, Inv s → s.enc.state = .active →
    let len := (ctabLen s 256).toNat
    let need := ceilDiv (s.enc.nb.toNat + len) 8
    1 ≤ len → len ≤ 256 → s.enc.ocnt.toNat + need ≤ s.cfg.obufSize →
    ∃ t p, exec .encEnd s = .next t ∧ p < 8 ∧ 8 * need = s.enc.nb.toNat + len + p ∧
      encStream t = encStream s ++ codeBits s 256 ++ List.replicate p false ∧
      t.enc = { s.enc with state := .done, acc := 0#8, nb := 0#3, ocnt := t.enc.ocnt } ∧
      t.enc.ocnt.toNat = s.enc.ocnt.toNat + need ∧
      MemSameOutside (eobufAddr s.enc.ocnt.toNat) need s t ∧
      t = { s with enc := t.enc, mem := t.mem, resp := some { status := .okay, data := none } }

/-- 42_encoder.md R135 and R132, 60_exceptions.md R202: what ENC_END does where it does not close the session, in the
order of its checks. -/
def Obligations.EncEndErrorsInOrder : Prop :=
  ∀ s : State,
    let len := (ctabLen s 256).toNat
    let fails (c : EngineErr) : Out := .next { s with
      enc := { s.enc with state := .error, err := c }
      resp := some { status := .okay, data := none } }
    (s.enc.state = .error → exec .encEnd s = .next { s with resp := some { status := .okay, data := none } }) ∧
    (s.enc.state = .idle ∨ s.enc.state = .done → exec .encEnd s = fails .seq) ∧
    (s.enc.state = .active → len = 0 → exec .encEnd s = fails .nosym) ∧
    (s.enc.state = .active → 256 < len → exec .encEnd s = fails .badlen) ∧
    (s.enc.state = .active → 1 ≤ len → len ≤ 256 →
      s.cfg.obufSize < s.enc.ocnt.toNat + ceilDiv (s.enc.nb.toNat + len) 8 → exec .encEnd s = fails .overflow)

/-- 70_reset_and_hazards.md R229: the most each command emits, and that the margins 33 and 8 keep OVERFLOW away. -/
def Obligations.CapacityMarginsSuffice : Prop :=
  (∀ (b : Byte) (s t : State), Inv s → exec (.encSym b) s = .next t →
    t.enc.ocnt.toNat ≤ s.enc.ocnt.toNat + 32) ∧
  (∀ s t : State, Inv s → exec .encEnd s = .next t → t.enc.ocnt.toNat ≤ s.enc.ocnt.toNat + 33) ∧
  (∀ (b : Byte) (s t : State), Inv s → exec (.decByte b) s = .next t →
    t.dec.ocnt.toNat ≤ s.dec.ocnt.toNat + 8) ∧
  (∀ (i : Instr) (s t : State), Inv s → exec i s = .next t → engineCommand .enc i = true →
    s.enc.ocnt.toNat + 33 ≤ s.cfg.obufSize → t.enc.err = .overflow → s.enc.err = .overflow) ∧
  (∀ (b : Byte) (s t : State), Inv s → exec (.decByte b) s = .next t →
    s.dec.ocnt.toNat + 8 ≤ s.cfg.obufSize → t.dec.err = .overflow → s.dec.err = .overflow)

/-- 43_decoder.md R153: DEC_START, from every state, opens a session at a root below TREE_NODES and raises TREE_RANGE
at any other, keeping ROOT, CUR and OCNT. -/
def Obligations.DecStartOpensOrRaises : Prop :=
  ∀ (root : Nat) (s : State), s.cfg.Legal →
    (root < s.cfg.treeNodes → ∃ t, exec (.decStart root) s = .next t ∧
      t.dec.root.toNat = root ∧ t.dec.cur.toNat = root ∧
      t.dec = { state := .run, err := .none, root := t.dec.root, cur := t.dec.cur, ocnt := 0#17 } ∧
      t = { s with dec := t.dec, resp := some { status := .okay, data := none } }) ∧
    (s.cfg.treeNodes ≤ root → exec (.decStart root) s = .next { s with
      dec := { s.dec with state := .error, err := .treeRange }
      resp := some { status := .okay, data := none } })

/-- 43_decoder.md R152, outside RUN: SEQ in IDLE, ignored in ERROR, ignored with DXTRA in DONE. -/
def Obligations.DecByteOutsideRun : Prop :=
  ∀ (b : Byte) (s : State),
    (s.dec.state = .idle → exec (.decByte b) s = .next { s with
      dec := { s.dec with state := .error, err := .seq }
      resp := some { status := .okay, data := none } }) ∧
    (s.dec.state = .error → exec (.decByte b) s = .next { s with resp := some { status := .okay, data := none } }) ∧
    (s.dec.state = .done → exec (.decByte b) s = .next { s with
      flags := s.flags ||| 0b1000#4
      resp := some { status := .okay, data := none } })

/-- 43_decoder.md R154: DEC_END in each state. -/
def Obligations.DecEndInEachState : Prop :=
  ∀ s : State,
    let fails (c : EngineErr) : Out := .next { s with
      dec := { s.dec with state := .error, err := c }
      resp := some { status := .okay, data := none } }
    (s.dec.state = .error ∨ s.dec.state = .done →
      exec .decEnd s = .next { s with resp := some { status := .okay, data := none } }) ∧
    (s.dec.state = .idle → exec .decEnd s = fails .seq) ∧
    (s.dec.state = .run → exec .decEnd s = fails .malformed)

/-- 43_decoder.md R150, R151 and R152 and 60_exceptions.md R206, in RUN, for whatever words TREE holds as far as the
walk reads them: DEC_BYTE consumes the byte's bits most significant first, emits the leaves it hits from DOBUF[OCNT]
on and returns to the root at each, stops at the sentinel, and, at the first bit that raises, is all or nothing. In
RUN it leaves in CUR the index that the links of TREE lead to by the bits since the last hit, from ROOT, or, without a
hit, by all the bits from where CUR stood. -/
def Obligations.DecByteFollowsTheTree : Prop :=
  ∀ (b : Byte) (s : State) (root cur : Shape) (out : List Byte) (e : WalkEnd),
    Inv s → s.dec.state = .run →
    HoldsShape s s.dec.root.toNat root → HoldsShape s s.dec.cur.toNat cur →
    walkShape root (s.cfg.obufSize - s.dec.ocnt.toNat) cur (bitsMsbFirst b) = some (out, e) →
    match e with
    | .failed c => exec (.decByte b) s = .next { s with
        dec := { s.dec with state := .error, err := c }
        resp := some { status := .okay, data := none } }
    | .stopped => ∃ t, exec (.decByte b) s = .next t ∧
        (∀ k (h : k < out.length), t.mem.read (dobufAddr (s.dec.ocnt.toNat + k)) = some out[k]) ∧
        MemSameOutside (dobufAddr s.dec.ocnt.toNat) out.length s t ∧
        t = { s with
          dec := { s.dec with
            state := .done, cur := s.dec.root, ocnt := BitVec.ofNat 17 (s.dec.ocnt.toNat + out.length) }
          mem := t.mem
          resp := some { status := .okay, data := none } }
    | .running place hit path => ∃ t, exec (.decByte b) s = .next t ∧
        (∀ k (h : k < out.length), t.mem.read (dobufAddr (s.dec.ocnt.toNat + k)) = some out[k]) ∧
        MemSameOutside (dobufAddr s.dec.ocnt.toNat) out.length s t ∧
        HoldsShape t t.dec.cur.toNat place ∧
        t = { s with
          dec := { s.dec with
            cur := followLinks s (if hit then s.dec.root else s.dec.cur) path
            ocnt := BitVec.ofNat 17 (s.dec.ocnt.toNat + out.length) }
          mem := t.mem
          resp := some { status := .okay, data := none } }

/-! ## Rules of the whole block -/

/-- 60_exceptions.md R202: whichever instruction raises an engine error, the state after it is the state before it
but for that engine's STATE and ERR (and the response). -/
def Obligations.EngineErrorsArePrecise : Prop :=
  ∀ (i : Instr) (s t : State), exec i s = .next t →
    (t.enc.state = .error → s.enc.state ≠ .error ∨ t.enc.err ≠ s.enc.err →
      t = { s with
        enc := { s.enc with state := .error, err := t.enc.err }
        resp := some { status := .okay, data := none } }) ∧
    (t.dec.state = .error → s.dec.state ≠ .error ∨ t.dec.err ≠ s.dec.err →
      t = { s with
        dec := { s.dec with state := .error, err := t.dec.err }
        resp := some { status := .okay, data := none } })

/-- 60_exceptions.md R204: in ERROR every command of the engine but START and OCLR is ignored, and no instruction at
all but its START command changes the engine's STATE or ERR. -/
def Obligations.FirstErrorIsKept : Prop :=
  (∀ (b : Byte) (s : State), s.enc.state = .error →
    exec (.encSym b) s = .next { s with resp := some { status := .okay, data := none } } ∧
    exec .encEnd s = .next { s with resp := some { status := .okay, data := none } }) ∧
  (∀ (b : Byte) (s : State), s.dec.state = .error →
    exec (.decByte b) s = .next { s with resp := some { status := .okay, data := none } } ∧
    exec .decEnd s = .next { s with resp := some { status := .okay, data := none } }) ∧
  (∀ (i : Instr) (s t : State), s.enc.state = .error → exec i s = .next t →
    i ≠ .encStart → (∀ w, i = .wrCmd w → decodeCommand w ≠ some .encStart) →
    t.enc.state = .error ∧ t.enc.err = s.enc.err) ∧
  (∀ (i : Instr) (s t : State), s.dec.state = .error → exec i s = .next t →
    (∀ r, i ≠ .decStart r) → (∀ w r, i = .wrCmd w → decodeCommand w ≠ some (.decStart r)) →
    t.dec.state = .error ∧ t.dec.err = s.dec.err)

/-- 60_exceptions.md R203: the transitions of both engines, command by command; a CMD write makes its command's, and
every other instruction leaves both engines as they are. -/
def Obligations.EngineStateTransitions : Prop :=
  ∀ s t : State,
    (exec .encStart s = .next t → t.enc.state = .active) ∧
    (∀ b, exec (.encSym b) s = .next t →
      (s.enc.state = .idle ∨ s.enc.state = .done → t.enc.state = .error ∧ t.enc.err = .seq) ∧
      (s.enc.state = .active → t.enc.state = .active ∨
        (t.enc.state = .error ∧ (t.enc.err = .nosym ∨ t.enc.err = .badlen ∨ t.enc.err = .overflow))) ∧
      (s.enc.state = .error → t.enc = s.enc)) ∧
    (exec .encEnd s = .next t →
      (s.enc.state = .idle ∨ s.enc.state = .done → t.enc.state = .error ∧ t.enc.err = .seq) ∧
      (s.enc.state = .active → t.enc.state = .done ∨
        (t.enc.state = .error ∧ (t.enc.err = .nosym ∨ t.enc.err = .badlen ∨ t.enc.err = .overflow))) ∧
      (s.enc.state = .error → t.enc = s.enc)) ∧
    (exec .encOclr s = .next t → t.enc = { s.enc with ocnt := 0#17 }) ∧
    (∀ r, exec (.decStart r) s = .next t →
      t.dec.state = .run ∨ (t.dec.state = .error ∧ t.dec.err = .treeRange)) ∧
    (∀ b, exec (.decByte b) s = .next t →
      (s.dec.state = .idle → t.dec.state = .error ∧ t.dec.err = .seq) ∧
      (s.dec.state = .run → t.dec.state = .run ∨ t.dec.state = .done ∨
        (t.dec.state = .error ∧ (t.dec.err = .treeRange ∨ t.dec.err = .treeSym ∨ t.dec.err = .overflow))) ∧
      (s.dec.state = .done → t.dec = s.dec ∧ t.flags.getLsbD 3 = true) ∧
      (s.dec.state = .error → t.dec = s.dec)) ∧
    (exec .decEnd s = .next t →
      (s.dec.state = .idle → t.dec.state = .error ∧ t.dec.err = .seq) ∧
      (s.dec.state = .run → t.dec.state = .error ∧ t.dec.err = .malformed) ∧
      (s.dec.state = .done ∨ s.dec.state = .error → t.dec = s.dec)) ∧
    (exec .decOclr s = .next t → t.dec = { s.dec with ocnt := 0#17 }) ∧
    (exec .nop s = .next t → t.enc = s.enc ∧ t.dec = s.dec) ∧
    (∀ w, decodeCommand w = none → exec (.wrCmd w) s = .next t → t.enc = s.enc ∧ t.dec = s.dec) ∧
    (∀ w c, decodeCommand w = some c → exec (.wrCmd w) s = exec c.toInstr s) ∧
    (∀ i, (∀ w, i ≠ .wrCmd w) → exec i s = .next t →
      (engineCommand .enc i = false → t.enc = s.enc) ∧ (engineCommand .dec i = false → t.dec = s.dec))

/-- The frame of each engine's commands (60_exceptions.md R209, 10_state.md R40, R41): the other engine, the
parameters and every byte outside the engine's own output buffer stay; the encoder's commands change no flag and the
decoder's none but DXTRA. -/
def Obligations.EngineCommandsKeepTheRest : Prop :=
  ∀ (i : Instr) (s t : State), Inv s → exec i s = .next t →
    (engineCommand .enc i = true →
      MemSameOutside (eobufAddr 0) s.cfg.obufSize s t ∧
      t = { s with enc := t.enc, mem := t.mem, resp := some { status := .okay, data := none } }) ∧
    (engineCommand .dec i = true →
      MemSameOutside (dobufAddr 0) s.cfg.obufSize s t ∧
      (∀ f, f ≠ .dxtra → flagValue f t.flags = flagValue f s.flags) ∧
      t = { s with
        dec := t.dec, mem := t.mem, flags := t.flags, resp := some { status := .okay, data := none } })

/-- 60_exceptions.md R209, as what the encoder can learn: two states with the same encoder, the same CTAB and the same
EOBUF, whatever their decoders, trees, decoded bytes and flags, give every encoder command the same encoder state, the
same EOBUF and the same response. (Both states hold the same parameters and the same counter of the free values of
engine reads.) -/
def Obligations.EncoderIgnoresTheDecoder : Prop :=
  ∀ (i : Instr) (s1 s2 t1 t2 : State), engineCommand .enc i = true →
    s1.cfg = s2.cfg → s1.engineCtr = s2.engineCtr → s1.enc = s2.enc →
    (∀ a, 0x08000 ≤ a → a < 0x20000 → s1.mem.read a = s2.mem.read a) →
    exec i s1 = .next t1 → exec i s2 = .next t2 →
    t1.enc = t2.enc ∧ t1.resp = t2.resp ∧ ∀ a, 0x08000 ≤ a → a < 0x20000 → t1.mem.read a = t2.mem.read a

/-- 60_exceptions.md R209, as what the decoder can learn: nothing of the encoder, CTAB, EOBUF or FLAGS. (Both states
hold the same parameters and the same counter of the free values of engine reads.) -/
def Obligations.DecoderIgnoresTheEncoder : Prop :=
  ∀ (i : Instr) (s1 s2 t1 t2 : State), engineCommand .dec i = true →
    s1.cfg = s2.cfg → s1.engineCtr = s2.engineCtr → s1.dec = s2.dec →
    (∀ a, a < 0x08000 ∨ 0x20000 ≤ a → s1.mem.read a = s2.mem.read a) →
    exec i s1 = .next t1 → exec i s2 = .next t2 →
    t1.dec = t2.dec ∧ t1.resp = t2.resp ∧ ∀ a, a < 0x08000 ∨ 0x20000 ≤ a → t1.mem.read a = t2.mem.read a

/-- 20_memory.md R65 and 70_reset_and_hazards.md R227: over every instruction, CTAB keeps every byte while the encoder
is ACTIVE and TREE every byte while the decoder is in RUN. -/
def Obligations.TablesAreFixedDuringASession : Prop :=
  ∀ (i : Instr) (s t : State), Inv s → exec i s = .next t →
    (s.enc.state = .active → ∀ a, 0x08000 ≤ a → a < 0x0C040 → t.mem.read a = s.mem.read a) ∧
    (s.dec.state = .run → ∀ a, 0x01000 ≤ a → a < 0x02000 → t.mem.read a = s.mem.read a)

/-- 10_state.md R40 and R41: over every instruction, an output byte changes only when its engine overwrites it: a byte
of EOBUF only by a command of the encoder, a byte of DOBUF only by a command of the decoder, each at or above the
engine's OCNT. -/
def Obligations.OutputBytesKeepTheirValue : Prop :=
  ∀ (i : Instr) (s t : State), Inv s → exec i s = .next t → ∀ j, j < s.cfg.obufSize →
    (t.mem.read (eobufAddr j) ≠ s.mem.read (eobufAddr j) →
      s.enc.state = .active ∧ s.enc.ocnt.toNat ≤ j ∧ j < t.enc.ocnt.toNat) ∧
    (t.mem.read (dobufAddr j) ≠ s.mem.read (dobufAddr j) →
      s.dec.state = .run ∧ s.dec.ocnt.toNat ≤ j ∧ j < t.dec.ocnt.toNat)

/-! ## Sessions and the host's functions -/

/-- 42_encoder.md R137, for a session that fits EOBUF without a drain: after ENC_START, ENC_SYM of each input byte and
ENC_END, issued as one run of steps, the encoder is DONE and EOBUF holds exactly the payload of 30_encoding.md R79
under the codes in CTAB. -/
def Obligations.EncoderSessionWritesThePayload : Prop :=
  ∀ (s : State) (code : Nat → List Bool) (stream : List Byte), Inv s → s.pending = [] →
    (∀ sym, sym = 256 ∨ (∃ b ∈ stream, sym = b.toNat) →
      HoldsCode s sym (code sym) ∧ 1 ≤ (code sym).length ∧ (code sym).length ≤ 256) →
    (payload code stream).length ≤ s.cfg.obufSize →
    ∃ t, stepN (stream.length + 2) (issue (encSession stream) s) = .next t ∧
      t.enc.state = .done ∧ t.pending = [] ∧
      eobufBytes t t.enc.ocnt.toNat = payload code stream ∧
      (payload code stream).length = ceilDiv (payloadBits code stream).length 8

/-- 43_decoder.md R156, for sessions that fit the output buffers without a drain: where TREE holds a strict binary
tree whose leaves carry distinct symbols, 256 among them, and CTAB holds that tree's codes, encoding any input over
its symbols and decoding the payload gives the input back. -/
def Obligations.RoundTripThroughBothEngines : Prop :=
  ∀ (s : State) (tree : HTree) (root : Nat) (stream : List Byte), Inv s → s.pending = [] →
    HoldsShape s root tree.toShape → (leafSyms tree).Nodup → 256 ∈ leafSyms tree →
    (∀ sym ∈ leafSyms tree, sym ≤ 256 ∧ HoldsCode s sym (treeCode tree sym)) →
    (∀ b ∈ stream, b.toNat ∈ leafSyms tree) →
    (payload (treeCode tree) stream).length ≤ s.cfg.obufSize → stream.length ≤ s.cfg.obufSize →
    ∃ t, stepN (stream.length + 2) (issue (encSession stream) s) = .next t ∧
      ∃ u, stepN (t.enc.ocnt.toNat + 2)
          (issue (decSession root (eobufBytes t t.enc.ocnt.toNat)) t) = .next u ∧
        u.dec.state = .done ∧ u.enc.state = .done ∧
        dobufBytes u u.dec.ocnt.toNat = stream ∧ u.dec.ocnt.toNat = stream.length ∧ u.flags = s.flags

/-- 45_host_reference.md R179, and that the builder never fails (R185) and uses every symbol of the table once:
the leaves' weights add up to the stream's length and one. -/
def Obligations.BuiltTreeHoldsEveryWeight : Prop :=
  ∀ stream : List Byte, ∃ tree, build (scan stream) = some tree ∧
    (leafSyms tree).Perm ((scan stream).map Prod.fst) ∧
    ((leafSyms tree).map (symWeight stream)).sum = stream.length + 1

/-- 45_host_reference.md R180: no code of a built tree is the beginning of another symbol's code. -/
def Obligations.CodesArePrefixFree : Prop :=
  ∀ (stream : List Byte) (table : List (Nat × List Bool)), generate (build (scan stream)) = some table →
    ∀ p ∈ table, ∀ q ∈ table, p.1 ≠ q.1 → ¬ p.2 <+: q.2

/-- 45_host_reference.md R175: a tree of k leaves has 2k − 1 nodes, its codes have at most k − 1 bits (one bit for the
single leaf), so that a built tree fits 513 nodes and every code 256 bits. -/
def Obligations.CodeLengthAndTreeSizeBounds : Prop :=
  (∀ tree : HTree, tree.size = 2 * (leafSyms tree).length - 1 ∧
    ∀ table, generate (some tree) = some table → ∀ p ∈ table,
      1 ≤ p.2.length ∧ p.2.length ≤ max 1 ((leafSyms tree).length - 1)) ∧
  (∀ (stream : List Byte) (tree : HTree), build (scan stream) = some tree →
    tree.size ≤ 513 ∧ ∀ table, generate (some tree) = some table → ∀ p ∈ table, p.2.length ≤ 256)
end

