-- ==== Sys2Proof/Laws/Memory.lean ====
section
/-! SUPPORT. The laws of memory: a read after a write, canonical form, words, and where the windows' cells lie. -/

namespace Sys2Proof.Laws

open Sys2Proof.Machine

/-! ## Cells -/

theorem lookup_insertCell (a b : Nat) (v : Byte) (l : List Host.Cell) :
    lookupCell b (insertCell a v l) = if b = a then some v else lookupCell b l := by
  induction l with
  | nil => simp [insertCell, lookupCell, eq_comm]
  | cons c cs ih =>
    unfold insertCell
    split
    · simp [lookupCell, eq_comm]
    · split
      · rename_i h
        subst h
        by_cases hb : b = c.1 <;> simp [lookupCell, hb, eq_comm]
      · rename_i h
        simp only [lookupCell, ih]
        by_cases hc : c.1 = b
        · have : b ≠ a := by omega
          simp [hc, this]
        · simp [hc]

theorem lookup_eraseCell (a b : Nat) (l : List Host.Cell) :
    lookupCell b (eraseCell a l) = if b = a then none else lookupCell b l := by
  induction l with
  | nil => simp [eraseCell, lookupCell]
  | cons c cs ih =>
    by_cases hc : c.1 = a
    · by_cases hb : b = a
      · rw [eraseCell, if_pos hc, ih, if_pos hb]
        simp [hb]
      · have : a ≠ b := fun h => hb h.symm
        simp [eraseCell, lookupCell, hc, ih, hb, this]
    · by_cases hb : b = a
      · subst hb
        simp [eraseCell, lookupCell, hc, ih]
      · by_cases hcb : c.1 = b <;> simp [eraseCell, lookupCell, hc, hb, hcb, ih]

theorem mem_insertCell {a : Nat} {v : Byte} {l : List Host.Cell} {c : Host.Cell} (h : c ∈ insertCell a v l) :
    c = (a, v) ∨ c ∈ l := by
  induction l with
  | nil => simpa [insertCell] using h
  | cons d ds ih =>
    unfold insertCell at h
    split at h
    · simpa using h
    · split at h
      · rcases List.mem_cons.1 h with h | h
        · exact .inl h
        · exact .inr (List.mem_cons_of_mem _ h)
      · rcases List.mem_cons.1 h with h | h
        · exact .inr (h ▸ List.mem_cons_self)
        · exact (ih h).imp id (List.mem_cons_of_mem _)

theorem mem_eraseCell {a : Nat} {l : List Host.Cell} {c : Host.Cell} (h : c ∈ eraseCell a l) : c ∈ l ∧ c.1 ≠ a := by
  induction l with
  | nil => simp [eraseCell] at h
  | cons d ds ih =>
    unfold eraseCell at h
    split at h
    · exact ⟨List.mem_cons_of_mem _ (ih h).1, (ih h).2⟩
    · rcases List.mem_cons.1 h with h | h
      · subst h; exact ⟨List.mem_cons_self, by assumption⟩
      · exact ⟨List.mem_cons_of_mem _ (ih h).1, (ih h).2⟩

theorem insertCell_sorted (a : Nat) (v : Byte) {l : List Host.Cell} (h : l.Pairwise (fun c d => c.1 < d.1)) :
    (insertCell a v l).Pairwise (fun c d => c.1 < d.1) := by
  induction l with
  | nil => simp [insertCell]
  | cons c cs ih =>
    obtain ⟨hc, hcs⟩ := List.pairwise_cons.1 h
    unfold insertCell
    split
    · rename_i hlt
      refine List.pairwise_cons.2 ⟨fun d hd => ?_, h⟩
      rcases List.mem_cons.1 hd with hd | hd
      · exact hd ▸ hlt
      · exact Nat.lt_trans hlt (hc d hd)
    · split
      · rename_i heq
        exact List.pairwise_cons.2 ⟨fun d hd => by have := hc d hd; simp only; omega, hcs⟩
      · refine List.pairwise_cons.2 ⟨fun d hd => ?_, ih hcs⟩
        rcases mem_insertCell hd with hd | hd
        · subst hd; simp only; omega
        · exact hc d hd

theorem eraseCell_sorted (a : Nat) {l : List Host.Cell} (h : l.Pairwise (fun c d => c.1 < d.1)) :
    (eraseCell a l).Pairwise (fun c d => c.1 < d.1) := by
  induction l with
  | nil => simp [eraseCell]
  | cons c cs ih =>
    obtain ⟨hc, hcs⟩ := List.pairwise_cons.1 h
    unfold eraseCell
    split
    · exact ih hcs
    · exact List.pairwise_cons.2 ⟨fun d hd => hc d (mem_eraseCell hd).1, ih hcs⟩

/-! ## Bytes -/

/-- A read after a write: the byte written, and every other byte as before. -/
theorem read_write (m : Memory) (a b : Nat) (v : Byte) :
    (m.write a v).read b = if b = a then some v else m.read b := by
  by_cases h : Memory.unlisted a = some v
  · simp only [Memory.write, if_pos h, Memory.read, lookup_eraseCell]
    by_cases hb : b = a
    · subst hb; simpa using h
    · simp [hb]
  · simp only [Memory.write, if_neg h, Memory.read, lookup_insertCell]
    by_cases hb : b = a <;> simp [hb]

@[simp] theorem read_write_self (m : Memory) (a : Nat) (v : Byte) : (m.write a v).read a = some v := by
  simp [read_write]

theorem read_write_ne (m : Memory) {a b : Nat} (v : Byte) (h : b ≠ a) : (m.write a v).read b = m.read b := by
  simp [read_write, h]

/-- A write keeps the canonical form. -/
theorem write_wf {m : Memory} (a : Nat) (v : Byte) (h : m.wf) : (m.write a v).wf := by
  obtain ⟨hs, hu⟩ := h
  unfold Memory.write
  split
  · exact ⟨eraseCell_sorted a hs, fun c hc => hu c (mem_eraseCell hc).1⟩
  · rename_i hne
    refine ⟨insertCell_sorted a v hs, fun c hc => ?_⟩
    rcases mem_insertCell hc with hc | hc
    · subst hc; exact hne
    · exact hu c hc

/-- A write lists no byte but the one written. -/
theorem mem_write_cells {m : Memory} {a : Nat} {v : Byte} {c : Host.Cell} (h : c ∈ (m.write a v).cells) :
    c.1 = a ∨ c ∈ m.cells := by
  unfold Memory.write at h
  split at h
  · exact .inr (mem_eraseCell h).1
  · rcases mem_insertCell h with h | h
    · exact .inl (by rw [h])
    · exact .inr h

/-! ## Words -/

theorem read_writeWord (m : Memory) (a b : Nat) (v : Word) :
    (m.writeWord a v).read b =
      if b = a + 3 then some (v.extractLsb' 24 8) else
      if b = a + 2 then some (v.extractLsb' 16 8) else
      if b = a + 1 then some (v.extractLsb' 8 8) else
      if b = a then some (v.extractLsb' 0 8) else m.read b := by
  simp only [Memory.writeWord, read_write]

/-- A word's write leaves every byte outside its four alone. -/
theorem read_writeWord_outside (m : Memory) {a b : Nat} (v : Word) (h : ¬ (a ≤ b ∧ b < a + 4)) :
    (m.writeWord a v).read b = m.read b := by
  rw [read_writeWord, if_neg (by omega), if_neg (by omega), if_neg (by omega), if_neg (by omega)]

theorem writeWord_wf {m : Memory} (a : Nat) (v : Word) (h : m.wf) : (m.writeWord a v).wf :=
  write_wf _ _ (write_wf _ _ (write_wf _ _ (write_wf _ _ h)))

theorem mem_writeWord_cells {m : Memory} {a : Nat} {v : Word} {c : Host.Cell} (h : c ∈ (m.writeWord a v).cells) :
    (a ≤ c.1 ∧ c.1 < a + 4) ∨ c ∈ m.cells := by
  rcases mem_write_cells h with h | h
  · exact .inl (by omega)
  rcases mem_write_cells h with h | h
  · exact .inl (by omega)
  rcases mem_write_cells h with h | h
  · exact .inl (by omega)
  rcases mem_write_cells h with h | h
  · exact .inl (by omega)
  · exact .inr h

/-- The four bytes of a word make the word. -/
theorem bytes_append (v : Word) :
    v.extractLsb' 24 8 ++ v.extractLsb' 16 8 ++ v.extractLsb' 8 8 ++ v.extractLsb' 0 8 = v := by
  ext i hi
  simp only [BitVec.getElem_append, BitVec.getElem_extractLsb']
  split
  · simp [BitVec.getLsbD_eq_getElem, hi]
  · split
    · rw [show 8 + (i - 8) = i by omega, BitVec.getLsbD_eq_getElem hi]
    · split
      · rw [show 16 + (i - 8 - 8) = i by omega, BitVec.getLsbD_eq_getElem hi]
      · rw [show 24 + (i - 8 - 8 - 8) = i by omega, BitVec.getLsbD_eq_getElem hi]

theorem writtenWord_eq_some {m : Memory} {a : Nat} {w : Word} (h : writtenWord m a = some w) :
    ∃ b0 b1 b2 b3, m.read a = some b0 ∧ m.read (a + 1) = some b1 ∧ m.read (a + 2) = some b2 ∧
      m.read (a + 3) = some b3 ∧ w = b3 ++ b2 ++ b1 ++ b0 := by
  unfold writtenWord at h
  split at h
  · rename_i h3 h2 h1 h0
    exact ⟨_, _, _, _, h0, h1, h2, h3, (Option.some.inj h).symm⟩
  · cases h

/-- A written word is what any read of it finds, whatever an unwritten byte would be taken to hold. -/
theorem readWord_of_written {m : Memory} {a : Nat} {w : Word} (free : Nat → Byte) (h : writtenWord m a = some w) :
    m.readWord free a = w := by
  obtain ⟨b0, b1, b2, b3, h0, h1, h2, h3, rfl⟩ := writtenWord_eq_some h
  simp [Memory.readWord, h0, h1, h2, h3]

/-- A word read back after it is written. -/
theorem writtenWord_writeWord (m : Memory) (a : Nat) (v : Word) : writtenWord (m.writeWord a v) a = some v := by
  have h3 : (m.writeWord a v).read (a + 3) = some (v.extractLsb' 24 8) := by simp [read_writeWord]
  have h2 : (m.writeWord a v).read (a + 2) = some (v.extractLsb' 16 8) := by simp [read_writeWord]
  have h1 : (m.writeWord a v).read (a + 1) = some (v.extractLsb' 8 8) := by simp [read_writeWord]
  have h0 : (m.writeWord a v).read a = some (v.extractLsb' 0 8) := by simp [read_writeWord]
  simp only [writtenWord, h0, h1, h2, h3, bytes_append]

/-- A word of memory depends on its four bytes only. -/
theorem writtenWord_congr {m m' : Memory} {a : Nat} (h : ∀ b, a ≤ b → b < a + 4 → m'.read b = m.read b) :
    writtenWord m' a = writtenWord m a := by
  simp only [writtenWord, h a (by omega) (by omega), h (a + 1) (by omega) (by omega),
    h (a + 2) (by omega) (by omega), h (a + 3) (by omega) (by omega)]

theorem readWord_congr {m m' : Memory} {a : Nat} (free : Nat → Byte)
    (h : ∀ b, a ≤ b → b < a + 4 → m'.read b = m.read b) : m'.readWord free a = m.readWord free a := by
  simp only [Memory.readWord, h a (by omega) (by omega), h (a + 1) (by omega) (by omega),
    h (a + 2) (by omega) (by omega), h (a + 3) (by omega) (by omega)]

/-- A field of four joined bytes at a byte boundary is that byte. -/
theorem append_byte (b3 b2 b1 b0 : Byte) :
    (b3 ++ b2 ++ b1 ++ b0).extractLsb' 0 8 = b0 ∧ (b3 ++ b2 ++ b1 ++ b0).extractLsb' 8 8 = b1 ∧
    (b3 ++ b2 ++ b1 ++ b0).extractLsb' 16 8 = b2 ∧ (b3 ++ b2 ++ b1 ++ b0).extractLsb' 24 8 = b3 := by
  refine ⟨?_, ?_, ?_, ?_⟩ <;> (ext i hi; simp only [BitVec.getElem_extractLsb', BitVec.getLsbD_append])
  · simp [hi]
  · simp [show ¬ (8 + i < 8) by omega, hi]
  · simp [show ¬ (16 + i < 8) by omega, show ¬ (16 + i - 8 < 8) by omega, show 16 + i - 8 - 8 = i by omega, hi]
  · simp [show ¬ (24 + i < 8) by omega, show ¬ (24 + i - 8 < 8) by omega, show ¬ (24 + i - 8 - 8 < 8) by omega,
      show 24 + i - 8 - 8 - 8 = i by omega, hi]

/-- A byte of a word is what memory holds there. -/
theorem readWord_byte (free : Nat → Byte) (m : Memory) (a j : Nat) (hj : j < 4) :
    (m.readWord free a).extractLsb' (8 * j) 8 = (m.read (a + j)).getD (free (a + j)) := by
  unfold Memory.readWord
  obtain ⟨h0, h1, h2, h3⟩ := append_byte ((m.read (a + 3)).getD (free (a + 3))) ((m.read (a + 2)).getD (free (a + 2)))
    ((m.read (a + 1)).getD (free (a + 1))) ((m.read a).getD (free a))
  obtain rfl | rfl | rfl | rfl : j = 0 ∨ j = 1 ∨ j = 2 ∨ j = 3 := by omega
  · exact h0
  · exact h1
  · exact h2
  · exact h3

end Sys2Proof.Laws
end

