-- ==== Sys2Proof/Laws/State.lean ====
section
/-! SUPPORT. What each named update of the state does to each field, one lemma per field per update. -/

namespace Sys2Proof.Laws

open Sys2Proof.Machine

/-! ## respondOkay -/

@[simp] theorem respondOkay_cfg (s : State) : (respondOkay s).cfg = s.cfg := rfl
@[simp] theorem respondOkay_flags (s : State) : (respondOkay s).flags = s.flags := rfl
@[simp] theorem respondOkay_enc (s : State) : (respondOkay s).enc = s.enc := rfl
@[simp] theorem respondOkay_dec (s : State) : (respondOkay s).dec = s.dec := rfl
@[simp] theorem respondOkay_mem (s : State) : (respondOkay s).mem = s.mem := rfl
@[simp] theorem respondOkay_resp (s : State) : (respondOkay s).resp = some { status := .okay, data := none } := rfl
@[simp] theorem respondOkay_pending (s : State) : (respondOkay s).pending = s.pending := rfl
@[simp] theorem respondOkay_hostCtr (s : State) : (respondOkay s).hostCtr = s.hostCtr := rfl
@[simp] theorem respondOkay_engineCtr (s : State) : (respondOkay s).engineCtr = s.engineCtr := rfl

/-! ## respondData -/

@[simp] theorem respondData_cfg (v : Word) (s : State) : (respondData v s).cfg = s.cfg := rfl
@[simp] theorem respondData_flags (v : Word) (s : State) : (respondData v s).flags = s.flags := rfl
@[simp] theorem respondData_enc (v : Word) (s : State) : (respondData v s).enc = s.enc := rfl
@[simp] theorem respondData_dec (v : Word) (s : State) : (respondData v s).dec = s.dec := rfl
@[simp] theorem respondData_mem (v : Word) (s : State) : (respondData v s).mem = s.mem := rfl
@[simp] theorem respondData_resp (v : Word) (s : State) : (respondData v s).resp = some { status := .okay, data := some v } := rfl
@[simp] theorem respondData_pending (v : Word) (s : State) : (respondData v s).pending = s.pending := rfl
@[simp] theorem respondData_hostCtr (v : Word) (s : State) : (respondData v s).hostCtr = s.hostCtr := rfl
@[simp] theorem respondData_engineCtr (v : Word) (s : State) : (respondData v s).engineCtr = s.engineCtr := rfl

/-! ## respondReadError -/

@[simp] theorem respondReadError_cfg (s : State) : (respondReadError s).cfg = s.cfg := rfl
@[simp] theorem respondReadError_flags (s : State) : (respondReadError s).flags = s.flags := rfl
@[simp] theorem respondReadError_enc (s : State) : (respondReadError s).enc = s.enc := rfl
@[simp] theorem respondReadError_dec (s : State) : (respondReadError s).dec = s.dec := rfl
@[simp] theorem respondReadError_mem (s : State) : (respondReadError s).mem = s.mem := rfl
@[simp] theorem respondReadError_resp (s : State) : (respondReadError s).resp = some { status := .error, data := some 0#32 } := rfl
@[simp] theorem respondReadError_pending (s : State) : (respondReadError s).pending = s.pending := rfl
@[simp] theorem respondReadError_hostCtr (s : State) : (respondReadError s).hostCtr = s.hostCtr := rfl
@[simp] theorem respondReadError_engineCtr (s : State) : (respondReadError s).engineCtr = s.engineCtr := rfl

/-! ## respondWriteError -/

@[simp] theorem respondWriteError_cfg (s : State) : (respondWriteError s).cfg = s.cfg := rfl
@[simp] theorem respondWriteError_flags (s : State) : (respondWriteError s).flags = s.flags := rfl
@[simp] theorem respondWriteError_enc (s : State) : (respondWriteError s).enc = s.enc := rfl
@[simp] theorem respondWriteError_dec (s : State) : (respondWriteError s).dec = s.dec := rfl
@[simp] theorem respondWriteError_mem (s : State) : (respondWriteError s).mem = s.mem := rfl
@[simp] theorem respondWriteError_resp (s : State) : (respondWriteError s).resp = some { status := .error, data := none } := rfl
@[simp] theorem respondWriteError_pending (s : State) : (respondWriteError s).pending = s.pending := rfl
@[simp] theorem respondWriteError_hostCtr (s : State) : (respondWriteError s).hostCtr = s.hostCtr := rfl
@[simp] theorem respondWriteError_engineCtr (s : State) : (respondWriteError s).engineCtr = s.engineCtr := rfl

/-! ## setFlag -/

@[simp] theorem setFlag_cfg (f : Flag) (s : State) : (setFlag f s).cfg = s.cfg := rfl
@[simp] theorem setFlag_flags (f : Flag) (s : State) : (setFlag f s).flags = withFlag f s.flags := rfl
@[simp] theorem setFlag_enc (f : Flag) (s : State) : (setFlag f s).enc = s.enc := rfl
@[simp] theorem setFlag_dec (f : Flag) (s : State) : (setFlag f s).dec = s.dec := rfl
@[simp] theorem setFlag_mem (f : Flag) (s : State) : (setFlag f s).mem = s.mem := rfl
@[simp] theorem setFlag_resp (f : Flag) (s : State) : (setFlag f s).resp = s.resp := rfl
@[simp] theorem setFlag_pending (f : Flag) (s : State) : (setFlag f s).pending = s.pending := rfl
@[simp] theorem setFlag_hostCtr (f : Flag) (s : State) : (setFlag f s).hostCtr = s.hostCtr := rfl
@[simp] theorem setFlag_engineCtr (f : Flag) (s : State) : (setFlag f s).engineCtr = s.engineCtr := rfl

/-! ## clearFlags -/

@[simp] theorem clearFlags_cfg (v : Word) (s : State) : (clearFlags v s).cfg = s.cfg := rfl
@[simp] theorem clearFlags_flags (v : Word) (s : State) : (clearFlags v s).flags = flagsAfterWrite v s.flags := rfl
@[simp] theorem clearFlags_enc (v : Word) (s : State) : (clearFlags v s).enc = s.enc := rfl
@[simp] theorem clearFlags_dec (v : Word) (s : State) : (clearFlags v s).dec = s.dec := rfl
@[simp] theorem clearFlags_mem (v : Word) (s : State) : (clearFlags v s).mem = s.mem := rfl
@[simp] theorem clearFlags_resp (v : Word) (s : State) : (clearFlags v s).resp = s.resp := rfl
@[simp] theorem clearFlags_pending (v : Word) (s : State) : (clearFlags v s).pending = s.pending := rfl
@[simp] theorem clearFlags_hostCtr (v : Word) (s : State) : (clearFlags v s).hostCtr = s.hostCtr := rfl
@[simp] theorem clearFlags_engineCtr (v : Word) (s : State) : (clearFlags v s).engineCtr = s.engineCtr := rfl

/-! ## raiseEnc -/

@[simp] theorem raiseEnc_cfg (c : EngineErr) (s : State) : (raiseEngineError .enc c s).cfg = s.cfg := rfl
@[simp] theorem raiseEnc_flags (c : EngineErr) (s : State) : (raiseEngineError .enc c s).flags = s.flags := rfl
@[simp] theorem raiseEnc_enc (c : EngineErr) (s : State) : (raiseEngineError .enc c s).enc = { s.enc with state := .error, err := c } := rfl
@[simp] theorem raiseEnc_dec (c : EngineErr) (s : State) : (raiseEngineError .enc c s).dec = s.dec := rfl
@[simp] theorem raiseEnc_mem (c : EngineErr) (s : State) : (raiseEngineError .enc c s).mem = s.mem := rfl
@[simp] theorem raiseEnc_resp (c : EngineErr) (s : State) : (raiseEngineError .enc c s).resp = s.resp := rfl
@[simp] theorem raiseEnc_pending (c : EngineErr) (s : State) : (raiseEngineError .enc c s).pending = s.pending := rfl
@[simp] theorem raiseEnc_hostCtr (c : EngineErr) (s : State) : (raiseEngineError .enc c s).hostCtr = s.hostCtr := rfl
@[simp] theorem raiseEnc_engineCtr (c : EngineErr) (s : State) : (raiseEngineError .enc c s).engineCtr = s.engineCtr := rfl

/-! ## raiseDec -/

@[simp] theorem raiseDec_cfg (c : EngineErr) (s : State) : (raiseEngineError .dec c s).cfg = s.cfg := rfl
@[simp] theorem raiseDec_flags (c : EngineErr) (s : State) : (raiseEngineError .dec c s).flags = s.flags := rfl
@[simp] theorem raiseDec_enc (c : EngineErr) (s : State) : (raiseEngineError .dec c s).enc = s.enc := rfl
@[simp] theorem raiseDec_dec (c : EngineErr) (s : State) : (raiseEngineError .dec c s).dec = { s.dec with state := .error, err := c } := rfl
@[simp] theorem raiseDec_mem (c : EngineErr) (s : State) : (raiseEngineError .dec c s).mem = s.mem := rfl
@[simp] theorem raiseDec_resp (c : EngineErr) (s : State) : (raiseEngineError .dec c s).resp = s.resp := rfl
@[simp] theorem raiseDec_pending (c : EngineErr) (s : State) : (raiseEngineError .dec c s).pending = s.pending := rfl
@[simp] theorem raiseDec_hostCtr (c : EngineErr) (s : State) : (raiseEngineError .dec c s).hostCtr = s.hostCtr := rfl
@[simp] theorem raiseDec_engineCtr (c : EngineErr) (s : State) : (raiseEngineError .dec c s).engineCtr = s.engineCtr := rfl

/-! ## openEncSession -/

@[simp] theorem openEncSession_cfg (s : State) : (openEncSession s).cfg = s.cfg := rfl
@[simp] theorem openEncSession_flags (s : State) : (openEncSession s).flags = s.flags := rfl
@[simp] theorem openEncSession_enc (s : State) : (openEncSession s).enc = { state := .active, err := .none, acc := 0#8, nb := 0#3, ocnt := 0#17 } := rfl
@[simp] theorem openEncSession_dec (s : State) : (openEncSession s).dec = s.dec := rfl
@[simp] theorem openEncSession_mem (s : State) : (openEncSession s).mem = s.mem := rfl
@[simp] theorem openEncSession_resp (s : State) : (openEncSession s).resp = s.resp := rfl
@[simp] theorem openEncSession_pending (s : State) : (openEncSession s).pending = s.pending := rfl
@[simp] theorem openEncSession_hostCtr (s : State) : (openEncSession s).hostCtr = s.hostCtr := rfl
@[simp] theorem openEncSession_engineCtr (s : State) : (openEncSession s).engineCtr = s.engineCtr := rfl

/-! ## openDecSession -/

@[simp] theorem openDecSession_cfg (r : BitVec 10) (s : State) : (openDecSession r s).cfg = s.cfg := rfl
@[simp] theorem openDecSession_flags (r : BitVec 10) (s : State) : (openDecSession r s).flags = s.flags := rfl
@[simp] theorem openDecSession_enc (r : BitVec 10) (s : State) : (openDecSession r s).enc = s.enc := rfl
@[simp] theorem openDecSession_dec (r : BitVec 10) (s : State) : (openDecSession r s).dec = { state := .run, err := .none, root := r, cur := r, ocnt := 0#17 } := rfl
@[simp] theorem openDecSession_mem (r : BitVec 10) (s : State) : (openDecSession r s).mem = s.mem := rfl
@[simp] theorem openDecSession_resp (r : BitVec 10) (s : State) : (openDecSession r s).resp = s.resp := rfl
@[simp] theorem openDecSession_pending (r : BitVec 10) (s : State) : (openDecSession r s).pending = s.pending := rfl
@[simp] theorem openDecSession_hostCtr (r : BitVec 10) (s : State) : (openDecSession r s).hostCtr = s.hostCtr := rfl
@[simp] theorem openDecSession_engineCtr (r : BitVec 10) (s : State) : (openDecSession r s).engineCtr = s.engineCtr := rfl

/-! ## takeReset -/

@[simp] theorem takeReset_cfg (s : State) : (takeReset s).cfg = s.cfg := rfl
@[simp] theorem takeReset_flags (s : State) : (takeReset s).flags = 0#4 := rfl
@[simp] theorem takeReset_enc (s : State) : (takeReset s).enc = EncEngine.reset := rfl
@[simp] theorem takeReset_dec (s : State) : (takeReset s).dec = DecEngine.reset := rfl
@[simp] theorem takeReset_mem (s : State) : (takeReset s).mem = { cells := [] } := rfl
@[simp] theorem takeReset_resp (s : State) : (takeReset s).resp = none := rfl
@[simp] theorem takeReset_pending (s : State) : (takeReset s).pending = s.pending := rfl
@[simp] theorem takeReset_hostCtr (s : State) : (takeReset s).hostCtr = s.hostCtr + 1 := rfl
@[simp] theorem takeReset_engineCtr (s : State) : (takeReset s).engineCtr = s.engineCtr + 1 := rfl

/-! ## emitByte -/

@[simp] theorem emitByte_cfg (b : Byte) (s : State) : (emitByte b s).cfg = s.cfg := rfl
@[simp] theorem emitByte_flags (b : Byte) (s : State) : (emitByte b s).flags = s.flags := rfl
@[simp] theorem emitByte_enc (b : Byte) (s : State) : (emitByte b s).enc = { s.enc with ocnt := s.enc.ocnt + 1#17 } := rfl
@[simp] theorem emitByte_dec (b : Byte) (s : State) : (emitByte b s).dec = s.dec := rfl
@[simp] theorem emitByte_mem (b : Byte) (s : State) : (emitByte b s).mem = s.mem.write (eobufAddr s.enc.ocnt.toNat) b := rfl
@[simp] theorem emitByte_resp (b : Byte) (s : State) : (emitByte b s).resp = s.resp := rfl
@[simp] theorem emitByte_pending (b : Byte) (s : State) : (emitByte b s).pending = s.pending := rfl
@[simp] theorem emitByte_hostCtr (b : Byte) (s : State) : (emitByte b s).hostCtr = s.hostCtr := rfl
@[simp] theorem emitByte_engineCtr (b : Byte) (s : State) : (emitByte b s).engineCtr = s.engineCtr := rfl

/-! ## countFree: the counters alone -/

@[simp] theorem countFree_cfg (i : Instr) (s t : State) : (countFree i s t).cfg = t.cfg := rfl
@[simp] theorem countFree_flags (i : Instr) (s t : State) : (countFree i s t).flags = t.flags := rfl
@[simp] theorem countFree_enc (i : Instr) (s t : State) : (countFree i s t).enc = t.enc := rfl
@[simp] theorem countFree_dec (i : Instr) (s t : State) : (countFree i s t).dec = t.dec := rfl
@[simp] theorem countFree_mem (i : Instr) (s t : State) : (countFree i s t).mem = t.mem := rfl
@[simp] theorem countFree_resp (i : Instr) (s t : State) : (countFree i s t).resp = t.resp := rfl
@[simp] theorem countFree_pending (i : Instr) (s t : State) : (countFree i s t).pending = t.pending := rfl

/-- An instruction that writes no RAM cell and in which no engine reads one leaves the counters alone. -/
theorem countFree_idle {i : Instr} {s t : State} (hs : storesTable i s = false) (hr : readsTables i = false)
    (he : t.enc.ocnt = s.enc.ocnt) (hd : t.dec.ocnt = s.dec.ocnt) : countFree i s t = t := by
  unfold countFree ramWritten
  rw [hs, hr, he, hd]
  simp

@[simp] theorem countOut_next (i : Instr) (s t : State) : countOut i s (.next t) = .next (countFree i s t) := rfl

/-! ## The commit of an atomic command -/

@[simp] theorem commit_ok (e : Engine) (s t : State) : commit e s (.ok t) = t := rfl

@[simp] theorem commit_error (e : Engine) (s : State) (c : EngineErr) :
    commit e s (.error c) = raiseEngineError e c s := rfl

/-- Everything a commit can answer: the copy, or the state before with the error's effects. -/
theorem commit_cases (e : Engine) (s : State) (r : Except EngineErr State) :
    (∃ t, r = .ok t ∧ commit e s r = t) ∨ (∃ c, r = .error c ∧ commit e s r = raiseEngineError e c s) := by
  cases r with
  | ok t => exact .inl ⟨t, rfl, rfl⟩
  | error c => exact .inr ⟨c, rfl, rfl⟩

end Sys2Proof.Laws
end

