-- ==== Sys2Proof/Laws/Decoder.lean ====
section
/-! SUPPORT. What the decoder's walk does (43_decoder.md R150, R151): what it leaves, the errors it raises, and that it
follows the shape TREE holds. -/

namespace Sys2Proof.Laws

open Sys2Proof.Machine

theorem dec_ocnt_succ {n : BitVec 17} {m : Nat} (h : n.toNat < m) (hm : m ≤ 65536) :
    (n + 1#17).toNat = n.toNat + 1 := by
  rw [BitVec.toNat_add, BitVec.toNat_ofNat]; omega

/-- The cursor at the root, or at a word that is written and no leaf, or unwritten. -/
def CursorOk (s : State) : Prop :=
  s.dec.cur = s.dec.root ∨ ∀ n, writtenWord s.mem (treeAddr s.dec.cur.toNat) = some n → nodeIsLeaf n = false

/-- What the walk asks of a state: bounds of the invariant. -/
structure WalkReady (s : State) : Prop where
  nodes : s.cfg.treeNodes ≤ 1024
  obuf : s.cfg.obufSize ≤ 65536
  count : s.dec.ocnt.toNat ≤ s.cfg.obufSize
  root : s.dec.root.toNat < s.cfg.treeNodes
  cur : s.dec.cur.toNat < s.cfg.treeNodes

/-- What `n` bits of the walk can do where they raise nothing: only the decoder and DOBUF from OCNT on change. -/
structure Walked (s t : State) (n : Nat) : Prop where
  rest : t = { s with dec := t.dec, mem := t.mem }
  root : t.dec.root = s.dec.root
  err : t.dec.err = s.dec.err
  state : t.dec.state = s.dec.state ∨ t.dec.state = .done
  least : s.dec.ocnt.toNat ≤ t.dec.ocnt.toNat
  most : t.dec.ocnt.toNat ≤ s.dec.ocnt.toNat + n
  ready : WalkReady t
  same : MemSameOutside (dobufAddr s.dec.ocnt.toNat) (t.dec.ocnt.toNat - s.dec.ocnt.toNat) s t
  written : ∀ a, (s.mem.read a).isSome = true → (t.mem.read a).isSome = true
  emitted : ∀ j, s.dec.ocnt.toNat ≤ j → j < t.dec.ocnt.toNat → (t.mem.read (dobufAddr j)).isSome = true
  wf : s.mem.wf → t.mem.wf
  cells : ∀ c ∈ t.mem.cells, c ∈ s.mem.cells ∨
    (dobufAddr s.dec.ocnt.toNat ≤ c.1 ∧ c.1 < dobufAddr t.dec.ocnt.toNat)
  cursor : CursorOk s → CursorOk t

theorem Walked.refl (s : State) (h : WalkReady s) : Walked s s 0 where
  rest := rfl
  root := rfl
  err := rfl
  state := .inl rfl
  least := Nat.le_refl _
  most := Nat.le_refl _
  ready := h
  same := fun _ _ => rfl
  written := fun _ h => h
  emitted := fun j h1 h2 => by omega
  wf := id
  cells := fun c h => .inl h
  cursor := id

theorem Walked.trans {s t u : State} {m n : Nat} (h : Walked s t m) (h' : Walked t u n) : Walked s u (m + n) where
  rest := by rw [h'.rest, h.rest]
  root := h'.root.trans h.root
  err := h'.err.trans h.err
  state := by
    rcases h'.state with e | e
    · rcases h.state with e' | e'
      · exact .inl (e.trans e')
      · exact .inr (e.trans e')
    · exact .inr e
  least := Nat.le_trans h.least h'.least
  most := by have := h.most; have := h'.most; omega
  ready := h'.ready
  same := by
    intro a ha
    have e1 := h.least
    have e2 := h'.least
    rw [h'.same a, h.same a] <;> unfold dobufAddr at * <;> omega
  written := fun a ha => h'.written a (h.written a ha)
  emitted := by
    intro j h1 h2
    by_cases hj : j < t.dec.ocnt.toNat
    · exact h'.written _ (h.emitted j h1 hj)
    · exact h'.emitted j (by omega) h2
  wf := fun hm => h'.wf (h.wf hm)
  cells := by
    intro c hc
    have e1 := h.least
    have e2 := h'.least
    rcases h'.cells c hc with hc | hc
    · rcases h.cells c hc with hc | hc
      · exact .inl hc
      · right; unfold dobufAddr at *; omega
    · right; unfold dobufAddr at *; omega
  cursor := fun hs => h'.cursor (h.cursor hs)

/-- Everything `hit_leaf` can answer. -/
theorem hitLeaf_cases (n : Word) (s : State) :
    (256 < (nodeSym n).toNat ∧ hitLeaf n s = .error .treeSym) ∨
    ((nodeSym n).toNat = 256 ∧
      hitLeaf n s = .ok (.stop, { s with dec := { s.dec with state := .done, cur := s.dec.root } })) ∨
    ((nodeSym n).toNat < 256 ∧ s.dec.ocnt.toNat = s.cfg.obufSize ∧ hitLeaf n s = .error .overflow) ∨
    ((nodeSym n).toNat < 256 ∧ s.dec.ocnt.toNat ≠ s.cfg.obufSize ∧
      hitLeaf n s = .ok (.cont, { s with
        mem := s.mem.write (dobufAddr s.dec.ocnt.toNat) ((nodeSym n).setWidth 8)
        dec := { s.dec with ocnt := s.dec.ocnt + 1#17, cur := s.dec.root } })) := by
  unfold hitLeaf
  by_cases h1 : 256 < (nodeSym n).toNat
  · exact .inl ⟨h1, if_pos h1⟩
  · by_cases h2 : (nodeSym n).toNat = 256
    · exact .inr (.inl ⟨h2, by rw [if_neg h1, if_pos h2]⟩)
    · have h3 : (nodeSym n).toNat < 256 := by omega
      by_cases h4 : s.dec.ocnt.toNat = s.cfg.obufSize
      · exact .inr (.inr (.inl ⟨h3, h4, by rw [if_neg h1, if_neg h2, if_pos h4]⟩))
      · exact .inr (.inr (.inr ⟨h3, h4, by rw [if_neg h1, if_neg h2, if_neg h4]⟩))

/-- Everything `walk_bit` can answer: a leaf hit at the cursor or one link on, TREE_RANGE, or a move to an internal
node. -/
theorem walkBit_cases (k : Nat) (bit : Bool) (s : State) :
    (nodeIsLeaf (treeWord s (2 * k) s.dec.cur.toNat) = true ∧
      walkBit k bit s = hitLeaf (treeWord s (2 * k) s.dec.cur.toNat) s) ∨
    (nodeIsLeaf (treeWord s (2 * k) s.dec.cur.toNat) = false ∧
      ∃ nxt, nxt = nodeChild (treeWord s (2 * k) s.dec.cur.toNat) bit ∧
        ((s.cfg.treeNodes ≤ nxt.toNat ∧ walkBit k bit s = .error .treeRange) ∨
         (nxt.toNat < s.cfg.treeNodes ∧ nodeIsLeaf (treeWord s (2 * k + 1) nxt.toNat) = true ∧
           walkBit k bit s = hitLeaf (treeWord s (2 * k + 1) nxt.toNat) s) ∨
         (nxt.toNat < s.cfg.treeNodes ∧ nodeIsLeaf (treeWord s (2 * k + 1) nxt.toNat) = false ∧
           walkBit k bit s = .ok (.cont, { s with dec := { s.dec with cur := nxt } })))) := by
  unfold walkBit
  by_cases h1 : nodeIsLeaf (treeWord s (2 * k) s.dec.cur.toNat) = true
  · exact .inl ⟨h1, by simp only [h1, if_true]⟩
  · have h1 : nodeIsLeaf (treeWord s (2 * k) s.dec.cur.toNat) = false := by simpa using h1
    refine .inr ⟨h1, _, rfl, ?_⟩
    simp only [h1, Bool.false_eq_true, if_false]
    by_cases h2 : s.cfg.treeNodes ≤ (nodeChild (treeWord s (2 * k) s.dec.cur.toNat) bit).toNat
    · exact .inl ⟨h2, by rw [if_pos h2]⟩
    · rw [if_neg h2]
      by_cases h3 : nodeIsLeaf (treeWord s (2 * k + 1) (nodeChild (treeWord s (2 * k) s.dec.cur.toNat) bit).toNat) = true
      · exact .inr (.inl ⟨by omega, h3, by rw [if_pos h3]⟩)
      · exact .inr (.inr ⟨by omega, by simpa using h3, by rw [if_neg h3]⟩)

theorem treeAddr_lt {s : State} (h : WalkReady s) {i : Nat} (hi : i < s.cfg.treeNodes) : treeAddr i + 4 ≤ 0x02000 := by
  have := h.nodes; unfold treeAddr; omega

theorem walked_hit {n : Word} {s t : State} {e : Walk} (hs : WalkReady s) (h : hitLeaf n s = .ok (e, t)) :
    Walked s t 1 ∧ (e = .stop → t.dec.state = .done) ∧ (e = .cont → t.dec.state = s.dec.state) := by
  rcases hitLeaf_cases n s with ⟨_, e'⟩ | ⟨_, e'⟩ | ⟨_, _, e'⟩ | ⟨_, hne, e'⟩ <;> rw [e'] at h
  · cases h
  · obtain ⟨rfl, rfl⟩ := Prod.mk.inj (Except.ok.inj h)
    refine ⟨⟨rfl, rfl, rfl, .inr rfl, Nat.le_refl _, Nat.le_succ _, ⟨hs.nodes, hs.obuf, hs.count, hs.root, hs.root⟩,
      fun _ _ => rfl, fun _ h => h, fun j h1 h2 => ?_, id, fun c h => .inl h, fun _ => .inl rfl⟩, fun _ => rfl,
      nofun⟩
    simp only at h2; omega
  · cases h
  · obtain ⟨rfl, rfl⟩ := Prod.mk.inj (Except.ok.inj h)
    have hlt : s.dec.ocnt.toNat < s.cfg.obufSize := Nat.lt_of_le_of_ne hs.count hne
    have ho := dec_ocnt_succ hlt hs.obuf
    refine ⟨⟨rfl, rfl, rfl, .inl rfl, ?_, ?_, ⟨hs.nodes, hs.obuf, ?_, hs.root, hs.root⟩, ?_, ?_, ?_, ?_, ?_,
      fun _ => .inl rfl⟩, nofun, fun _ => rfl⟩
    · simp only [ho]; omega
    · simp only [ho]; omega
    · simp only [ho]; omega
    · intro a ha
      simp only [ho] at ha
      exact read_write_ne _ _ (by omega)
    · intro a ha
      simp only [read_write]; split <;> simp [ha]
    · intro j h1 h2
      simp only [ho] at h2
      rw [show j = s.dec.ocnt.toNat by omega]; simp
    · exact fun h => write_wf _ _ h
    · intro c hc
      rcases mem_write_cells hc with h | h
      · right; simp only [ho]; unfold dobufAddr at *; omega
      · exact .inl h

theorem walked_bit {k : Nat} {bit : Bool} {s t : State} {e : Walk} (hs : WalkReady s)
    (h : walkBit k bit s = .ok (e, t)) :
    Walked s t 1 ∧ (e = .stop → t.dec.state = .done) ∧ (e = .cont → t.dec.state = s.dec.state) := by
  rcases walkBit_cases k bit s with ⟨_, e'⟩ | ⟨_, nxt, _, ⟨_, e'⟩ | ⟨_, _, e'⟩ | ⟨hlt, hleaf, e'⟩⟩ <;> rw [e'] at h
  · exact walked_hit hs h
  · cases h
  · exact walked_hit hs h
  · obtain ⟨rfl, rfl⟩ := Prod.mk.inj (Except.ok.inj h)
    refine ⟨⟨rfl, rfl, rfl, .inl rfl, Nat.le_refl _, Nat.le_succ _, ⟨hs.nodes, hs.obuf, hs.count, hs.root, hlt⟩,
      fun _ _ => rfl, fun _ h => h, fun j h1 h2 => ?_, id, fun c h => .inl h, fun _ => .inr ?_⟩, nofun,
      fun _ => rfl⟩
    · simp only at h2; omega
    · intro n hn
      have : treeWord s (2 * k + 1) nxt.toNat = n := readWord_of_written _ hn
      rw [← this]; exact hleaf

/-- What the walk of some bits can do where it raises nothing. -/
theorem walked_bits {k : Nat} {bits : List Bool} {s t : State} (hs : WalkReady s) (h : walkBits k bits s = .ok t) :
    Walked s t bits.length := by
  induction bits generalizing k s with
  | nil => obtain rfl := Except.ok.inj h; exact Walked.refl s hs
  | cons b bs ih =>
    simp only [walkBits] at h
    split at h
    · cases h
    · rename_i u hu
      obtain rfl := Except.ok.inj h
      have := (walked_bit hs hu).1
      exact { this with most := by have := this.most; simp only [List.length_cons]; omega }
    · rename_i u hu
      have h1 := (walked_bit hs hu).1
      have := h1.trans (ih h1.ready h)
      rwa [Nat.add_comm 1, ← List.length_cons (a := b)] at this

/-- The errors the walk raises (60_exceptions.md R200). -/
theorem walkBits_error {k : Nat} {bits : List Bool} {s : State} {c : EngineErr} (h : walkBits k bits s = .error c) :
    c = .treeRange ∨ c = .treeSym ∨ c = .overflow := by
  have hit : ∀ n (s : State), hitLeaf n s = .error c → c = .treeRange ∨ c = .treeSym ∨ c = .overflow := by
    intro n s h
    rcases hitLeaf_cases n s with ⟨_, e⟩ | ⟨_, e⟩ | ⟨_, _, e⟩ | ⟨_, _, e⟩ <;> rw [e] at h <;> cases h
    · exact .inr (.inl rfl)
    · exact .inr (.inr rfl)
  induction bits generalizing k s with
  | nil => cases h
  | cons b bs ih =>
    simp only [walkBits] at h
    split at h
    · rename_i c' hc'
      obtain rfl := Except.error.inj h
      rcases walkBit_cases k b s with ⟨_, e⟩ | ⟨_, nxt, _, ⟨_, e⟩ | ⟨_, _, e⟩ | ⟨_, _, e⟩⟩ <;> rw [e] at hc'
      · exact hit _ _ hc'
      · cases hc'; exact .inl rfl
      · exact hit _ _ hc'
      · cases hc'
    · cases h
    · exact ih h

/-! ## What the walk leaves, whatever the state -/

/-- What one bit or more of the walk can change: CUR, OCNT and STATE of the decoder, and memory. -/
structure WalkKeeps (s t : State) : Prop where
  rest : t = { s with dec := t.dec, mem := t.mem }
  err : t.dec.err = s.dec.err
  root : t.dec.root = s.dec.root
  state : t.dec.state = s.dec.state ∨ t.dec.state = .done

theorem hitLeaf_keeps {n : Word} {s t : State} {e : Walk} (h : hitLeaf n s = .ok (e, t)) : WalkKeeps s t := by
  rcases hitLeaf_cases n s with ⟨_, e'⟩ | ⟨_, e'⟩ | ⟨_, _, e'⟩ | ⟨_, _, e'⟩ <;> rw [e'] at h
  · cases h
  · obtain ⟨rfl, rfl⟩ := Prod.mk.inj (Except.ok.inj h)
    exact ⟨rfl, rfl, rfl, .inr rfl⟩
  · cases h
  · obtain ⟨rfl, rfl⟩ := Prod.mk.inj (Except.ok.inj h)
    exact ⟨rfl, rfl, rfl, .inl rfl⟩

theorem walkBit_keeps {k : Nat} {bit : Bool} {s t : State} {e : Walk} (h : walkBit k bit s = .ok (e, t)) :
    WalkKeeps s t := by
  rcases walkBit_cases k bit s with ⟨_, e'⟩ | ⟨_, nxt, _, ⟨_, e'⟩ | ⟨_, _, e'⟩ | ⟨_, _, e'⟩⟩ <;> rw [e'] at h
  · exact hitLeaf_keeps h
  · cases h
  · exact hitLeaf_keeps h
  · obtain ⟨rfl, rfl⟩ := Prod.mk.inj (Except.ok.inj h)
    exact ⟨rfl, rfl, rfl, .inl rfl⟩

theorem walkBits_keeps {k : Nat} {bits : List Bool} {s t : State} (h : walkBits k bits s = .ok t) : WalkKeeps s t := by
  induction bits generalizing k s with
  | nil =>
    obtain rfl := Except.ok.inj h
    exact ⟨rfl, rfl, rfl, .inl rfl⟩
  | cons b bs ih =>
    simp only [walkBits] at h
    split at h
    · cases h
    · rename_i u hu
      obtain rfl := Except.ok.inj h
      exact walkBit_keeps hu
    · rename_i u hu
      have h1 := walkBit_keeps hu
      have h2 := ih h
      refine ⟨by rw [h2.rest, h1.rest], h2.err.trans h1.err, h2.root.trans h1.root, ?_⟩
      rcases h2.state with e | e
      · rw [e]; exact h1.state
      · exact .inr e

/-! ## Shapes -/

/-- A shape depends on TREE's bytes and the parameters only. -/
theorem HoldsShape_congr {s t : State} (hc : t.cfg = s.cfg)
    (hm : ∀ i, i < s.cfg.treeNodes → writtenWord t.mem (treeAddr i) = writtenWord s.mem (treeAddr i)) {i : Nat}
    {x : Shape} (h : HoldsShape s i x) : HoldsShape t i x := by
  induction x generalizing i with
  | leaf sym =>
    obtain ⟨hi, n, hn, h⟩ := h
    exact ⟨by rw [hc]; exact hi, n, (hm i hi).trans hn, h⟩
  | node a b iha ihb =>
    obtain ⟨hi, n, hn, hl, ha, hb⟩ := h
    exact ⟨by rw [hc]; exact hi, n, (hm i hi).trans hn, hl, iha ha, ihb hb⟩
  | outside => show t.cfg.treeNodes ≤ i; rw [hc]; exact h
  | beyond => trivial

/-- The walk writes DOBUF only, so that a shape stays where it is. -/
theorem HoldsShape_same {s t : State} (hs : WalkReady s) {lo n : Nat} (hm : MemSameOutside lo n s t)
    (hc : t.cfg = s.cfg) (hlo : dobufAddr 0 ≤ lo) {i : Nat} {x : Shape} (h : HoldsShape s i x) : HoldsShape t i x :=
  HoldsShape_congr hc (fun j hj => writtenWord_congr (fun b h1 h2 => hm b (by
    have := treeAddr_lt hs hj
    unfold dobufAddr treeAddr at *; omega))) h

/-- The links depend on TREE's words only. -/
theorem followLinks_congr {s t : State}
    (hm : ∀ i : BitVec 10, writtenWord t.mem (treeAddr i.toNat) = writtenWord s.mem (treeAddr i.toNat))
    (i : BitVec 10) (path : List Bool) : followLinks t i path = followLinks s i path := by
  induction path generalizing i with
  | nil => rfl
  | cons bit rest ih => simp only [followLinks, hm, ih]

/-- A write to DOBUF leaves the links as they are. -/
theorem followLinks_dobuf (s : State) (d : DecEngine) (j : Nat) (b : Byte) (i : BitVec 10) (path : List Bool) :
    followLinks { s with mem := s.mem.write (dobufAddr j) b, dec := d } i path = followLinks s i path :=
  followLinks_congr (fun i => writtenWord_congr fun a h1 h2 => by
    have := i.isLt
    exact read_write_ne _ _ (by unfold dobufAddr treeAddr at *; omega)) i path

/-- What the walk of a shape says of the walk in memory. -/
def WalkFollows (s : State) (out : List Byte) (e : WalkEnd) (r : Except EngineErr State) : Prop :=
  match e with
  | .failed c => r = .error c
  | .stopped => ∃ t, r = .ok t ∧
      (∀ k (h : k < out.length), t.mem.read (dobufAddr (s.dec.ocnt.toNat + k)) = some out[k]) ∧
      MemSameOutside (dobufAddr s.dec.ocnt.toNat) out.length s t ∧
      t = { s with
        dec := { s.dec with
          state := .done, cur := s.dec.root, ocnt := BitVec.ofNat 17 (s.dec.ocnt.toNat + out.length) }
        mem := t.mem }
  | .running place hit path => ∃ t, r = .ok t ∧
      (∀ k (h : k < out.length), t.mem.read (dobufAddr (s.dec.ocnt.toNat + k)) = some out[k]) ∧
      MemSameOutside (dobufAddr s.dec.ocnt.toNat) out.length s t ∧
      HoldsShape t t.dec.cur.toNat place ∧
      t = { s with
        dec := { s.dec with
          cur := followLinks s (if hit then s.dec.root else s.dec.cur) path
          ocnt := BitVec.ofNat 17 (s.dec.ocnt.toNat + out.length) }
        mem := t.mem }

/-- One emission in front of a walk that follows the shape. -/
theorem WalkFollows.emit {s t : State} {b : Byte} {out : List Byte} {e : WalkEnd} {r : Except EngineErr State}
    (hs : WalkReady s) (hlt : s.dec.ocnt.toNat < s.cfg.obufSize)
    (ht : t = { s with
        mem := s.mem.write (dobufAddr s.dec.ocnt.toNat) b
        dec := { s.dec with ocnt := s.dec.ocnt + 1#17, cur := s.dec.root } })
    (h : WalkFollows t out e r) : WalkFollows s (b :: out) e.afterHit r := by
  have ho := dec_ocnt_succ hlt hs.obuf
  have hto : t.dec.ocnt.toNat = s.dec.ocnt.toNat + 1 := by rw [ht]; exact ho
  have hread : ∀ u : State, MemSameOutside (dobufAddr t.dec.ocnt.toNat) out.length t u →
      (∀ k (h : k < out.length), u.mem.read (dobufAddr (t.dec.ocnt.toNat + k)) = some out[k]) →
      (∀ k (h : k < (b :: out).length), u.mem.read (dobufAddr (s.dec.ocnt.toNat + k)) = some (b :: out)[k]) := by
    intro u hu h k hk
    cases k with
    | zero =>
      rw [hu _ (by unfold dobufAddr; omega)]
      simp [ht]
    | succ k =>
      have := h k (by simpa using hk)
      rw [hto] at this
      simpa [Nat.add_assoc, Nat.add_comm 1] using this
  have hsame : ∀ u : State, MemSameOutside (dobufAddr t.dec.ocnt.toNat) out.length t u →
      MemSameOutside (dobufAddr s.dec.ocnt.toNat) (b :: out).length s u := by
    intro u hu a ha
    simp only [List.length_cons] at ha
    rw [hu a (by unfold dobufAddr at *; omega), ht]
    exact read_write_ne _ _ (by omega)
  cases e with
  | failed c => exact h
  | stopped =>
    obtain ⟨u, h1, h2, h3, h4⟩ := h
    refine ⟨u, h1, hread u h3 h2, hsame u h3, ?_⟩
    rw [h4, hto, ht]
    simp only [List.length_cons]
    congr 3
    omega
  | running place hit path =>
    obtain ⟨u, h1, h2, h3, h4, h5⟩ := h
    refine ⟨u, h1, hread u h3 h2, hsame u h3, h4, ?_⟩
    have hcur : followLinks t (if hit then t.dec.root else t.dec.cur) path = followLinks s s.dec.root path := by
      rw [ht]
      simp only [ite_self]
      exact followLinks_dobuf s _ _ _ _ _
    conv_lhs => rw [h5, hto, hcur, ht]
    simp only [List.length_cons, if_true]
    congr 3
    omega

/-- One move to an internal node in front of a walk that follows the shape. -/
theorem WalkFollows.move {s : State} {n : Word} {bit : Bool} {out : List Byte} {e : WalkEnd}
    {r : Except EngineErr State} (hn : writtenWord s.mem (treeAddr s.dec.cur.toNat) = some n)
    (h : WalkFollows { s with dec := { s.dec with cur := nodeChild n bit } } out e r) :
    WalkFollows s out (e.afterMove bit) r := by
  cases e with
  | failed c => exact h
  | stopped => exact h
  | running place hit path =>
    have e1 : ∀ i p, followLinks { s with dec := { s.dec with cur := nodeChild n bit } } i p = followLinks s i p :=
      fun i p =>
      followLinks_congr (s := s) (t := { s with dec := { s.dec with cur := nodeChild n bit } }) (fun _ => rfl) i p
    obtain ⟨u, h1, h2, h3, h4, h5⟩ := h
    cases hit with
    | true =>
      refine ⟨u, h1, h2, h3, h4, ?_⟩
      conv_lhs => rw [h5, e1]
      rfl
    | false =>
      refine ⟨u, h1, h2, h3, h4, ?_⟩
      conv_lhs => rw [h5, e1]
      simp only [followLinks, hn, Option.getD_some, Bool.false_eq_true, if_false]

/-- The walk of a shape at a leaf. -/
theorem walkShape_leaf {root : Shape} {room : Nat} {cur : Shape} {bit : Bool} {rest : List Bool} {sym : Nat}
    (h : shapeAfter cur bit = .leaf sym) : walkShape root room cur (bit :: rest) =
      if 256 < sym then some ([], .failed .treeSym)
      else if sym = 256 then some ([], .stopped)
      else if room = 0 then some ([], .failed .overflow)
      else (walkShape root (room - 1) root rest).map (fun r => (BitVec.ofNat 8 sym :: r.1, r.2.afterHit)) := by
  rw [walkShape, h]

/-- The walk in memory follows the walk of the shape TREE holds. -/
theorem walk_follows {root : Shape} {bits : List Bool} :
    ∀ {k : Nat} {s : State} {cur : Shape} {out : List Byte} {e : WalkEnd},
    WalkReady s → HoldsShape s s.dec.root.toNat root → HoldsShape s s.dec.cur.toNat cur →
    walkShape root (s.cfg.obufSize - s.dec.ocnt.toNat) cur bits = some (out, e) →
    WalkFollows s out e (walkBits k bits s) := by
  induction bits with
  | nil =>
    intro k s cur out e hs hr hc h
    obtain ⟨rfl, rfl⟩ := Prod.mk.inj (Option.some.inj h)
    refine ⟨s, rfl, fun k h => by simp at h, fun _ _ => rfl, hc, ?_⟩
    simp [followLinks]
  | cons bit rest ih =>
    intro k s cur out e hs hr hc h
    have hit : ∀ n, shapeAfter cur bit = .leaf (nodeSym n).toNat → walkBit k bit s = hitLeaf n s →
        WalkFollows s out e (walkBits k (bit :: rest) s) := by
      intro n hn hw
      rw [walkShape_leaf hn] at h
      rw [walkBits, hw]
      rcases hitLeaf_cases n s with ⟨h1, e'⟩ | ⟨h1, e'⟩ | ⟨h1, h2, e'⟩ | ⟨h1, h2, e'⟩ <;> rw [e']
      · rw [if_pos h1] at h
        obtain ⟨rfl, rfl⟩ := Prod.mk.inj (Option.some.inj h)
        exact rfl
      · rw [if_neg (by omega), if_pos h1] at h
        obtain ⟨rfl, rfl⟩ := Prod.mk.inj (Option.some.inj h)
        refine ⟨_, rfl, fun k h => by simp at h, fun _ _ => rfl, ?_⟩
        simp
      · rw [if_neg (by omega), if_neg (by omega), if_pos (by omega)] at h
        obtain ⟨rfl, rfl⟩ := Prod.mk.inj (Option.some.inj h)
        exact rfl
      · have hlt : s.dec.ocnt.toNat < s.cfg.obufSize := Nat.lt_of_le_of_ne hs.count h2
        have ho := dec_ocnt_succ hlt hs.obuf
        rw [if_neg (by omega), if_neg (by omega), if_neg (by omega)] at h
        obtain ⟨⟨out', e''⟩, h', hp⟩ := Option.map_eq_some_iff.1 h
        obtain ⟨rfl, rfl⟩ := Prod.mk.inj hp
        have hb : (BitVec.ofNat 8 (nodeSym n).toNat) = (nodeSym n).setWidth 8 := by
          apply BitVec.eq_of_toNat_eq; simp
        rw [hb]
        have hw1 := (walked_hit hs e').1
        refine WalkFollows.emit hs hlt rfl (ih (cur := root) hw1.ready ?_ ?_ ?_)
        · exact HoldsShape_same hs hw1.same rfl (by unfold dobufAddr; omega) hr
        · exact HoldsShape_same hs hw1.same rfl (by unfold dobufAddr; omega) hr
        · simp only [ho]; rw [Nat.sub_sub] at h'; exact h'
    cases cur with
    | leaf sym =>
      obtain ⟨hi, n, hn, hl, hsym⟩ := hc
      have ht : treeWord s (2 * k) s.dec.cur.toNat = n := readWord_of_written _ hn
      apply hit n (by rw [hsym]; rfl)
      unfold walkBit; simp only [ht, hl, if_true]
    | node a b =>
      obtain ⟨hi, n, hn, hl, ha, hb⟩ := hc
      have ht : treeWord s (2 * k) s.dec.cur.toNat = n := readWord_of_written _ hn
      have hchild : HoldsShape s (nodeChild n bit).toNat (shapeAfter (.node a b) bit) := by
        cases bit
        · exact ha
        · exact hb
      rcases walkBit_cases k bit s with ⟨h1, _⟩ | ⟨_, nxt, hnxt, hw⟩
      · rw [ht, hl] at h1; cases h1
      · rw [ht] at hnxt
        rw [← hnxt] at hchild
        cases hx : shapeAfter (.node a b) bit with
        | leaf sym =>
          rw [hx] at hchild
          obtain ⟨hi', m, hm, hl', hsym⟩ := hchild
          have ht' : treeWord s (2 * k + 1) nxt.toNat = m := readWord_of_written _ hm
          rcases hw with ⟨hw, _⟩ | ⟨_, _, hw⟩ | ⟨_, hw, _⟩
          · omega
          · rw [ht'] at hw; exact hit m (by rw [hsym]; exact hx) hw
          · rw [ht', hl'] at hw; cases hw
        | node a' b' =>
          rw [hx] at hchild
          have hchild' := hchild
          obtain ⟨hi', m, hm, hl', _, _⟩ := hchild
          have ht' : treeWord s (2 * k + 1) nxt.toNat = m := readWord_of_written _ hm
          rw [walkShape, hx] at h
          rcases hw with ⟨hw, _⟩ | ⟨_, hw, _⟩ | ⟨_, _, hw⟩
          · omega
          · rw [ht', hl'] at hw; cases hw
          · rw [walkBits, hw]
            obtain ⟨⟨out', e'⟩, h', hp⟩ := Option.map_eq_some_iff.1 h
            obtain ⟨rfl, rfl⟩ := Prod.mk.inj hp
            subst hnxt
            let t : State := { s with dec := { s.dec with cur := nodeChild n bit } }
            exact WalkFollows.move hn (ih (k := k + 1) (s := t) ⟨hs.nodes, hs.obuf, hs.count, hs.root, hi'⟩
              (HoldsShape_congr (s := s) (t := t) rfl (fun _ _ => rfl) hr)
              (HoldsShape_congr (s := s) (t := t) rfl (fun _ _ => rfl) hchild') h')
        | outside =>
          rw [hx] at hchild
          rw [walkShape, hx] at h
          obtain ⟨rfl, rfl⟩ := Prod.mk.inj (Option.some.inj h)
          rcases hw with ⟨_, hw⟩ | ⟨hw, _⟩ | ⟨hw, _⟩
          · rw [walkBits, hw]; rfl
          · have : s.cfg.treeNodes ≤ nxt.toNat := hchild; omega
          · have : s.cfg.treeNodes ≤ nxt.toNat := hchild; omega
        | beyond =>
          rw [walkShape, hx] at h; cases h
    | outside => rw [walkShape] at h; cases h
    | beyond => rw [walkShape] at h; cases h

end Sys2Proof.Laws
end

