-- ==== Sys2Proof/Laws/Encoder.lean ====
section
/-! SUPPORT. What appending bits and codes does (42_encoder.md R130, R131, R135): said once, for every later proof. -/

namespace Sys2Proof.Laws

open Sys2Proof.Machine

/-! ## Bits of a byte -/

theorem getLsbD_assignBit (x : Byte) (k j : Nat) (bit : Bool) (hk : k < 8) (hj : j < 8) :
    (assignBit x k bit).getLsbD j = if j = k then bit else x.getLsbD j := by
  unfold assignBit
  by_cases hjk : j = k
  · subst hjk
    cases bit <;> simp [hj]
  · cases bit <;> simp [hj, hjk] <;> omega

/-- The bits of a byte whose accumulator is full are the pending bits. -/
theorem bitsMsbFirst_eq (b : Byte) : bitsMsbFirst b = (List.range 8).map (fun i => b.getLsbD (7 - i)) := rfl

@[simp] theorem length_bitsMsbFirst (b : Byte) : (bitsMsbFirst b).length = 8 := rfl

/-- One more bit at the end of the pending bits. -/
theorem map_assignBit (acc : Byte) (n : Nat) (bit : Bool) (hn : n < 8) :
    (List.range (n + 1)).map (fun i => (assignBit acc (7 - n) bit).getLsbD (7 - i)) =
      (List.range n).map (fun i => acc.getLsbD (7 - i)) ++ [bit] := by
  rw [List.range_succ, List.map_append, List.map_singleton]
  congr 1
  · apply List.map_congr_left
    intro i hi
    have hi := List.mem_range.1 hi
    rw [getLsbD_assignBit _ _ _ _ (by omega) (by omega), if_neg (by omega)]
  · rw [getLsbD_assignBit _ _ _ _ (by omega) (by omega), if_pos rfl]

/-! ## The frame of appending -/

/-- What appending leaves: the encoder's STATE and ERR, and everything outside the encoder and EOBUF; NB, OCNT and the
stream as `n` more bits `bits` make them; memory in canonical form and unchanged outside the bytes emitted. -/
structure Appended (s : State) (bits : List Bool) (t : State) : Prop where
  rest : t = { s with enc := t.enc, mem := t.mem }
  state : t.enc.state = s.enc.state
  err : t.enc.err = s.enc.err
  nb : t.enc.nb.toNat = (s.enc.nb.toNat + bits.length) % 8
  ocnt : t.enc.ocnt.toNat = s.enc.ocnt.toNat + (s.enc.nb.toNat + bits.length) / 8
  clean : accumulatorClean t.enc
  stream : encStream t = encStream s ++ bits
  same : MemSameOutside (eobufAddr s.enc.ocnt.toNat) ((s.enc.nb.toNat + bits.length) / 8) s t
  written : ∀ a, (s.mem.read a).isSome = true → (t.mem.read a).isSome = true
  emitted : ∀ j, s.enc.ocnt.toNat ≤ j → j < t.enc.ocnt.toNat → (t.mem.read (eobufAddr j)).isSome = true
  wf : s.mem.wf → t.mem.wf
  cells : ∀ c ∈ t.mem.cells, c ∈ s.mem.cells ∨
    (eobufAddr s.enc.ocnt.toNat ≤ c.1 ∧ c.1 < eobufAddr t.enc.ocnt.toNat)

theorem ocnt_succ {n : BitVec 17} (h : n.toNat + 1 < 2 ^ 17) : (n + 1#17).toNat = n.toNat + 1 := by
  rw [BitVec.toNat_add, BitVec.toNat_ofNat]; omega

theorem eobufBytes_write_above (s : State) (n : Nat) (m : Memory) (b : Byte)
    (hm : m = s.mem.write (eobufAddr n) b) :
    (List.range (n + 1)).map (fun j => (m.read (eobufAddr j)).getD 0#8) = eobufBytes s n ++ [b] := by
  subst hm
  rw [List.range_succ, List.map_append, List.map_singleton]
  congr 1
  · apply List.map_congr_left
    intro j hj
    have hj := List.mem_range.1 hj
    rw [read_write_ne _ _ (by unfold eobufAddr; omega)]
  · simp

theorem appended_bit (s : State) (bit : Bool) (hc : accumulatorClean s.enc)
    (hr : s.enc.ocnt.toNat + (s.enc.nb.toNat + 1) / 8 < 2 ^ 17) : Appended s [bit] (appendBit s bit) := by
  have hn : s.enc.nb.toNat < 8 := s.enc.nb.isLt
  have hmap := map_assignBit s.enc.acc s.enc.nb.toNat bit hn
  by_cases h8 : s.enc.nb.toNat + 1 = 8
  · have ho := ocnt_succ (n := s.enc.ocnt) (by omega)
    have hdiv : (s.enc.nb.toNat + 1) / 8 = 1 := by omega
    rw [h8] at hmap
    have e : appendBit s bit = { s with
        mem := s.mem.write (eobufAddr s.enc.ocnt.toNat) (assignBit s.enc.acc (7 - s.enc.nb.toNat) bit)
        enc := { s.enc with acc := 0#8, nb := 0#3, ocnt := s.enc.ocnt + 1#17 } } := by
      simp only [appendBit, h8, if_true]; rfl
    rw [e]
    refine ⟨rfl, rfl, rfl, ?_, ?_, ?_, ?_, ?_, ?_, ?_, ?_, ?_⟩
    · simp [h8]
    · simp [ho, hdiv]
    · intro k _ _; simp
    · unfold encStream eobufBytes pendingBits
      simp only [ho]
      rw [eobufBytes_write_above s s.enc.ocnt.toNat _ _ rfl, List.flatMap_append]
      simp only [List.flatMap_singleton, BitVec.toNat_ofNat, Nat.zero_mod, List.range_zero, List.map_nil,
        List.append_nil, List.append_assoc]
      rw [bitsMsbFirst_eq, hmap]
      rfl
    · intro a ha
      rw [show [bit].length = 1 from rfl, hdiv] at ha
      exact read_write_ne _ _ (by omega)
    · intro a ha
      simp only [read_write]; split <;> simp [ha]
    · intro j h1 h2
      simp only [ho] at h2
      rw [show j = s.enc.ocnt.toNat by omega]; simp
    · exact fun h => write_wf _ _ h
    · intro c hcell
      rcases mem_write_cells hcell with h | h
      · right; simp only [ho]; unfold eobufAddr at *; omega
      · exact .inl h
  · have hlt : s.enc.nb.toNat + 1 < 8 := by omega
    have e : appendBit s bit = { s with
        enc := { s.enc with
          acc := assignBit s.enc.acc (7 - s.enc.nb.toNat) bit, nb := BitVec.ofNat 3 (s.enc.nb.toNat + 1) } } := by
      simp only [appendBit, if_neg h8]
    have hnb : (BitVec.ofNat 3 (s.enc.nb.toNat + 1)).toNat = s.enc.nb.toNat + 1 := by
      rw [BitVec.toNat_ofNat]; omega
    have hdiv : (s.enc.nb.toNat + 1) / 8 = 0 := by omega
    rw [e]
    refine ⟨rfl, rfl, rfl, ?_, ?_, ?_, ?_, ?_, ?_, ?_, ?_, ?_⟩
    · simp only [hnb, List.length_singleton]; omega
    · simp [hdiv]
    · intro k hk hk'
      simp only [hnb] at hk'
      rw [getLsbD_assignBit _ _ _ _ (by omega) hk, if_neg (by omega)]
      exact hc k hk (by omega)
    · unfold encStream pendingBits
      simp only [hnb]
      rw [hmap]
      simp only [List.append_assoc]
      rfl
    · intro a _; rfl
    · exact fun a ha => ha
    · intro j h1 h2; simp only at h2; omega
    · exact id
    · exact fun c hcell => .inl hcell

theorem Appended.refl (s : State) (hc : accumulatorClean s.enc) : Appended s [] s where
  rest := rfl
  state := rfl
  err := rfl
  nb := by have := s.enc.nb.isLt; simp only [List.length_nil]; omega
  ocnt := by have := s.enc.nb.isLt; simp only [List.length_nil]; omega
  clean := hc
  stream := by simp
  same := fun _ _ => rfl
  written := fun _ h => h
  emitted := fun j h1 h2 => by omega
  wf := id
  cells := fun c h => .inl h

theorem Appended.trans {s t u : State} {xs ys : List Bool} (h : Appended s xs t) (h' : Appended t ys u) :
    Appended s (xs ++ ys) u where
  rest := by rw [h'.rest, h.rest]
  state := h'.state.trans h.state
  err := h'.err.trans h.err
  nb := by rw [h'.nb, h.nb, List.length_append]; omega
  ocnt := by rw [h'.ocnt, h.ocnt, h.nb, List.length_append]; omega
  clean := h'.clean
  stream := by rw [h'.stream, h.stream, List.append_assoc]
  same := by
    intro a ha
    have e1 := h.ocnt
    have e2 := h.nb
    rw [List.length_append] at ha
    rw [h'.same a, h.same a] <;> unfold eobufAddr at * <;> omega
  written := fun a ha => h'.written a (h.written a ha)
  emitted := by
    intro j h1 h2
    by_cases hj : j < t.enc.ocnt.toNat
    · exact h'.written _ (h.emitted j h1 hj)
    · exact h'.emitted j (by omega) h2
  wf := fun hm => h'.wf (h.wf hm)
  cells := by
    intro c hc
    have e1 := h.ocnt
    have e2 := h'.ocnt
    rcases h'.cells c hc with hc | hc
    · rcases h.cells c hc with hc | hc
      · exact .inl hc
      · right; unfold eobufAddr at *; omega
    · right; unfold eobufAddr at *; omega

/-- Appending a bit string. -/
theorem appended_bits (bits : List Bool) (s : State) (hc : accumulatorClean s.enc)
    (hr : s.enc.ocnt.toNat + (s.enc.nb.toNat + bits.length) / 8 < 2 ^ 17) :
    Appended s bits (bits.foldl appendBit s) := by
  induction bits generalizing s with
  | nil => exact Appended.refl s hc
  | cons b bs ih =>
    rw [List.length_cons] at hr
    have h1 := appended_bit s b hc (by omega)
    have h2 := ih (appendBit s b) h1.clean (by
      have e1 := h1.ocnt
      have e2 := h1.nb
      simp only [List.length_singleton] at e1 e2
      omega)
    exact h1.trans h2

@[simp] theorem length_codeBits (s : State) (sym : Nat) : (codeBits s sym).length = (ctabLen s sym).toNat := by
  simp [codeBits]

/-- Appending a symbol's code (42_encoder.md R131). -/
theorem appended_code (sym : Nat) (s : State) (hc : accumulatorClean s.enc)
    (hr : s.enc.ocnt.toNat + symNeed sym s < 2 ^ 17) : Appended s (codeBits s sym) (appendCode sym s) :=
  appended_bits _ s hc (by rw [length_codeBits]; exact hr)

/-! ## Padding -/

/-- The pending bits and the zeros after them are the accumulator. -/
theorem bits_of_clean (e : EncEngine) (hc : accumulatorClean e) :
    bitsMsbFirst e.acc = pendingBits e ++ List.replicate (8 - e.nb.toNat) false := by
  have hn : e.nb.toNat < 8 := e.nb.isLt
  apply List.ext_getElem
  · simp [pendingBits]; omega
  · intro i h1 h2
    simp only [length_bitsMsbFirst] at h1
    rw [List.getElem_append]
    split
    · simp [bitsMsbFirst_eq, pendingBits]
    · rename_i h
      simp only [pendingBits, List.length_map, List.length_range] at h
      simp only [List.getElem_replicate, bitsMsbFirst_eq, List.getElem_map, List.getElem_range]
      exact hc _ (by omega) (by omega)

/-- ENC_END's padding (42_encoder.md R135): the byte in progress is emitted, filled with zeros. -/
theorem appended_pad (s : State) (hc : accumulatorClean s.enc) (hr : s.enc.ocnt.toNat + 1 < 2 ^ 17) :
    Appended s (List.replicate ((8 - s.enc.nb.toNat) % 8) false) (padAndEmit s) ∧
      (padAndEmit s).enc.acc = (if 0 < s.enc.nb.toNat then 0#8 else s.enc.acc) ∧
      (padAndEmit s).enc.nb = 0#3 := by
  have hn : s.enc.nb.toNat < 8 := s.enc.nb.isLt
  by_cases h0 : 0 < s.enc.nb.toNat
  · have ho := ocnt_succ (n := s.enc.ocnt) (by omega)
    have e : padAndEmit s = { s with
        mem := s.mem.write (eobufAddr s.enc.ocnt.toNat) s.enc.acc
        enc := { s.enc with acc := 0#8, nb := 0#3, ocnt := s.enc.ocnt + 1#17 } } := by
      simp only [padAndEmit, if_pos h0]; rfl
    have hl : (8 - s.enc.nb.toNat) % 8 = 8 - s.enc.nb.toNat := by omega
    have hdiv : (s.enc.nb.toNat + (8 - s.enc.nb.toNat)) / 8 = 1 := by omega
    rw [e, if_pos h0, hl]
    refine ⟨⟨rfl, rfl, rfl, ?_, ?_, ?_, ?_, ?_, ?_, ?_, ?_, ?_⟩, rfl, rfl⟩
    · simp only [List.length_replicate, BitVec.toNat_ofNat]; omega
    · simp only [List.length_replicate, ho, hdiv]
    · intro k _ _; simp
    · unfold encStream eobufBytes
      simp only [ho]
      rw [eobufBytes_write_above s s.enc.ocnt.toNat _ _ rfl, List.flatMap_append]
      simp only [List.flatMap_singleton, pendingBits, BitVec.toNat_ofNat, Nat.zero_mod, List.range_zero, List.map_nil,
        List.append_nil, List.append_assoc]
      rw [bits_of_clean s.enc hc]
      rfl
    · intro a ha
      rw [List.length_replicate, hdiv] at ha
      exact read_write_ne _ _ (by omega)
    · intro a ha
      simp only [read_write]; split <;> simp [ha]
    · intro j h1 h2
      simp only [ho] at h2
      rw [show j = s.enc.ocnt.toNat by omega]; simp
    · exact fun h => write_wf _ _ h
    · intro c hcell
      rcases mem_write_cells hcell with h | h
      · right; simp only [ho]; unfold eobufAddr at *; omega
      · exact .inl h
  · have hz : s.enc.nb.toNat = 0 := by omega
    have e : padAndEmit s = s := by simp only [padAndEmit, if_neg h0]
    rw [e, if_neg h0, hz]
    exact ⟨Appended.refl s hc, rfl, BitVec.eq_of_toNat_eq (by simpa using hz)⟩

/-! ## What appending leaves, whatever the state -/

/-- Appending bits changes the encoder's ACC, NB and OCNT and memory only. -/
theorem appendBits_rest (bits : List Bool) (s : State) :
    bits.foldl appendBit s = { s with enc := (bits.foldl appendBit s).enc, mem := (bits.foldl appendBit s).mem } ∧
      (bits.foldl appendBit s).enc.state = s.enc.state ∧ (bits.foldl appendBit s).enc.err = s.enc.err := by
  induction bits generalizing s with
  | nil => exact ⟨rfl, rfl, rfl⟩
  | cons b bs ih =>
    have h : appendBit s b = { s with enc := (appendBit s b).enc, mem := (appendBit s b).mem } ∧
        (appendBit s b).enc.state = s.enc.state ∧ (appendBit s b).enc.err = s.enc.err := by
      unfold appendBit
      simp only
      split <;> exact ⟨rfl, rfl, rfl⟩
    obtain ⟨h1, h2, h3⟩ := ih (appendBit s b)
    rw [List.foldl_cons]
    refine ⟨?_, h2.trans h.2.1, h3.trans h.2.2⟩
    rw [h1]
    generalize List.foldl appendBit (appendBit s b) bs = u
    rw [h.1]

/-- The padding changes the encoder's ACC, NB and OCNT and memory only. -/
theorem padAndEmit_rest (s : State) :
    padAndEmit s = { s with enc := (padAndEmit s).enc, mem := (padAndEmit s).mem } ∧
      (padAndEmit s).enc.state = s.enc.state ∧ (padAndEmit s).enc.err = s.enc.err := by
  unfold padAndEmit
  split <;> exact ⟨rfl, rfl, rfl⟩

end Sys2Proof.Laws
end

