-- ==== Sys2Proof/Laws/Effect.lean ====
section
/-! SUPPORT. Everything an instruction can do, said once: `exec` always answers a next state, and that state is one of
the effects listed here. -/

namespace Sys2Proof.Laws

open Sys2Proof.Machine

/-- The effects of the instructions, each with what its guards give. -/
inductive Effect (s : State) : State → Prop
  /-- a response and nothing else -/
  | answer (r : Response) : Effect s { s with resp := some r }
  /-- a sticky flag -/
  | flag (f : Flag) : Effect s (respondOkay (setFlag f s))
  /-- the write of FLAGS -/
  | clear (v : Word) : Effect s (respondOkay (clearFlags v s))
  /-- the write of a TREE node, outside RUN -/
  | treeWrite (i : Nat) (v : Word) (hi : i < s.cfg.treeNodes) (hst : s.dec.state ≠ .run) :
      Effect s (respondOkay { s with mem := s.mem.writeWord (treeAddr i) v })
  /-- the write of a CTAB word, outside ACTIVE -/
  | ctabWrite (sym w : Nat) (v : Word) (hs : sym ≤ 256) (hw : w ≤ 8) (hst : s.enc.state ≠ .active) :
      Effect s (respondOkay { s with mem := s.mem.writeWord (ctabAddr sym w) (ctabStored w v) })
  /-- ENC_START -/
  | encOpen : Effect s (respondOkay (openEncSession s))
  /-- ENC_OCLR -/
  | encClear : Effect s (respondOkay { s with enc := { s.enc with ocnt := 0#17 } })
  /-- an engine error of the encoder -/
  | encRaise (c : EngineErr) (hst : s.enc.state ≠ .error) (hc : encoderErr c = true) (h0 : c ≠ .none) :
      Effect s (respondOkay (raiseEngineError .enc c s))
  /-- ENC_SYM -/
  | encAppend (b : Byte) (hst : s.enc.state = .active) (h1 : 1 ≤ (ctabLen s b.toNat).toNat)
      (h2 : (ctabLen s b.toNat).toNat ≤ 256) (hfit : s.enc.ocnt.toNat + symNeed b.toNat s ≤ s.cfg.obufSize) :
      Effect s (respondOkay (appendCode b.toNat s))
  /-- ENC_END -/
  | encClose (t : State) (hst : s.enc.state = .active) (h1 : 1 ≤ (ctabLen s 256).toNat)
      (h2 : (ctabLen s 256).toNat ≤ 256) (hfit : s.enc.ocnt.toNat + endNeed s ≤ s.cfg.obufSize)
      (ht : t = padAndEmit (appendCode 256 s)) :
      Effect s (respondOkay { t with enc := { t.enc with state := .done } })
  /-- DEC_START -/
  | decOpen (root : Nat) (hr : root < s.cfg.treeNodes) :
      Effect s (respondOkay (openDecSession (BitVec.ofNat 10 root) s))
  /-- DEC_OCLR -/
  | decClear : Effect s (respondOkay { s with dec := { s.dec with ocnt := 0#17 } })
  /-- an engine error of the decoder: of DEC_START from any state, of another command outside ERROR only -/
  | decRaise (c : EngineErr) (hst : s.dec.state ≠ .error ∨ c = .treeRange) (hc : decoderErr c = true)
      (h0 : c ≠ .none) : Effect s (respondOkay (raiseEngineError .dec c s))
  /-- DEC_BYTE in RUN -/
  | decWalk (b : Byte) (t : State) (hst : s.dec.state = .run) (ht : walkBits 0 (bitsMsbFirst b) s = .ok t) :
      Effect s (respondOkay t)

/-! ## What the invariant gives the appends and the walk -/

theorem walkReady_of_inv {s : State} (hi : Inv s) : WalkReady s :=
  ⟨hi.legal.1.2, hi.legal.2.2.2, hi.decCount, hi.rootBound, hi.curBound⟩

/-- Appending a symbol's code that fits, in a state of the invariant. -/
theorem appended_sym {s : State} {sym : Nat} (hi : Inv s) (hfit : s.enc.ocnt.toNat + symNeed sym s ≤ s.cfg.obufSize) :
    Appended s (codeBits s sym) (appendCode sym s) :=
  appended_code sym s hi.accClean (by have := hi.legal.2.2.2; omega)

/-- Appending the sentinel's code and the padding where they fit, in a state of the invariant (42_encoder.md R135). -/
theorem appended_end {s : State} (hi : Inv s) (hfit : s.enc.ocnt.toNat + endNeed s ≤ s.cfg.obufSize) :
    ∃ p, p < 8 ∧ 8 * endNeed s = s.enc.nb.toNat + (ctabLen s 256).toNat + p ∧
      Appended s (codeBits s 256 ++ List.replicate p false) (padAndEmit (appendCode 256 s)) ∧
      (padAndEmit (appendCode 256 s)).enc.acc = 0#8 ∧ (padAndEmit (appendCode 256 s)).enc.nb = 0#3 := by
  have ho := hi.legal.2.2.2
  have hn : endNeed s = (s.enc.nb.toNat + (ctabLen s 256).toNat + 7) / 8 := rfl
  have hnn : symNeed 256 s = (s.enc.nb.toNat + (ctabLen s 256).toNat) / 8 := rfl
  have ha := appended_code 256 s hi.accClean (by omega)
  have e1 := ha.ocnt
  have e2 := ha.nb
  rw [length_codeBits] at e1 e2
  obtain ⟨hp, hacc, hnb⟩ := appended_pad (appendCode 256 s) ha.clean (by omega)
  refine ⟨_, Nat.mod_lt _ (by decide), ?_, ha.trans hp, ?_, hnb⟩
  · omega
  · rw [hacc]
    split
    · rfl
    · have : (appendCode 256 s).enc.nb.toNat = 0 := by omega
      apply BitVec.eq_of_getLsbD_eq
      intro k hk
      have := ha.clean k hk (by omega)
      simpa using this

/-! ## The commands, each in one lemma -/

theorem encSym_effect (b : Byte) (s : State) : Effect s (respondOkay (commit .enc s (encSymEffect b.toNat s))) := by
  unfold encSymEffect
  cases hst : s.enc.state
  case error => exact .answer _
  case idle => exact .encRaise _ (by simp [hst]) rfl (by decide)
  case done => exact .encRaise _ (by simp [hst]) rfl (by decide)
  case active =>
    have hne : s.enc.state ≠ .error := by simp [hst]
    simp only [encSymActive, checkCode]
    by_cases h0 : (ctabLen s b.toNat).toNat = 0
    · simp only [h0, if_true]; exact .encRaise _ hne rfl (by decide)
    · by_cases h1 : 256 < (ctabLen s b.toNat).toNat
      · simp only [h0, h1, if_true, if_false]; exact .encRaise _ hne rfl (by decide)
      · by_cases h2 : s.cfg.obufSize < s.enc.ocnt.toNat + symNeed b.toNat s
        · simp only [h0, h1, h2, if_true, if_false]; exact .encRaise _ hne rfl (by decide)
        · simp only [h0, h1, h2, if_false]
          exact .encAppend b hst (by omega) (by omega) (by omega)

theorem encEnd_effect (s : State) : Effect s (respondOkay (commit .enc s (encEndEffect s))) := by
  unfold encEndEffect
  cases hst : s.enc.state
  case error => exact .answer _
  case idle => exact .encRaise _ (by simp [hst]) rfl (by decide)
  case done => exact .encRaise _ (by simp [hst]) rfl (by decide)
  case active =>
    have hne : s.enc.state ≠ .error := by simp [hst]
    simp only [encEndActive, checkCode, sentinel]
    by_cases h0 : (ctabLen s 256).toNat = 0
    · simp only [h0, if_true]; exact .encRaise _ hne rfl (by decide)
    · by_cases h1 : 256 < (ctabLen s 256).toNat
      · simp only [h0, h1, if_true, if_false]; exact .encRaise _ hne rfl (by decide)
      · by_cases h2 : s.cfg.obufSize < s.enc.ocnt.toNat + endNeed s
        · simp only [h0, h1, h2, if_true, if_false]; exact .encRaise _ hne rfl (by decide)
        · simp only [h0, h1, h2, if_false]
          exact .encClose _ hst (by omega) (by omega) (by omega) rfl

theorem decStart_effect (r : Nat) (s : State) : Effect s (respondOkay (commit .dec s (decStartEffect r s))) := by
  unfold decStartEffect
  by_cases h : s.cfg.treeNodes ≤ r
  · rw [if_pos h]; exact .decRaise _ (.inr rfl) rfl (by decide)
  · rw [if_neg h]; exact .decOpen r (by omega)

theorem decByte_effect (b : Byte) (s : State) : Effect s (respondOkay (commit .dec s (decByteEffect b s))) := by
  unfold decByteEffect
  cases hst : s.dec.state
  case error => exact .answer _
  case done => exact .flag .dxtra
  case idle => exact .decRaise _ (by simp [hst]) rfl (by decide)
  case run =>
    simp only
    cases hw : walkBits 0 (bitsMsbFirst b) s with
    | ok t => exact .decWalk b t hst hw
    | error c =>
      have hne : s.dec.state ≠ .error := by simp [hst]
      rcases walkBits_error hw with rfl | rfl | rfl
      · exact .decRaise _ (.inl hne) rfl (by decide)
      · exact .decRaise _ (.inl hne) rfl (by decide)
      · exact .decRaise _ (.inl hne) rfl (by decide)

theorem decEnd_effect (s : State) : Effect s (respondOkay (commit .dec s (decEndEffect s))) := by
  unfold decEndEffect
  cases hst : s.dec.state
  case error => exact .answer _
  case done => exact .answer _
  case idle => exact .decRaise _ (by simp [hst]) rfl (by decide)
  case run => exact .decRaise _ (by simp [hst]) rfl (by decide)

/-! ## The windows -/

theorem readWindow_effect (mapped : Bool) (v : Word) (s : State) : Effect s (readWindow mapped v s) := by
  cases mapped
  · exact .answer _
  · exact .answer _

theorem wrTree_effect (i : Nat) (v : Word) (s : State) :
    Effect s (writeWindow (treeMapped s i) (writeTree i v s) s) := by
  by_cases h : i < s.cfg.treeNodes
  · simp only [writeWindow, treeMapped, h, decide_true, if_true, writeTree]
    split
    · exact .flag .trLock
    · exact .treeWrite i v h (by assumption)
  · simp only [writeWindow, treeMapped, h, decide_false]
    exact .answer _

theorem wrCtab_effect (sym w : Nat) (v : Word) (s : State) :
    Effect s (writeWindow (ctabMapped sym w) (writeCtab sym w v s) s) := by
  by_cases h : sym ≤ 256 ∧ w ≤ 8
  · simp only [writeWindow, ctabMapped, h.1, h.2, decide_true, Bool.and_self, if_true, writeCtab]
    split
    · exact .flag .ctLock
    · exact .ctabWrite sym w v h.1 h.2 (by assumption)
  · have : ctabMapped sym w = false := by
      simp only [ctabMapped, Bool.and_eq_false_iff, decide_eq_false_iff_not]
      omega
    rw [this]
    exact .answer _

theorem ignoredWindow_effect (mapped : Bool) (v : Word) (s : State) :
    Effect s (writeWindow mapped (ignoreWrite v s) s) := by
  cases mapped
  · exact .answer _
  · exact .answer _

/-! ## Every instruction -/

theorem runCommand_effect (c : Command) (s : State) : ∃ t, runCommand c s = .next t ∧ Effect s t := by
  cases c
  case nop => exact ⟨_, rfl, .answer _⟩
  case encStart => exact ⟨_, rfl, .encOpen⟩
  case encSym b => exact ⟨_, rfl, encSym_effect b s⟩
  case encEnd => exact ⟨_, rfl, encEnd_effect s⟩
  case encOclr => exact ⟨_, rfl, .encClear⟩
  case decStart r => exact ⟨_, rfl, decStart_effect r s⟩
  case decByte b => exact ⟨_, rfl, decByte_effect b s⟩
  case decEnd => exact ⟨_, rfl, decEnd_effect s⟩
  case decOclr => exact ⟨_, rfl, .decClear⟩

/-- A command instruction is the command. -/
theorem exec_toInstr (c : Command) (s : State) : exec c.toInstr s = runCommand c s := by cases c <;> rfl

/-- Every instruction answers a next state, and by one of the effects. -/
theorem exec_effect (i : Instr) (s : State) : ∃ t, exec i s = .next t ∧ Effect s t := by
  cases i
  case wrCmd w =>
    simp only [exec, execWrCmd]
    split
    · exact runCommand_effect _ s
    · exact ⟨_, rfl, .flag .cmdBad⟩
  case nop => exact runCommand_effect .nop s
  case encStart => exact runCommand_effect .encStart s
  case encSym b => exact runCommand_effect (.encSym b) s
  case encEnd => exact runCommand_effect .encEnd s
  case encOclr => exact runCommand_effect .encOclr s
  case decStart r => exact runCommand_effect (.decStart r) s
  case decByte b => exact runCommand_effect (.decByte b) s
  case decEnd => exact runCommand_effect .decEnd s
  case decOclr => exact runCommand_effect .decOclr s
  case wrFlags v => exact ⟨_, rfl, .clear v⟩
  case wrTree n v => exact ⟨_, rfl, wrTree_effect n v s⟩
  case wrCtab c w v => exact ⟨_, rfl, wrCtab_effect c w v s⟩
  case wrCtabEos w v => exact ⟨_, rfl, wrCtab_effect 256 w v s⟩
  case rdTree n => exact ⟨_, rfl, readWindow_effect _ _ s⟩
  case rdCtab c w => exact ⟨_, rfl, readWindow_effect _ _ s⟩
  case rdCtabEos w => exact ⟨_, rfl, readWindow_effect _ _ s⟩
  case rdEobuf q => exact ⟨_, rfl, readWindow_effect _ _ s⟩
  case rdDobuf q => exact ⟨_, rfl, readWindow_effect _ _ s⟩
  case wrEobuf q v => exact ⟨_, rfl, ignoredWindow_effect _ v s⟩
  case wrDobuf q v => exact ⟨_, rfl, ignoredWindow_effect _ v s⟩
  all_goals exact ⟨_, rfl, .answer _⟩

/-- The next state of an instruction is one of the effects. -/
theorem effect_of_exec {i : Instr} {s t : State} (h : exec i s = .next t) : Effect s t := by
  obtain ⟨u, hu, he⟩ := exec_effect i s
  rw [hu] at h
  exact (Host.Outcome.next.inj h) ▸ he

/-- What no effect changes: the parameters and the model's own fields. -/
structure OwnKept (s t : State) : Prop where
  cfg : t.cfg = s.cfg
  pending : t.pending = s.pending
  hostCtr : t.hostCtr = s.hostCtr
  engineCtr : t.engineCtr = s.engineCtr

theorem OwnKept.of_encoder {s t : State} (h : t = { s with enc := t.enc, mem := t.mem }) : OwnKept s t := by
  rw [h]; exact ⟨rfl, rfl, rfl, rfl⟩

theorem OwnKept.trans {s t u : State} (h : OwnKept s t) (h' : OwnKept t u) : OwnKept s u :=
  ⟨h'.cfg.trans h.cfg, h'.pending.trans h.pending, h'.hostCtr.trans h.hostCtr, h'.engineCtr.trans h.engineCtr⟩

/-- No instruction changes the parameters, what is pending or a counter of the free values. -/
theorem Effect.own {s t : State} (h : Effect s t) : OwnKept s t := by
  cases h with
  | encAppend b =>
    have := OwnKept.of_encoder (appendBits_rest (codeBits s b.toNat) s).1
    exact ⟨this.cfg, this.pending, this.hostCtr, this.engineCtr⟩
  | encClose t _ _ _ _ ht =>
    have := (OwnKept.of_encoder (appendBits_rest (codeBits s 256) s).1).trans
      (OwnKept.of_encoder (padAndEmit_rest (appendCode 256 s)).1)
    subst ht
    exact ⟨this.cfg, this.pending, this.hostCtr, this.engineCtr⟩
  | decWalk b t _ ht =>
    have e := (walkBits_keeps ht).rest
    rw [e]; exact ⟨rfl, rfl, rfl, rfl⟩
  | _ => exact ⟨rfl, rfl, rfl, rfl⟩

end Sys2Proof.Laws
end

