-- ==== Sys2Proof/Laws/Encoding.lean ====
section
/-! SUPPORT. The decoder in numbers: what a mask and a match of the opcode table ask of a word, and the decoder as
nested tests on the word's number. -/

namespace Sys2Proof.Laws

/-! ## Masks -/

/-- A mask of high bits and low bits, against a match that is zero in its low bits. -/
theorem and_mask_eq_iff (a b c : Nat) (x : BitVec (a + b + c)) (p : BitVec a) :
    x &&& (BitVec.allOnes a ++ 0#b ++ BitVec.allOnes c) = p ++ 0#b ++ 0#c ↔
      x.toNat / 2 ^ (b + c) = p.toNat ∧ x.toNat % 2 ^ c = 0 := by
  have hx : x = x.extractLsb' (b + c) a ++ x.extractLsb' c b ++ x.extractLsb' 0 c := by
    ext i hi
    simp only [BitVec.getElem_append, BitVec.getElem_extractLsb']
    split
    · simp [BitVec.getLsbD_eq_getElem, hi]
    · split
      · rw [show c + (i - c) = i by omega, BitVec.getLsbD_eq_getElem hi]
      · rw [show b + c + (i - c - b) = i by omega, BitVec.getLsbD_eq_getElem hi]
  have hhi : (x.extractLsb' (b + c) a).toNat = x.toNat / 2 ^ (b + c) := by
    rw [BitVec.extractLsb'_toNat, Nat.shiftRight_eq_div_pow, Nat.mod_eq_of_lt]
    have := x.isLt
    rw [Nat.div_lt_iff_lt_mul (Nat.two_pow_pos _), ← Nat.pow_add]
    convert this using 2; omega
  have hlo : (x.extractLsb' 0 c).toNat = x.toNat % 2 ^ c := by simp [BitVec.extractLsb'_toNat]
  rw [← hhi, ← hlo]
  conv_lhs => rw [hx]
  simp only [BitVec.and_append, BitVec.and_allOnes, BitVec.and_zero]
  constructor
  · intro h
    have h1 := congrArg (fun y => y.extractLsb' 0 c) h
    have h2 := congrArg (fun y => y.extractLsb' (b + c) a) h
    have e1 : ∀ (u : BitVec a) (v : BitVec b) (w : BitVec c), (u ++ v ++ w).extractLsb' 0 c = w := by
      intro u v w; exact BitVec.extractLsb'_append_eq_right
    have e2 : ∀ (u : BitVec a) (v : BitVec b) (w : BitVec c), (u ++ v ++ w).extractLsb' (b + c) a = u := by
      intro u v w
      ext i hi
      simp [BitVec.getLsbD_append, show ¬ (b + c + i < c) by omega, show ¬ (b + c + i - c < b) by omega,
        show b + c + i - c - b = i by omega, hi]
    simp only [e1, e2] at h1 h2
    exact ⟨congrArg BitVec.toNat h2, by simpa using congrArg BitVec.toNat h1⟩
  · rintro ⟨h1, h2⟩
    have h1 := BitVec.eq_of_toNat_eq h1
    have h2 : x.extractLsb' 0 c = 0#c := BitVec.eq_of_toNat_eq (by simpa using h2)
    rw [h1, h2]

theorem match32 (w p : Word) : w &&& 0xFFFFFFFF#32 = p ↔ w.toNat = p.toNat := by
  rw [show (0xFFFFFFFF#32 : Word) = BitVec.allOnes 32 by decide, BitVec.and_allOnes, BitVec.toNat_inj]

theorem match24 (w : Word) (p : BitVec 24) :
    w &&& 0xFFFFFF00#32 = p ++ 0#8 ↔ w.toNat / 2 ^ 8 = p.toNat := by
  have := and_mask_eq_iff 24 8 0 w p
  simpa [Nat.mod_one] using this

theorem match22 (w : Word) (p : BitVec 22) :
    w &&& 0xFFFFFC00#32 = p ++ 0#10 ↔ w.toNat / 2 ^ 10 = p.toNat := by
  have := and_mask_eq_iff 22 10 0 w p
  simpa [Nat.mod_one] using this

theorem match19 (h p : BitVec 19) : h &&& 0x7FFFF#19 = p ↔ h.toNat = p.toNat := by
  rw [show (0x7FFFF#19 : BitVec 19) = BitVec.allOnes 19 by decide, BitVec.and_allOnes, BitVec.toNat_inj]

theorem matchTree (h : BitVec 19) (p : BitVec 7) :
    h &&& 0x7F003#19 = p ++ 0#10 ++ 0#2 ↔ h.toNat / 2 ^ 12 = p.toNat ∧ h.toNat % 4 = 0 :=
  and_mask_eq_iff 7 10 2 h p

theorem matchCtab (h : BitVec 19) (p : BitVec 5) :
    h &&& 0x7C003#19 = p ++ 0#12 ++ 0#2 ↔ h.toNat / 2 ^ 14 = p.toNat ∧ h.toNat % 4 = 0 :=
  and_mask_eq_iff 5 12 2 h p

theorem matchEos (h : BitVec 19) (p : BitVec 13) :
    h &&& 0x7FFC3#19 = p ++ 0#4 ++ 0#2 ↔ h.toNat / 2 ^ 6 = p.toNat ∧ h.toNat % 4 = 0 :=
  and_mask_eq_iff 13 4 2 h p

theorem matchObuf (h : BitVec 19) (p : BitVec 3) :
    h &&& 0x70003#19 = p ++ 0#14 ++ 0#2 ↔ h.toNat / 2 ^ 16 = p.toNat ∧ h.toNat % 4 = 0 :=
  and_mask_eq_iff 3 14 2 h p

/-! ## The command decoder -/

theorem find?_cons_ite {α : Type} (p : α → Bool) (x : α) (l : List α) :
    (x :: l).find? p = if p x then some x else l.find? p := by
  cases h : p x <;> simp [h]

/-- The command decoder as tests on the word's number (30_encoding.md R71). -/
theorem decodeCommand_eq (w : Word) :
    decodeCommand w =
      if w.toNat = 0x00000000 then some .nop
      else if w.toNat = 0x01000000 then some .encStart
      else if w.toNat / 2 ^ 8 = 0x020000 then some (.encSym (byteField w))
      else if w.toNat = 0x03000000 then some .encEnd
      else if w.toNat = 0x04000000 then some .encOclr
      else if w.toNat / 2 ^ 10 = 0x044000 then some (.decStart (rootField w))
      else if w.toNat / 2 ^ 8 = 0x120000 then some (.decByte (byteField w))
      else if w.toNat = 0x13000000 then some .decEnd
      else if w.toNat = 0x14000000 then some .decOclr
      else none := by
  have e1 : (0x02000000#32 : Word) = (0x020000#24 : BitVec 24) ++ 0#8 := by decide
  have e2 : (0x11000000#32 : Word) = (0x044000#22 : BitVec 22) ++ 0#10 := by decide
  have e3 : (0x12000000#32 : Word) = (0x120000#24 : BitVec 24) ++ 0#8 := by decide
  unfold decodeCommand commandRows
  simp only [find?_cons_ite, List.find?_nil, beq_iff_eq, e1, e2, e3, match32, match24, match22, apply_ite (Option.map _),
    Option.map_some, Option.map_none]
  rfl

/-! ## The bus decoder -/

theorem busHeader_toNat (w : Bool) (off : Offset) : (busHeader w off).toNat = w.toNat * 2 ^ 18 + off.toNat := by
  unfold busHeader
  rw [BitVec.toNat_append, ← Nat.shiftLeft_add_eq_or_of_lt off.isLt, Nat.shiftLeft_eq]
  cases w <;> rfl

/-- The bus decoder as tests on the header's number {W, off} (30_encoding.md R77). -/
theorem decodeBus_eq (w : Bool) (off : Offset) (v : Word) (h : Nat) (hh : h = w.toNat * 2 ^ 18 + off.toNat) :
    decodeBus w off v =
      if h = 0x00000 then some .rdId
      else if h = 0x00004 then some .rdVersion
      else if h = 0x00008 then some .rdCfgTree
      else if h = 0x0000C then some .rdCfgObuf
      else if h = 0x00010 then some .rdCmd
      else if h = 0x00014 then some .rdFlags
      else if h = 0x00018 then some .rdEncStatus
      else if h = 0x0001C then some .rdEncOcnt
      else if h = 0x00020 then some .rdDecStatus
      else if h = 0x00024 then some .rdDecOcnt
      else if h = 0x00028 then some .rdDecNode
      else if h = 0x40010 then some (.wrCmd v)
      else if h = 0x40014 then some (.wrFlags v)
      else if h = 0x40000 then some (.wrId v)
      else if h = 0x40004 then some (.wrVersion v)
      else if h = 0x40008 then some (.wrCfgTree v)
      else if h = 0x4000C then some (.wrCfgObuf v)
      else if h = 0x40018 then some (.wrEncStatus v)
      else if h = 0x4001C then some (.wrEncOcnt v)
      else if h = 0x40020 then some (.wrDecStatus v)
      else if h = 0x40024 then some (.wrDecOcnt v)
      else if h = 0x40028 then some (.wrDecNode v)
      else if h / 2 ^ 12 = 0x01 ∧ h % 4 = 0 then some (.rdTree (offField 2 10 off))
      else if h / 2 ^ 12 = 0x41 ∧ h % 4 = 0 then some (.wrTree (offField 2 10 off) v)
      else if h / 2 ^ 14 = 0x02 ∧ h % 4 = 0 then some (.rdCtab (offField 6 8 off) (offField 2 4 off))
      else if h / 2 ^ 14 = 0x12 ∧ h % 4 = 0 then some (.wrCtab (offField 6 8 off) (offField 2 4 off) v)
      else if h / 2 ^ 6 = 0x0300 ∧ h % 4 = 0 then some (.rdCtabEos (offField 2 4 off))
      else if h / 2 ^ 6 = 0x1300 ∧ h % 4 = 0 then some (.wrCtabEos (offField 2 4 off) v)
      else if h / 2 ^ 16 = 0x1 ∧ h % 4 = 0 then some (.rdEobuf (offField 2 14 off))
      else if h / 2 ^ 16 = 0x5 ∧ h % 4 = 0 then some (.wrEobuf (offField 2 14 off) v)
      else if h / 2 ^ 16 = 0x2 ∧ h % 4 = 0 then some (.rdDobuf (offField 2 14 off))
      else if h / 2 ^ 16 = 0x6 ∧ h % 4 = 0 then some (.wrDobuf (offField 2 14 off) v)
      else none := by
  have t0 : (0x01000#19 : BitVec 19) = 0x01#7 ++ 0#10 ++ 0#2 := by decide
  have t1 : (0x41000#19 : BitVec 19) = 0x41#7 ++ 0#10 ++ 0#2 := by decide
  have c0 : (0x08000#19 : BitVec 19) = 0x02#5 ++ 0#12 ++ 0#2 := by decide
  have c1 : (0x48000#19 : BitVec 19) = 0x12#5 ++ 0#12 ++ 0#2 := by decide
  have s0 : (0x0C000#19 : BitVec 19) = 0x0300#13 ++ 0#4 ++ 0#2 := by decide
  have s1 : (0x4C000#19 : BitVec 19) = 0x1300#13 ++ 0#4 ++ 0#2 := by decide
  have o0 : (0x10000#19 : BitVec 19) = 1#3 ++ 0#14 ++ 0#2 := by decide
  have o1 : (0x50000#19 : BitVec 19) = 5#3 ++ 0#14 ++ 0#2 := by decide
  have d0 : (0x20000#19 : BitVec 19) = 2#3 ++ 0#14 ++ 0#2 := by decide
  have d1 : (0x60000#19 : BitVec 19) = 6#3 ++ 0#14 ++ 0#2 := by decide
  rw [← busHeader_toNat] at hh
  subst hh
  unfold decodeBus busRows registerRows windowRows
  simp only [List.cons_append, List.nil_append, find?_cons_ite, List.find?_nil, beq_iff_eq, t0, t1, c0, c1, s0, s1,
    o0, o1, d0, d1, match19, matchTree, matchCtab, matchEos, matchObuf, apply_ite (Option.map _), Option.map_some,
    Option.map_none]
  rfl

/-! ## Fields and offsets as numbers -/

theorem offField_eq (lo len : Nat) (off : Offset) : offField lo len off = off.toNat / 2 ^ lo % 2 ^ len := by
  simp [offField, BitVec.extractLsb'_toNat, Nat.shiftRight_eq_div_pow]

theorem rootField_eq (w : Word) : rootField w = w.toNat % 2 ^ 10 := by
  simp [rootField, BitVec.extractLsb'_toNat]

theorem byteField_toNat (w : Word) : (byteField w).toNat = w.toNat % 2 ^ 8 := by
  simp [byteField, BitVec.extractLsb'_toNat]

/-- Three joined fields as a number. -/
theorem append3_toNat {a b c : Nat} (x : BitVec a) (y : BitVec b) (z : BitVec c) :
    (x ++ y ++ z).toNat = (x.toNat * 2 ^ b + y.toNat) * 2 ^ c + z.toNat := by
  rw [BitVec.toNat_append, BitVec.toNat_append, ← Nat.shiftLeft_add_eq_or_of_lt z.isLt,
    ← Nat.shiftLeft_add_eq_or_of_lt y.isLt, Nat.shiftLeft_eq, Nat.shiftLeft_eq]

theorem append2_toNat {a b : Nat} (x : BitVec a) (y : BitVec b) : (x ++ y).toNat = x.toNat * 2 ^ b + y.toNat := by
  rw [BitVec.toNat_append, ← Nat.shiftLeft_add_eq_or_of_lt y.isLt, Nat.shiftLeft_eq]

theorem treeOffset_toNat (i : Nat) (h : i < 1024) : (treeOffset i).toNat = 0x01000 + 4 * i := by
  unfold treeOffset
  rw [append3_toNat]
  simp [Nat.mod_eq_of_lt h]
  omega

theorem ctabOffset_toNat (s w : Nat) (hs : s < 256) (hw : w < 16) :
    (ctabOffset s w).toNat = 0x08000 + 64 * s + 4 * w := by
  unfold ctabOffset
  rw [append2_toNat, append3_toNat]
  simp [Nat.mod_eq_of_lt hs, Nat.mod_eq_of_lt hw]
  omega

theorem ctabEosOffset_toNat (w : Nat) (hw : w < 16) : (ctabEosOffset w).toNat = 0x0C000 + 4 * w := by
  unfold ctabEosOffset
  rw [append3_toNat]
  simp [Nat.mod_eq_of_lt hw]
  omega

theorem eobufOffset_toNat (q : Nat) (h : q < 16384) : (eobufOffset q).toNat = 0x10000 + 4 * q := by
  unfold eobufOffset
  rw [append3_toNat]
  simp [Nat.mod_eq_of_lt h]
  omega

theorem dobufOffset_toNat (q : Nat) (h : q < 16384) : (dobufOffset q).toNat = 0x20000 + 4 * q := by
  unfold dobufOffset
  rw [append3_toNat]
  simp [Nat.mod_eq_of_lt h]
  omega

/-- A command word as a number. -/
theorem commandWord_toNat (op : Byte) (arg : BitVec 24) :
    (commandWord op arg).toNat = op.toNat * 2 ^ 24 + arg.toNat := append2_toNat op arg

/-! ## What each window's offsets decode to -/

/-- One test of a chain of tests that answers something: the test that answers it, or a later one. -/
theorem ite_some_cases {α : Type} {c : Prop} [Decidable c] {x y : α} {r : Option α}
    (h : (if c then some x else r) = some y) : (c ∧ y = x) ∨ r = some y := by
  by_cases hc : c
  · rw [if_pos hc] at h; exact .inl ⟨hc, (Option.some.inj h).symm⟩
  · rw [if_neg hc] at h; exact .inr h

/-- The words the command decoder accepts, and as what. -/
theorem decodeCommand_cases {w : Word} {c : Command} (h : decodeCommand w = some c) :
    (w.toNat = 0x00000000 ∧ c = .nop) ∨ (w.toNat = 0x01000000 ∧ c = .encStart) ∨
    (w.toNat / 2 ^ 8 = 0x020000 ∧ c = .encSym (byteField w)) ∨
    (w.toNat = 0x03000000 ∧ c = .encEnd) ∨ (w.toNat = 0x04000000 ∧ c = .encOclr) ∨
    (w.toNat / 2 ^ 10 = 0x044000 ∧ c = .decStart (rootField w)) ∨
    (w.toNat / 2 ^ 8 = 0x120000 ∧ c = .decByte (byteField w)) ∨
    (w.toNat = 0x13000000 ∧ c = .decEnd) ∨ (w.toNat = 0x14000000 ∧ c = .decOclr) := by
  rw [decodeCommand_eq] at h
  rcases ite_some_cases h with h' | h; · exact .inl h'
  rcases ite_some_cases h with h' | h; · exact .inr (.inl h')
  rcases ite_some_cases h with h' | h; · exact .inr (.inr (.inl h'))
  rcases ite_some_cases h with h' | h; · exact .inr (.inr (.inr (.inl h')))
  rcases ite_some_cases h with h' | h; · exact .inr (.inr (.inr (.inr (.inl h'))))
  rcases ite_some_cases h with h' | h; · exact .inr (.inr (.inr (.inr (.inr (.inl h')))))
  rcases ite_some_cases h with h' | h; · exact .inr (.inr (.inr (.inr (.inr (.inr (.inl h'))))))
  rcases ite_some_cases h with h' | h; · exact .inr (.inr (.inr (.inr (.inr (.inr (.inr (.inl h')))))))
  rcases ite_some_cases h with h' | h; · exact .inr (.inr (.inr (.inr (.inr (.inr (.inr (.inr h')))))))
  cases h

/-- The words the command decoder rejects. -/
theorem decodeCommand_eq_none (w : Word) : decodeCommand w = none ↔
    ¬ (w.toNat = 0x00000000 ∨ w.toNat = 0x01000000 ∨ w.toNat / 2 ^ 8 = 0x020000 ∨ w.toNat = 0x03000000 ∨
      w.toNat = 0x04000000 ∨ w.toNat / 2 ^ 10 = 0x044000 ∨ w.toNat / 2 ^ 8 = 0x120000 ∨ w.toNat = 0x13000000 ∨
      w.toNat = 0x14000000) := by
  constructor
  · intro h hc
    rw [decodeCommand_eq] at h
    split_ifs at h
    omega
  · intro h
    rw [decodeCommand_eq]
    iterate 9 rw [if_neg (by omega)]

theorem decodeBus_tree (w : Bool) (off : Offset) (v : Word) (i : Nat) (hi : i < 1024)
    (h : off.toNat = 0x01000 + 4 * i) :
    decodeBus w off v = some (if w then .wrTree i v else .rdTree i) := by
  have e : offField 2 10 off = i := by rw [offField_eq, h]; omega
  rw [decodeBus_eq w off v _ rfl, e, h]
  cases w <;> simp only [Bool.toNat_true, Bool.toNat_false]
  · iterate 22 rw [if_neg (by omega)]
    rw [if_pos (by omega)]; rfl
  · iterate 23 rw [if_neg (by omega)]
    rw [if_pos (by omega)]; rfl

theorem decodeBus_ctab (w : Bool) (off : Offset) (v : Word) (s j : Nat) (hs : s < 256) (hj : j < 16)
    (h : off.toNat = 0x08000 + 64 * s + 4 * j) :
    decodeBus w off v = some (if w then .wrCtab s j v else .rdCtab s j) := by
  have e : offField 6 8 off = s := by rw [offField_eq, h]; omega
  have e' : offField 2 4 off = j := by rw [offField_eq, h]; omega
  rw [decodeBus_eq w off v _ rfl, e, e', h]
  cases w <;> simp only [Bool.toNat_true, Bool.toNat_false]
  · iterate 24 rw [if_neg (by omega)]
    rw [if_pos (by omega)]; rfl
  · iterate 25 rw [if_neg (by omega)]
    rw [if_pos (by omega)]; rfl

theorem decodeBus_ctabEos (w : Bool) (off : Offset) (v : Word) (j : Nat) (hj : j < 16)
    (h : off.toNat = 0x0C000 + 4 * j) :
    decodeBus w off v = some (if w then .wrCtabEos j v else .rdCtabEos j) := by
  have e' : offField 2 4 off = j := by rw [offField_eq, h]; omega
  rw [decodeBus_eq w off v _ rfl, e', h]
  cases w <;> simp only [Bool.toNat_true, Bool.toNat_false]
  · iterate 26 rw [if_neg (by omega)]
    rw [if_pos (by omega)]; rfl
  · iterate 27 rw [if_neg (by omega)]
    rw [if_pos (by omega)]; rfl

theorem decodeBus_eobuf (w : Bool) (off : Offset) (v : Word) (q : Nat) (hq : q < 16384)
    (h : off.toNat = 0x10000 + 4 * q) :
    decodeBus w off v = some (if w then .wrEobuf q v else .rdEobuf q) := by
  have e : offField 2 14 off = q := by rw [offField_eq, h]; omega
  rw [decodeBus_eq w off v _ rfl, e, h]
  cases w <;> simp only [Bool.toNat_true, Bool.toNat_false]
  · iterate 28 rw [if_neg (by omega)]
    rw [if_pos (by omega)]; rfl
  · iterate 29 rw [if_neg (by omega)]
    rw [if_pos (by omega)]; rfl

theorem decodeBus_dobuf (w : Bool) (off : Offset) (v : Word) (q : Nat) (hq : q < 16384)
    (h : off.toNat = 0x20000 + 4 * q) :
    decodeBus w off v = some (if w then .wrDobuf q v else .rdDobuf q) := by
  have e : offField 2 14 off = q := by rw [offField_eq, h]; omega
  rw [decodeBus_eq w off v _ rfl, e, h]
  cases w <;> simp only [Bool.toNat_true, Bool.toNat_false]
  · iterate 30 rw [if_neg (by omega)]
    rw [if_pos (by omega)]; rfl
  · iterate 31 rw [if_neg (by omega)]
    rw [if_pos (by omega)]; rfl

/-- No region holds a misaligned offset, or one outside the registers and the windows' largest extents. -/
theorem decodeBus_none (w : Bool) (off : Offset) (v : Word)
    (h : off.toNat % 4 ≠ 0 ∨
      ¬ (off.toNat ≤ 0x28 ∨ off.toNat / 2 ^ 12 = 1 ∨ off.toNat / 2 ^ 14 = 2 ∨ off.toNat / 2 ^ 6 = 0x300 ∨
        off.toNat / 2 ^ 16 = 1 ∨ off.toNat / 2 ^ 16 = 2)) :
    decodeBus w off v = none := by
  have := off.isLt
  rw [decodeBus_eq w off v _ rfl]
  cases w <;> simp only [Bool.toNat_true, Bool.toNat_false]
  all_goals
    iterate 32 rw [if_neg (by omega)]

end Sys2Proof.Laws
end

