-- ==== Sys2Proof/Laws/Step.lean ====
section
/-! SUPPORT. Everything a step can do: nothing where nothing is pending, a reset, an instruction of the oldest
operation, or the answer to an operation that is none. -/

namespace Sys2Proof.Laws

open Sys2Proof.Machine

/-- A step with nothing pending. -/
theorem step_idle {s : State} (h : s.pending = []) : step s = .next s := by
  simp only [step, fetch, h]

/-- A step whose oldest input is a reset. -/
theorem step_reset {s : State} {rest : List Input} (h : s.pending = .reset :: rest) :
    step s = .next (takeReset { s with pending := rest }) := by
  simp only [step, fetch, h]

/-- A step whose oldest input is an operation. -/
theorem step_op {s : State} {o : HostOp} {rest : List Input} (h : s.pending = .op o :: rest) :
    step s = runOp o { s with pending := rest } := by
  simp only [step, fetch, h]

/-- The operation of an accepted instruction. -/
theorem runOp_ok {o : HostOp} {i : Instr} (s : State) (h : decode o = .ok i) : runOp o s = countOut i s (exec i s) := by
  simp only [runOp, h]

/-- The answer to an operation that is no instruction: CMD_BAD for a command word, a bus ERROR for a transaction. -/
theorem runOp_error {o : HostOp} {r : Reject} (s : State) (h : decode o = .error r) :
    (∃ w, o = .command w ∧ decodeCommand w = none ∧ runOp o s = .next (illegalCommand s)) ∨
    (∃ off, o = .read off ∧ decodeBus false off 0#32 = none ∧ runOp o s = .next (respondReadError s)) ∨
    (∃ off v, o = .write off v ∧ decodeBus true off v = none ∧ runOp o s = .next (respondWriteError s)) := by
  have e : runOp o s = .next (rejectOp o r s) := by simp only [runOp, h]
  cases o with
  | command w =>
    simp only [decode] at h
    split at h
    · cases h
    · obtain rfl := Except.error.inj h
      exact .inl ⟨w, rfl, by assumption, e⟩
  | read off =>
    simp only [decode] at h
    split at h
    · cases h
    · obtain rfl := Except.error.inj h
      refine .inr (.inl ⟨off, rfl, by assumption, ?_⟩)
      rw [e]; unfold rejectBus; split <;> rfl
  | write off v =>
    simp only [decode] at h
    split at h
    · cases h
    · obtain rfl := Except.error.inj h
      refine .inr (.inr ⟨off, v, rfl, by assumption, ?_⟩)
      rw [e]; unfold rejectBus; split <;> rfl

/-- An operation is one of the effects, with the counters of the free values set after it. -/
theorem runOp_effect (o : HostOp) (s : State) :
    ∃ t m n, runOp o s = .next { t with hostCtr := m, engineCtr := n } ∧ Effect s t := by
  cases h : decode o with
  | ok i =>
    obtain ⟨t, ht, he⟩ := exec_effect i s
    exact ⟨t, _, _, by rw [runOp_ok s h, ht]; rfl, he⟩
  | error r =>
    rcases runOp_error s h with ⟨w, rfl, _, e⟩ | ⟨off, rfl, _, e⟩ | ⟨off, v, rfl, _, e⟩
    · exact ⟨_, _, _, e, .flag .cmdBad⟩
    · exact ⟨_, _, _, e, .answer _⟩
    · exact ⟨_, _, _, e, .answer _⟩

/-- Everything a step can do. -/
theorem step_cases (s : State) :
    (s.pending = [] ∧ step s = .next s) ∨
    (∃ rest, s.pending = .reset :: rest ∧ step s = .next (takeReset { s with pending := rest })) ∨
    (∃ o rest t m n, s.pending = .op o :: rest ∧ step s = .next { t with hostCtr := m, engineCtr := n } ∧
      Effect { s with pending := rest } t) := by
  cases h : s.pending with
  | nil => exact .inl ⟨rfl, step_idle h⟩
  | cons x rest =>
    cases x with
    | reset => exact .inr (.inl ⟨rest, rfl, step_reset h⟩)
    | op o =>
      obtain ⟨t, m, n, ht, he⟩ := runOp_effect o { s with pending := rest }
      exact .inr (.inr ⟨o, rest, t, m, n, rfl, by rw [step_op h, ht], he⟩)

/-- A fetched table word runs the instruction it decodes to. -/
theorem step_withFetchWord {s : State} {nbits w : Nat} {i : Instr} (h : decodeTableWord nbits w = some i) :
    step (s.withFetchWord nbits w) = countOut i s (exec i s) := by
  have hd : decode (hostOpOfTable nbits w) = .ok i := by
    unfold decodeTableWord at h
    split at h
    · rename_i j hj; rw [hj, Option.some.inj h]
    · cases h
  rw [step_op (s := s.withFetchWord nbits w) rfl, runOp_ok _ hd]
  rfl

end Sys2Proof.Laws
end

