-- ==== Sys2Proof/Laws/Payload.lean ====
section
/-! SUPPORT. Bytes and the bits they are packed from (20_memory.md R58, 30_encoding.md R79), and one step of an
issued run of commands. -/

namespace Sys2Proof.Laws

open Sys2Proof.Machine

/-! ## Packing -/

theorem bitsMsbFirst_length (b : Byte) : (bitsMsbFirst b).length = 8 := by simp [bitsMsbFirst]

/-- A byte is packed from its own bits. -/
theorem packByte_bitsMsbFirst (b : Byte) : packByte (bitsMsbFirst b) = b := by
  refine BitVec.eq_of_getLsbD_eq fun k hk => ?_
  have : k = 0 ∨ k = 1 ∨ k = 2 ∨ k = 3 ∨ k = 4 ∨ k = 5 ∨ k = 6 ∨ k = 7 := by omega
  rcases this with rfl | rfl | rfl | rfl | rfl | rfl | rfl | rfl <;>
    simp [packByte, bitsMsbFirst, List.range_succ]

/-- Missing bits are zeros, so appending zeros changes nothing. -/
theorem packByte_zeros (bits : List Bool) (p : Nat) : packByte (bits ++ List.replicate p false) = packByte bits := by
  have h : ∀ i, (bits ++ List.replicate p false).getD i false = bits.getD i false := by
    intro i
    simp only [List.getD_eq_getElem?_getD, List.getElem?_append, List.getElem?_replicate]
    split
    · rfl
    · rename_i hi
      rw [List.getElem?_eq_none (Nat.le_of_not_lt hi)]
      split <;> rfl
  unfold packByte
  simp only [h]

/-- Packing zero bits that fill the last byte packs the same bytes (30_encoding.md R79's padding). -/
theorem packBytes_pad (bits : List Bool) (p n : Nat) (hp : p < 8) (hn : 8 * n = bits.length + p) :
    packBytes (bits ++ List.replicate p false) = packBytes bits := by
  have e1 : ceilDiv (bits ++ List.replicate p false).length 8 = n := by
    simp only [ceilDiv, List.length_append, List.length_replicate]; omega
  have e2 : ceilDiv bits.length 8 = n := by simp only [ceilDiv]; omega
  unfold packBytes
  rw [e1, e2]
  refine List.map_congr_left fun j _ => ?_
  rw [List.drop_append, List.take_append, List.drop_replicate, List.take_replicate, packByte_zeros]

theorem flatMap_bits_length (bs : List Byte) : (bs.flatMap bitsMsbFirst).length = 8 * bs.length := by
  induction bs with
  | nil => rfl
  | cons b bs ih => simp only [List.flatMap_cons, List.length_append, bitsMsbFirst_length, ih, List.length_cons]; omega

/-- Bytes are packed from their own bits, in order. -/
theorem packBytes_bits (bs : List Byte) : packBytes (bs.flatMap bitsMsbFirst) = bs := by
  have hl := flatMap_bits_length bs
  have e : ceilDiv (bs.flatMap bitsMsbFirst).length 8 = bs.length := by rw [hl]; simp only [ceilDiv]; omega
  unfold packBytes
  rw [e]
  refine List.ext_getElem (by simp) fun j h1 h2 => ?_
  have key : ∀ (bs : List Byte) (j : Nat) (h : j < bs.length),
      ((bs.flatMap bitsMsbFirst).drop (8 * j)).take 8 = bitsMsbFirst bs[j] := by
    intro bs
    induction bs with
    | nil => intro j h; exact absurd h (Nat.not_lt_zero j)
    | cons b bs ih =>
      intro j h
      have hb := bitsMsbFirst_length b
      cases j with
      | zero => simp only [Nat.mul_zero, List.drop_zero, List.flatMap_cons, List.getElem_cons_zero, ← hb, List.take_left]
      | succ j =>
        have : 8 * (j + 1) = (bitsMsbFirst b).length + 8 * j := by rw [hb]; omega
        rw [this, List.flatMap_cons, List.drop_append, List.drop_eq_nil_of_le (by omega), List.nil_append,
          Nat.add_sub_cancel_left]
        simpa using ih j (by simpa using h)
  rw [List.getElem_map, List.getElem_range, key bs j h2, packByte_bitsMsbFirst]

/-- The bytes whose bits, read most significant first, are a bit string and zeros that fill the last byte are the
packing of the bit string. -/
theorem packBytes_of_stream {bs : List Byte} {bits : List Bool} {p : Nat} (hp : p < 8)
    (h : bs.flatMap bitsMsbFirst = bits ++ List.replicate p false) : bs = packBytes bits := by
  have hl := flatMap_bits_length bs
  rw [h, List.length_append, List.length_replicate] at hl
  rw [← packBytes_pad bits p bs.length hp hl.symm, ← h, packBytes_bits]

/-! ## One step of an issued run -/

/-- The first instruction of an issued run of commands runs, and the others stay issued. -/
theorem step_issue_command {c : Command} {w : Word} (is : List Instr) (s : State)
    (he : encode c.toInstr = .command w) (hd : decodeCommand w = some c) :
    step (issue (c.toInstr :: is) s) = countOut c.toInstr (issue is s) (exec c.toInstr (issue is s)) := by
  have hp : (issue (c.toInstr :: is) s).pending = .op (.command w) :: (issue is s).pending := by
    simp [issue, he]
  rw [step_op hp, runOp_ok (i := c.toInstr) _ (by simp only [decode, hd])]
  rfl

theorem decode_encSym (b : Byte) : decodeCommand (commandWord 0x02#8 (0#16 ++ b)) = some (.encSym b) := by
  have hb := b.isLt
  have hw : (commandWord 0x02#8 (0#16 ++ b)).toNat = 0x02000000 + b.toNat := by
    rw [commandWord_toNat, append2_toNat]; simp only [BitVec.toNat_ofNat]; omega
  have hf : byteField (commandWord 0x02#8 (0#16 ++ b)) = b := by
    apply BitVec.eq_of_toNat_eq; rw [byteField_toNat, hw]; omega
  rw [decodeCommand_eq, hf]
  repeat rw [if_neg (by omega)]
  rw [if_pos (by omega)]

theorem decode_decByte (b : Byte) : decodeCommand (commandWord 0x12#8 (0#16 ++ b)) = some (.decByte b) := by
  have hb := b.isLt
  have hw : (commandWord 0x12#8 (0#16 ++ b)).toNat = 0x12000000 + b.toNat := by
    rw [commandWord_toNat, append2_toNat]; simp only [BitVec.toNat_ofNat]; omega
  have hf : byteField (commandWord 0x12#8 (0#16 ++ b)) = b := by
    apply BitVec.eq_of_toNat_eq; rw [byteField_toNat, hw]; omega
  rw [decodeCommand_eq, hf]
  repeat rw [if_neg (by omega)]
  rw [if_pos (by omega)]

theorem decode_decStart {r : Nat} (hr : r < 1024) :
    decodeCommand (commandWord 0x11#8 (0#14 ++ BitVec.ofNat 10 r)) = some (.decStart r) := by
  have hw : (commandWord 0x11#8 (0#14 ++ BitVec.ofNat 10 r)).toNat = 0x11000000 + r := by
    rw [commandWord_toNat, append2_toNat]; simp only [BitVec.toNat_ofNat]; omega
  have hf : rootField (commandWord 0x11#8 (0#14 ++ BitVec.ofNat 10 r)) = r := by
    rw [rootField_eq, hw]; omega
  rw [decodeCommand_eq, hf]
  repeat rw [if_neg (by omega)]
  rw [if_pos (by omega)]

theorem step_issue_encSym (b : Byte) (is : List Instr) (s : State) :
    step (issue (.encSym b :: is) s) = countOut (.encSym b) (issue is s) (exec (.encSym b) (issue is s)) :=
  step_issue_command (c := .encSym b) is s rfl (decode_encSym b)

theorem step_issue_decByte (b : Byte) (is : List Instr) (s : State) :
    step (issue (.decByte b :: is) s) = countOut (.decByte b) (issue is s) (exec (.decByte b) (issue is s)) :=
  step_issue_command (c := .decByte b) is s rfl (decode_decByte b)

theorem step_issue_decStart {r : Nat} (hr : r < 1024) (is : List Instr) (s : State) :
    step (issue (.decStart r :: is) s) = countOut (.decStart r) (issue is s) (exec (.decStart r) (issue is s)) :=
  step_issue_command (c := .decStart r) is s rfl (decode_decStart hr)

theorem step_issue_encStart (is : List Instr) (s : State) :
    step (issue (.encStart :: is) s) = countOut .encStart (issue is s) (exec .encStart (issue is s)) :=
  step_issue_command (c := .encStart) is s rfl (by decide)

theorem step_issue_encEnd (is : List Instr) (s : State) :
    step (issue (.encEnd :: is) s) = countOut .encEnd (issue is s) (exec .encEnd (issue is s)) :=
  step_issue_command (c := .encEnd) is s rfl (by decide)

theorem step_issue_decEnd (is : List Instr) (s : State) :
    step (issue (.decEnd :: is) s) = countOut .decEnd (issue is s) (exec .decEnd (issue is s)) :=
  step_issue_command (c := .decEnd) is s rfl (by decide)

end Sys2Proof.Laws
end

