-- ==== Sys2Proof/Laws/PerInstr.lean ====
section
/-! SUPPORT. Laws of the instructions as syntax, one lemma per constructor. -/

namespace Sys2Proof.Laws

/-- An operation matches a row of spec/opcode_table.json: a CMD32 row its command word, a BUS19 row its header
{W, off} (30_encoding.md R70, R77). -/
inductive MatchesRow : HostOp → Nat → Nat → Prop
  | command (w : Word) (mask pattern : Nat) (h : w &&& BitVec.ofNat 32 mask = BitVec.ofNat 32 pattern) :
      MatchesRow (.command w) mask pattern
  | read (off : Offset) (mask pattern : Nat)
      (h : busHeader false off &&& BitVec.ofNat 19 mask = BitVec.ofNat 19 pattern) : MatchesRow (.read off) mask pattern
  | write (off : Offset) (v : Word) (mask pattern : Nat)
      (h : busHeader true off &&& BitVec.ofNat 19 mask = BitVec.ofNat 19 pattern) :
      MatchesRow (.write off v) mask pattern

/-- The mask and match of an instruction's row of spec/opcode_table.json. -/
def tableRow : Instr → Nat × Nat
  | .nop => (0xFFFFFFFF, 0x00000000)
  | .encStart => (0xFFFFFFFF, 0x01000000)
  | .encSym _ => (0xFFFFFF00, 0x02000000)
  | .encEnd => (0xFFFFFFFF, 0x03000000)
  | .encOclr => (0xFFFFFFFF, 0x04000000)
  | .decStart _ => (0xFFFFFC00, 0x11000000)
  | .decByte _ => (0xFFFFFF00, 0x12000000)
  | .decEnd => (0xFFFFFFFF, 0x13000000)
  | .decOclr => (0xFFFFFFFF, 0x14000000)
  | .rdId => (0x7FFFF, 0x00000)
  | .rdVersion => (0x7FFFF, 0x00004)
  | .rdCfgTree => (0x7FFFF, 0x00008)
  | .rdCfgObuf => (0x7FFFF, 0x0000C)
  | .rdCmd => (0x7FFFF, 0x00010)
  | .rdFlags => (0x7FFFF, 0x00014)
  | .rdEncStatus => (0x7FFFF, 0x00018)
  | .rdEncOcnt => (0x7FFFF, 0x0001C)
  | .rdDecStatus => (0x7FFFF, 0x00020)
  | .rdDecOcnt => (0x7FFFF, 0x00024)
  | .rdDecNode => (0x7FFFF, 0x00028)
  | .wrCmd _ => (0x7FFFF, 0x40010)
  | .wrFlags _ => (0x7FFFF, 0x40014)
  | .wrId _ => (0x7FFFF, 0x40000)
  | .wrVersion _ => (0x7FFFF, 0x40004)
  | .wrCfgTree _ => (0x7FFFF, 0x40008)
  | .wrCfgObuf _ => (0x7FFFF, 0x4000C)
  | .wrEncStatus _ => (0x7FFFF, 0x40018)
  | .wrEncOcnt _ => (0x7FFFF, 0x4001C)
  | .wrDecStatus _ => (0x7FFFF, 0x40020)
  | .wrDecOcnt _ => (0x7FFFF, 0x40024)
  | .wrDecNode _ => (0x7FFFF, 0x40028)
  | .rdTree _ => (0x7F003, 0x01000)
  | .wrTree _ _ => (0x7F003, 0x41000)
  | .rdCtab _ _ => (0x7C003, 0x08000)
  | .wrCtab _ _ _ => (0x7C003, 0x48000)
  | .rdCtabEos _ => (0x7FFC3, 0x0C000)
  | .wrCtabEos _ _ => (0x7FFC3, 0x4C000)
  | .rdEobuf _ => (0x70003, 0x10000)
  | .wrEobuf _ _ => (0x70003, 0x50000)
  | .rdDobuf _ => (0x70003, 0x20000)
  | .wrDobuf _ _ => (0x70003, 0x60000)

/-- The encoded instruction matches its row of the table, whatever its operands. -/
def RowMatch.Statement (i : Instr) : Prop := MatchesRow (encode i) (tableRow i).1 (tableRow i).2

theorem treeHeader (w : Bool) (i : Nat) :
    (busHeader w (treeOffset i)).toNat = w.toNat * 2 ^ 18 + 0x01000 + 4 * (i % 1024) := by
  rw [busHeader_toNat]
  unfold treeOffset
  rw [append3_toNat]
  simp
  omega

theorem ctabHeader (w : Bool) (s j : Nat) :
    (busHeader w (ctabOffset s j)).toNat = w.toNat * 2 ^ 18 + 0x08000 + 64 * (s % 256) + 4 * (j % 16) := by
  rw [busHeader_toNat]
  unfold ctabOffset
  rw [append2_toNat, append3_toNat]
  simp
  omega

theorem ctabEosHeader (w : Bool) (j : Nat) :
    (busHeader w (ctabEosOffset j)).toNat = w.toNat * 2 ^ 18 + 0x0C000 + 4 * (j % 16) := by
  rw [busHeader_toNat]
  unfold ctabEosOffset
  rw [append3_toNat]
  simp
  omega

theorem eobufHeader (w : Bool) (q : Nat) :
    (busHeader w (eobufOffset q)).toNat = w.toNat * 2 ^ 18 + 0x10000 + 4 * (q % 16384) := by
  rw [busHeader_toNat]
  unfold eobufOffset
  rw [append3_toNat]
  simp
  omega

theorem dobufHeader (w : Bool) (q : Nat) :
    (busHeader w (dobufOffset q)).toNat = w.toNat * 2 ^ 18 + 0x20000 + 4 * (q % 16384) := by
  rw [busHeader_toNat]
  unfold dobufOffset
  rw [append3_toNat]
  simp
  omega

/-! ## One lemma per constructor -/

theorem RowMatch.nop : RowMatch.Statement .nop :=
  .command _ _ _ (by decide)

theorem RowMatch.encStart : RowMatch.Statement .encStart :=
  .command _ _ _ (by decide)

theorem RowMatch.encSym (byte : Byte) : RowMatch.Statement (.encSym byte) := by
  have h := byte.isLt
  refine .command _ 0xFFFFFF00 0x02000000 ?_
  rw [show BitVec.ofNat 32 0x02000000 = 0x20000#24 ++ 0#8 by decide]
  refine (match24 _ _).2 ?_
  rw [commandWord_toNat, append2_toNat]
  simp
  omega

theorem RowMatch.encEnd : RowMatch.Statement .encEnd :=
  .command _ _ _ (by decide)

theorem RowMatch.encOclr : RowMatch.Statement .encOclr :=
  .command _ _ _ (by decide)

theorem RowMatch.decStart (root : Nat) : RowMatch.Statement (.decStart root) := by
  refine .command _ 0xFFFFFC00 0x11000000 ?_
  rw [show BitVec.ofNat 32 0x11000000 = 0x44000#22 ++ 0#10 by decide]
  refine (match22 _ _).2 ?_
  rw [commandWord_toNat, append2_toNat]
  simp
  omega

theorem RowMatch.decByte (byte : Byte) : RowMatch.Statement (.decByte byte) := by
  have h := byte.isLt
  refine .command _ 0xFFFFFF00 0x12000000 ?_
  rw [show BitVec.ofNat 32 0x12000000 = 0x120000#24 ++ 0#8 by decide]
  refine (match24 _ _).2 ?_
  rw [commandWord_toNat, append2_toNat]
  simp
  omega

theorem RowMatch.decEnd : RowMatch.Statement .decEnd :=
  .command _ _ _ (by decide)

theorem RowMatch.decOclr : RowMatch.Statement .decOclr :=
  .command _ _ _ (by decide)

theorem RowMatch.rdId : RowMatch.Statement .rdId :=
  .read _ _ _ (by decide)

theorem RowMatch.rdVersion : RowMatch.Statement .rdVersion :=
  .read _ _ _ (by decide)

theorem RowMatch.rdCfgTree : RowMatch.Statement .rdCfgTree :=
  .read _ _ _ (by decide)

theorem RowMatch.rdCfgObuf : RowMatch.Statement .rdCfgObuf :=
  .read _ _ _ (by decide)

theorem RowMatch.rdCmd : RowMatch.Statement .rdCmd :=
  .read _ _ _ (by decide)

theorem RowMatch.rdFlags : RowMatch.Statement .rdFlags :=
  .read _ _ _ (by decide)

theorem RowMatch.rdEncStatus : RowMatch.Statement .rdEncStatus :=
  .read _ _ _ (by decide)

theorem RowMatch.rdEncOcnt : RowMatch.Statement .rdEncOcnt :=
  .read _ _ _ (by decide)

theorem RowMatch.rdDecStatus : RowMatch.Statement .rdDecStatus :=
  .read _ _ _ (by decide)

theorem RowMatch.rdDecOcnt : RowMatch.Statement .rdDecOcnt :=
  .read _ _ _ (by decide)

theorem RowMatch.rdDecNode : RowMatch.Statement .rdDecNode :=
  .read _ _ _ (by decide)

theorem RowMatch.wrCmd (v : Word) : RowMatch.Statement (.wrCmd v) :=
  .write _ v 0x7FFFF 0x40010 (by decide)

theorem RowMatch.wrFlags (v : Word) : RowMatch.Statement (.wrFlags v) :=
  .write _ v 0x7FFFF 0x40014 (by decide)

theorem RowMatch.wrId (v : Word) : RowMatch.Statement (.wrId v) :=
  .write _ v 0x7FFFF 0x40000 (by decide)

theorem RowMatch.wrVersion (v : Word) : RowMatch.Statement (.wrVersion v) :=
  .write _ v 0x7FFFF 0x40004 (by decide)

theorem RowMatch.wrCfgTree (v : Word) : RowMatch.Statement (.wrCfgTree v) :=
  .write _ v 0x7FFFF 0x40008 (by decide)

theorem RowMatch.wrCfgObuf (v : Word) : RowMatch.Statement (.wrCfgObuf v) :=
  .write _ v 0x7FFFF 0x4000C (by decide)

theorem RowMatch.wrEncStatus (v : Word) : RowMatch.Statement (.wrEncStatus v) :=
  .write _ v 0x7FFFF 0x40018 (by decide)

theorem RowMatch.wrEncOcnt (v : Word) : RowMatch.Statement (.wrEncOcnt v) :=
  .write _ v 0x7FFFF 0x4001C (by decide)

theorem RowMatch.wrDecStatus (v : Word) : RowMatch.Statement (.wrDecStatus v) :=
  .write _ v 0x7FFFF 0x40020 (by decide)

theorem RowMatch.wrDecOcnt (v : Word) : RowMatch.Statement (.wrDecOcnt v) :=
  .write _ v 0x7FFFF 0x40024 (by decide)

theorem RowMatch.wrDecNode (v : Word) : RowMatch.Statement (.wrDecNode v) :=
  .write _ v 0x7FFFF 0x40028 (by decide)

theorem RowMatch.rdTree (index : Nat) : RowMatch.Statement (.rdTree index) := by
  have h := treeHeader false index
  refine .read _ 0x7F003 0x01000 ?_
  rw [show BitVec.ofNat 19 0x01000 = 0x1#7 ++ 0#10 ++ 0#2 by decide]
  refine (matchTree _ _).2 ?_
  rw [h]
  simp only [Bool.toNat_false, BitVec.toNat_ofNat]
  omega

theorem RowMatch.wrTree (index : Nat) (v : Word) : RowMatch.Statement (.wrTree index v) := by
  have h := treeHeader true index
  refine .write _ v 0x7F003 0x41000 ?_
  rw [show BitVec.ofNat 19 0x41000 = 0x41#7 ++ 0#10 ++ 0#2 by decide]
  refine (matchTree _ _).2 ?_
  rw [h]
  simp only [Bool.toNat_true, BitVec.toNat_ofNat]
  omega

theorem RowMatch.rdCtab (sym : Nat) (word : Nat) : RowMatch.Statement (.rdCtab sym word) := by
  have h := ctabHeader false sym word
  refine .read _ 0x7C003 0x08000 ?_
  rw [show BitVec.ofNat 19 0x08000 = 0x2#5 ++ 0#12 ++ 0#2 by decide]
  refine (matchCtab _ _).2 ?_
  rw [h]
  simp only [Bool.toNat_false, BitVec.toNat_ofNat]
  omega

theorem RowMatch.wrCtab (sym : Nat) (word : Nat) (v : Word) : RowMatch.Statement (.wrCtab sym word v) := by
  have h := ctabHeader true sym word
  refine .write _ v 0x7C003 0x48000 ?_
  rw [show BitVec.ofNat 19 0x48000 = 0x12#5 ++ 0#12 ++ 0#2 by decide]
  refine (matchCtab _ _).2 ?_
  rw [h]
  simp only [Bool.toNat_true, BitVec.toNat_ofNat]
  omega

theorem RowMatch.rdCtabEos (word : Nat) : RowMatch.Statement (.rdCtabEos word) := by
  have h := ctabEosHeader false word
  refine .read _ 0x7FFC3 0x0C000 ?_
  rw [show BitVec.ofNat 19 0x0C000 = 0x300#13 ++ 0#4 ++ 0#2 by decide]
  refine (matchEos _ _).2 ?_
  rw [h]
  simp only [Bool.toNat_false, BitVec.toNat_ofNat]
  omega

theorem RowMatch.wrCtabEos (word : Nat) (v : Word) : RowMatch.Statement (.wrCtabEos word v) := by
  have h := ctabEosHeader true word
  refine .write _ v 0x7FFC3 0x4C000 ?_
  rw [show BitVec.ofNat 19 0x4C000 = 0x1300#13 ++ 0#4 ++ 0#2 by decide]
  refine (matchEos _ _).2 ?_
  rw [h]
  simp only [Bool.toNat_true, BitVec.toNat_ofNat]
  omega

theorem RowMatch.rdEobuf (wordIdx : Nat) : RowMatch.Statement (.rdEobuf wordIdx) := by
  have h := eobufHeader false wordIdx
  refine .read _ 0x70003 0x10000 ?_
  rw [show BitVec.ofNat 19 0x10000 = 0x1#3 ++ 0#14 ++ 0#2 by decide]
  refine (matchObuf _ _).2 ?_
  rw [h]
  simp only [Bool.toNat_false, BitVec.toNat_ofNat]
  omega

theorem RowMatch.wrEobuf (wordIdx : Nat) (v : Word) : RowMatch.Statement (.wrEobuf wordIdx v) := by
  have h := eobufHeader true wordIdx
  refine .write _ v 0x70003 0x50000 ?_
  rw [show BitVec.ofNat 19 0x50000 = 0x5#3 ++ 0#14 ++ 0#2 by decide]
  refine (matchObuf _ _).2 ?_
  rw [h]
  simp only [Bool.toNat_true, BitVec.toNat_ofNat]
  omega

theorem RowMatch.rdDobuf (wordIdx : Nat) : RowMatch.Statement (.rdDobuf wordIdx) := by
  have h := dobufHeader false wordIdx
  refine .read _ 0x70003 0x20000 ?_
  rw [show BitVec.ofNat 19 0x20000 = 0x2#3 ++ 0#14 ++ 0#2 by decide]
  refine (matchObuf _ _).2 ?_
  rw [h]
  simp only [Bool.toNat_false, BitVec.toNat_ofNat]
  omega

theorem RowMatch.wrDobuf (wordIdx : Nat) (v : Word) : RowMatch.Statement (.wrDobuf wordIdx v) := by
  have h := dobufHeader true wordIdx
  refine .write _ v 0x70003 0x60000 ?_
  rw [show BitVec.ofNat 19 0x60000 = 0x6#3 ++ 0#14 ++ 0#2 by decide]
  refine (matchObuf _ _).2 ?_
  rw [h]
  simp only [Bool.toNat_true, BitVec.toNat_ofNat]
  omega

end Sys2Proof.Laws
end

