-- ==== Sys2Proof/Tests/Slice0.lean ====
section
/-! SUPPORT. The model's own tests: the words of 30_encoding.md and spec/opcode_table.json decoded, the vectors of
95_test_vectors.md one step at a time, and a witness for the hypotheses of every obligation that has some. -/

namespace Sys2Proof.Tests

open Sys2Proof.Machine

/-! ## Small states -/

/-- The next state of an outcome. -/
def nextOf (o : Out) : Option State :=
  match o with
  | .next t => some t
  | .fault _ => none
  | .refused _ => none

/-- What an instruction leaves, seen through `f`. -/
def after {α : Type} (i : Instr) (s : State) (f : State → α) : Option α := (nextOf (exec i s)).map f

/-- A state with words written at offsets. -/
def withWords (ws : List (Nat × Word)) (s : State) : State :=
  { s with mem := ws.foldl (fun m p => m.writeWord p.1 p.2) s.mem }

/-- V1's code table: a = "1", b = "00", EOS = "01". -/
def aaabCodes : List (Nat × Word) :=
  [(ctabAddr 0x61 0, 1#32), (ctabAddr 0x61 1, 0x80000000#32), (ctabAddr 0x62 0, 2#32), (ctabAddr 0x62 1, 0#32),
   (ctabAddr 256 0, 2#32), (ctabAddr 256 1, 0x40000000#32)]

/-- V1's tree. -/
def aaabTree : List (Nat × Word) :=
  [(treeAddr 0, 0x00040001#32), (treeAddr 1, 0x00030002#32), (treeAddr 2, 0x80000062#32),
   (treeAddr 3, 0x80000100#32), (treeAddr 4, 0x80000061#32)]

/-- Reset, with V1's table and tree loaded. -/
def loaded : State := withWords aaabTree (withWords aaabCodes State.reset)

/-- An open encoder session with pending bits and a count. -/
def active (acc : Byte) (nb : BitVec 3) (ocnt : BitVec 17) (s : State) : State :=
  { s with enc := { state := .active, err := .none, acc := acc, nb := nb, ocnt := ocnt } }

/-- An open decoder session at root 0, with a cursor and a count. -/
def running (cur : BitVec 10) (ocnt : BitVec 17) (s : State) : State :=
  { s with dec := { state := .run, err := .none, root := 0#10, cur := cur, ocnt := ocnt } }

/-- A state whose parameter OBUF_SIZE is 4. -/
def small (s : State) : State := { s with cfg := { s.cfg with obufSize := 4 } }

/-! ## Well-formedness: an ill-formed term for each check -/

theorem test_wellFormed_root : (Instr.decStart 1023).wellFormed = true ∧ (Instr.decStart 1024).wellFormed = false := by
  decide

theorem test_wellFormed_tree :
    (Instr.rdTree 1024).wellFormed = false ∧ (Instr.wrTree 1024 0#32).wellFormed = false ∧
    (Instr.rdTree 1023).wellFormed = true := by decide

theorem test_wellFormed_ctab_sym :
    (Instr.rdCtab 256 0).wellFormed = false ∧ (Instr.wrCtab 256 0 0#32).wellFormed = false ∧
    (Instr.rdCtab 255 15).wellFormed = true := by decide

theorem test_wellFormed_ctab_word :
    (Instr.rdCtab 0 16).wellFormed = false ∧ (Instr.wrCtab 0 16 0#32).wellFormed = false ∧
    (Instr.rdCtabEos 16).wellFormed = false ∧ (Instr.wrCtabEos 16 0#32).wellFormed = false := by decide

theorem test_wellFormed_obuf :
    (Instr.rdEobuf 16384).wellFormed = false ∧ (Instr.wrEobuf 16384 0#32).wellFormed = false ∧
    (Instr.rdDobuf 16384).wellFormed = false ∧ (Instr.wrDobuf 16384 0#32).wellFormed = false := by decide

/-! ## Decoding: words written out from 30_encoding.md R71 and the rows of spec/opcode_table.json -/

theorem test_decode_commands :
    decode (.command 0b00000000_000000000000000000000000#32) = .ok .nop ∧
    decode (.command 0b00000001_000000000000000000000000#32) = .ok .encStart ∧
    decode (.command 0b00000010_0000000000000000_01100001#32) = .ok (.encSym 0x61#8) ∧
    decode (.command 0b00000011_000000000000000000000000#32) = .ok .encEnd ∧
    decode (.command 0b00000100_000000000000000000000000#32) = .ok .encOclr ∧
    decode (.command 0b00010001_00000000000000_0111111110#32) = .ok (.decStart 0x1FE) ∧
    decode (.command 0b00010010_0000000000000000_10100101#32) = .ok (.decByte 0xA5#8) ∧
    decode (.command 0b00010011_000000000000000000000000#32) = .ok .decEnd ∧
    decode (.command 0b00010100_000000000000000000000000#32) = .ok .decOclr := by
  refine ⟨?_, ?_, ?_, ?_, ?_, ?_, ?_, ?_, ?_⟩ <;> rfl

/-- The corner cases of 41_bus_access.md R106 and R107, and the ends of the reserved ranges of 30_encoding.md R74. -/
theorem test_decode_illegal_commands :
    decodeCommand 0x00000001#32 = none ∧ decodeCommand 0x05000000#32 = none ∧
    decodeCommand 0x10000000#32 = none ∧ decodeCommand 0x15000000#32 = none ∧
    decodeCommand 0xFF000000#32 = none ∧ decodeCommand 0x02000100#32 = none ∧
    decodeCommand 0x11000400#32 = none ∧ decodeCommand 0x12800000#32 = none := by decide

theorem test_decode_register_reads :
    decodeTableWord 24 0b0_000000000000000000 = some .rdId ∧
    decodeTableWord 24 0b0_000000000000000100 = some .rdVersion ∧
    decodeTableWord 24 0b0_000000000000001000 = some .rdCfgTree ∧
    decodeTableWord 24 0b0_000000000000001100 = some .rdCfgObuf ∧
    decodeTableWord 24 0b0_000000000000010000 = some .rdCmd ∧
    decodeTableWord 24 0b0_000000000000010100 = some .rdFlags ∧
    decodeTableWord 24 0b0_000000000000011000 = some .rdEncStatus ∧
    decodeTableWord 24 0b0_000000000000011100 = some .rdEncOcnt ∧
    decodeTableWord 24 0b0_000000000000100000 = some .rdDecStatus ∧
    decodeTableWord 24 0b0_000000000000100100 = some .rdDecOcnt ∧
    decodeTableWord 24 0b0_000000000000101000 = some .rdDecNode := by decide

theorem test_decode_register_writes :
    decode (.write 0x00010#18 5#32) = .ok (.wrCmd 5#32) ∧ decode (.write 0x00014#18 5#32) = .ok (.wrFlags 5#32) ∧
    decode (.write 0x00000#18 5#32) = .ok (.wrId 5#32) ∧ decode (.write 0x00004#18 5#32) = .ok (.wrVersion 5#32) ∧
    decode (.write 0x00008#18 5#32) = .ok (.wrCfgTree 5#32) ∧
    decode (.write 0x0000C#18 5#32) = .ok (.wrCfgObuf 5#32) ∧
    decode (.write 0x00018#18 5#32) = .ok (.wrEncStatus 5#32) ∧
    decode (.write 0x0001C#18 5#32) = .ok (.wrEncOcnt 5#32) ∧
    decode (.write 0x00020#18 5#32) = .ok (.wrDecStatus 5#32) ∧
    decode (.write 0x00024#18 5#32) = .ok (.wrDecOcnt 5#32) ∧
    decode (.write 0x00028#18 5#32) = .ok (.wrDecNode 5#32) := by
  refine ⟨?_, ?_, ?_, ?_, ?_, ?_, ?_, ?_, ?_, ?_, ?_⟩ <;> rfl

theorem test_decode_windows :
    decode (.read 0b000001_1000000000_00#18) = .ok (.rdTree 512) ∧
    decode (.write 0b000001_0000000001_00#18 7#32) = .ok (.wrTree 1 7#32) ∧
    decode (.read 0b0010_01100001_0001_00#18) = .ok (.rdCtab 0x61 1) ∧
    decode (.write 0b0010_11111111_1000_00#18 7#32) = .ok (.wrCtab 255 8 7#32) ∧
    decode (.read 0b001100000000_0000_00#18) = .ok (.rdCtabEos 0) ∧
    decode (.write 0b001100000000_1000_00#18 7#32) = .ok (.wrCtabEos 8 7#32) ∧
    decode (.read 0b01_00000000000001_00#18) = .ok (.rdEobuf 1) ∧
    decode (.write 0b01_11111111111111_00#18 7#32) = .ok (.wrEobuf 16383 7#32) ∧
    decode (.read 0b10_00000000000010_00#18) = .ok (.rdDobuf 2) ∧
    decode (.write 0b10_00000000000000_00#18 7#32) = .ok (.wrDobuf 0 7#32) := by
  refine ⟨?_, ?_, ?_, ?_, ?_, ?_, ?_, ?_, ?_, ?_⟩ <;> rfl

/-- VB7, VB8, VB13, VB15 and VB17: offsets that no row takes. -/
theorem test_decode_rejects :
    decode (.read 0x0002C#18) = .error (.unmapped 0x0002C#18) ∧
    decode (.read 0x00002#18) = .error (.misaligned 0x00002#18) ∧
    decode (.read 0x00012#18) = .error (.misaligned 0x00012#18) ∧
    decode (.read 0x0C040#18) = .error (.unmapped 0x0C040#18) ∧
    decode (.read 0x30000#18) = .error (.unmapped 0x30000#18) ∧
    decode (.write 0x00016#18 0#32) = .error (.misaligned 0x00016#18) := by
  refine ⟨?_, ?_, ?_, ?_, ?_, ?_⟩ <;> rfl

/-- 30_encoding.md R76's examples of node words. -/
theorem test_node_words : nodeWord 1 4 = 0x00040001#32 ∧ leafWord 0x61 = 0x80000061#32 ∧ leafWord 256 = 0x80000100#32 := by
  decide

/-- A word of the table, fetched, is run by the very next step (VB18 as a CMD32 word). -/
theorem test_fetch_runs_first :
    (nextOf (step (State.reset.withFetchWord 32 0x05000000))).map (fun t => (t.flags, t.pending)) =
      some (0b0001#4, []) := by decide

/-! ## Instructions: the vectors of 95_test_vectors.md, one step each -/

/-- VB1 to VB6: the registers after reset. -/
theorem test_register_reads_after_reset :
    after .rdId State.reset State.resp = some (some { status := .okay, data := some 0x48554646#32 }) ∧
    after .rdVersion State.reset State.resp = some (some { status := .okay, data := some 1#32 }) ∧
    after .rdCfgTree State.reset State.resp = some (some { status := .okay, data := some 0x201#32 }) ∧
    after .rdCfgObuf State.reset State.resp = some (some { status := .okay, data := some 0x1000#32 }) ∧
    after .rdCmd State.reset State.resp = some (some { status := .okay, data := some 0#32 }) ∧
    after .rdFlags State.reset State.resp = some (some { status := .okay, data := some 0#32 }) ∧
    after .rdDecNode State.reset State.resp = some (some { status := .okay, data := some 0#32 }) := by decide

/-- VB29 and 41_bus_access.md R101's example. -/
theorem test_rdEncStatus :
    after .rdEncStatus (active 0xE0#8 3#3 0#17 State.reset) State.resp =
      some (some { status := .okay, data := some 0x00E00301#32 }) := by decide

theorem test_rdEncOcnt :
    after .rdEncOcnt (active 0xE0#8 3#3 4096#17 State.reset) State.resp =
      some (some { status := .okay, data := some 0x00001000#32 }) := by decide

/-- VD2b's DEC_STATUS and DEC_NODE. -/
theorem test_rdDecStatus :
    after .rdDecStatus { State.reset with dec := { State.reset.dec with state := .error, err := .treeRange } } State.resp =
      some (some { status := .okay, data := some 0x00000063#32 }) := by decide

theorem test_rdDecNode :
    after .rdDecNode { State.reset with dec := { State.reset.dec with root := 3#10, cur := 512#10 } } State.resp =
      some (some { status := .okay, data := some 0x00030200#32 }) := by decide

theorem test_rdDecOcnt :
    after .rdDecOcnt (running 0#10 65536#17 State.reset) State.resp =
      some (some { status := .okay, data := some 0x00010000#32 }) := by decide

/-- VB18: an illegal word. -/
theorem test_wrCmd_illegal :
    after (.wrCmd 0x05000000#32) State.reset (fun t => (t.flags, t.enc, t.dec)) =
      some (0b0001#4, EncEngine.reset, DecEngine.reset) := by decide

/-- 41_bus_access.md R103's example: the word of ENC_SYM 0x61. -/
theorem test_wrCmd_encSym :
    after (.wrCmd 0x02000061#32) (active 0#8 0#3 0#17 loaded) State.enc =
      some { state := .active, err := .none, acc := 0x80#8, nb := 1#3, ocnt := 0#17 } := by decide

/-- VB22 and VB20. -/
theorem test_wrFlags :
    after (.wrFlags 0x00000001#32) { State.reset with flags := 0x9#4 } State.flags = some 0x8#4 ∧
    after (.wrFlags 0xFFFFFFFE#32) { State.reset with flags := 0x1#4 } State.flags = some 0x1#4 := by decide

/-- 41_bus_access.md R104's example. -/
theorem test_wrEncOcnt : after (.wrEncOcnt 0#32) (active 0#8 0#3 7#17 State.reset) (fun t => t.enc.ocnt) = some 7#17 := by
  decide

/-- VB16. -/
theorem test_wrId :
    after (.wrId 5#32) State.reset State.resp = some (some { status := .okay, data := none }) := by decide

/-- VB9's neighbour VB10, and 41_bus_access.md R108's example. -/
theorem test_rdTree :
    after (.rdTree 4) loaded State.resp = some (some { status := .okay, data := some 0x80000061#32 }) ∧
    after (.rdTree 513) loaded State.resp = some (some { status := .error, data := some 0#32 }) := by decide

/-- VB27. -/
theorem test_wrTree_locked :
    after (.wrTree 0 0x80000061#32) (running 0#10 0#17 loaded) (fun t => (writtenWord t.mem (treeAddr 0), t.flags)) =
      some (some 0x00040001#32, 0b0100#4) := by decide

/-- The reserved bits are stored (30_encoding.md R76). -/
theorem test_wrTree_stores :
    after (.wrTree 512 0xFFFFFE61#32) State.reset (fun t => writtenWord t.mem 0x01800) =
      some (some 0xFFFFFE61#32) := by decide

/-- VB25 and VB11. -/
theorem test_rdCtab :
    after (.rdCtab 0x61 1) loaded State.resp = some (some { status := .okay, data := some 0x80000000#32 }) ∧
    after (.rdCtab 0 9) loaded State.resp = some (some { status := .error, data := some 0#32 }) := by decide

/-- VB23 and VB24. -/
theorem test_wrCtab :
    after (.wrCtab 0 0 0xFFFFFE03#32) State.reset (fun t => ctabLen t 0) = some 3#9 ∧
    after (.wrCtab 0 0 0x000003FF#32) State.reset (fun t => ctabLen t 0) = some 511#9 := by decide

/-- VB26. -/
theorem test_wrCtab_locked :
    after (.wrCtab 0x61 0 5#32) (active 0#8 0#3 0#17 loaded) (fun t => (ctabLen t 0x61, t.flags)) =
      some (1#9, 0b0010#4) := by decide

/-- VB12 and VB13. -/
theorem test_rdCtabEos :
    after (.rdCtabEos 0) State.reset State.resp = some (some { status := .okay, data := some 0#32 }) ∧
    after (.rdCtabEos 9) State.reset State.resp = some (some { status := .error, data := some 0#32 }) := by decide

theorem test_wrCtabEos :
    after (.wrCtabEos 8 0x12345678#32) State.reset (fun t => writtenWord t.mem 0x0C020) =
      some (some 0x12345678#32) := by decide

/-- VB14: the first word past the buffer, and P1's READOUT byte order. -/
theorem test_rdEobuf :
    after (.rdEobuf 1) (withWords [(eobufAddr 4, 0xFB574100#32)] State.reset) State.resp =
      some (some { status := .okay, data := some 0xFB574100#32 }) ∧
    after (.rdEobuf 1024) State.reset State.resp = some (some { status := .error, data := some 0#32 }) := by decide

/-- P1's last line: byte 0 in bits 7:0. -/
theorem test_rdDobuf :
    after (.rdDobuf 0)
        { State.reset with mem := { cells := [(0x20000, 0x61#8), (0x20001, 0x62#8), (0x20002, 0x63#8), (0x20003, 0x64#8)] } }
        State.resp =
      some (some { status := .okay, data := some 0x64636261#32 }) := by decide

/-- VB28. -/
theorem test_wrEobuf :
    after (.wrEobuf 0 0#32) State.reset (fun t => (t.mem.cells, t.resp)) =
      some ([], some { status := .okay, data := none }) := by decide

theorem test_wrDobuf :
    after (.wrDobuf 1024 0#32) State.reset (fun t => (t.mem.cells, t.resp)) =
      some ([], some { status := .error, data := none }) := by decide

/-- VB30. -/
theorem test_nop :
    after .nop State.reset id = some { State.reset with resp := some { status := .okay, data := none } } := by decide

/-- VE10. -/
theorem test_encStart :
    after .encStart { State.reset with enc := { state := .error, err := .overflow, acc := 0xFE#8, nb := 7#3, ocnt := 4#17 } }
        State.enc =
      some { state := .active, err := .none, acc := 0#8, nb := 0#3, ocnt := 0#17 } := by decide

/-- VE4: a code of length 8 from NB = 0. -/
theorem test_encSym_emits :
    after (.encSym 0x33#8)
        (active 0#8 0#3 0#17 (withWords [(ctabAddr 0x33 0, 8#32), (ctabAddr 0x33 1, 0xB3000000#32)] State.reset))
        (fun t => (encStatusWord t.enc, t.enc.ocnt, t.mem.read 0x10000)) =
      some (0x00000001#32, 1#17, some 0xB3#8) := by decide

/-- VE8d: OVERFLOW keeps NB and ACC. -/
theorem test_encSym_overflow :
    after (.encSym 0x61#8) (active 0xFE#8 7#3 4#17 (small loaded)) (fun t => (encStatusWord t.enc, t.enc.ocnt)) =
      some (0x00FE0743#32, 4#17) := by decide

/-- 42_encoder.md R135's example. -/
theorem test_encEnd :
    after .encEnd (active 0xE0#8 5#3 0#17 loaded) (fun t => (encStatusWord t.enc, t.enc.ocnt, t.mem.read 0x10000)) =
      some (0x00000002#32, 1#17, some 0xE2#8) := by decide

/-- VE15: SEQ from DONE. -/
theorem test_encEnd_seq :
    after .encEnd { State.reset with enc := { State.reset.enc with state := .done } } (fun t => encStatusWord t.enc) =
      some 0x00000013#32 := by decide

/-- VE7's ENC_OCLR. -/
theorem test_encOclr :
    after .encOclr (active 0x80#8 1#3 1#17 State.reset) (fun t => (encStatusWord t.enc, t.enc.ocnt)) =
      some (0x00800101#32, 0#17) := by decide

/-- VD2b and VD3. -/
theorem test_decStart :
    after (.decStart 513) (running 3#10 0#17 State.reset) (fun t => (decStatusWord t.dec, decNodeWord t.dec)) =
      some (0x00000063#32, 0x00000003#32) ∧
    after (.decStart 512) State.reset (fun t => (decStatusWord t.dec, decNodeWord t.dec)) =
      some (0x00000001#32, 0x02000200#32) := by decide

/-- VD9: five bytes, and a cursor inside a code. -/
theorem test_decByte_walks :
    after (.decByte 0xE0#8) (running 0#10 0#17 loaded) (fun t => (decNodeWord t.dec, t.dec.ocnt, dobufBytes t 5)) =
      some (0x00000001#32, 5#17, [0x61#8, 0x61#8, 0x61#8, 0x62#8, 0x62#8]) := by decide

/-- VD8c: the first four bytes are discarded. -/
theorem test_decByte_all_or_nothing :
    after (.decByte 0xE0#8) (running 0#10 0#17 (small loaded)) (fun t => (decStatusWord t.dec, t.dec.ocnt, t.mem)) =
      some (0x00000043#32, 0#17, loaded.mem) := by decide

/-- VD9b. -/
theorem test_decEnd :
    after .decEnd (running 1#10 5#17 State.reset) (fun t => (decStatusWord t.dec, t.dec.ocnt)) =
      some (0x00000053#32, 5#17) := by decide

/-- VD14. -/
theorem test_decOclr :
    after .decOclr (running 1#10 5#17 State.reset) (fun t => (decStatusWord t.dec, t.dec.ocnt, decNodeWord t.dec)) =
      some (0x00000001#32, 0#17, 0x00000001#32) := by decide

/-- VB7, VB8, and a write past the last of 513 nodes (20_memory.md R53, R55): a bus ERROR changes nothing. -/
theorem test_bus_error :
    runOp (.read 0x00012#18) State.reset =
      .next { State.reset with resp := some { status := .error, data := some 0#32 } } ∧
    runOp (.write 0x0002C#18 5#32) State.reset =
      .next { State.reset with resp := some { status := .error, data := none } } ∧
    runOp (.write 0x01804#18 5#32) State.reset =
      .next { State.reset with resp := some { status := .error, data := none } } := ⟨rfl, rfl, rfl⟩

/-- 20_memory.md R61: the host's counter advances where a RAM cell is written (a table write carried out), and
neither at a command that emits nothing, nor at an ignored write (41_bus_access.md R104), nor at one past
the window. -/
theorem test_counter :
    ((nextOf (runOp (.write 0x01000#18 0#32) State.reset)).map State.hostCtr,
      (nextOf (runOp (.command 0x020000FF#32) (active 0#8 0#3 0#17 State.reset))).map State.hostCtr,
      (nextOf (runOp (.write 0x00000#18 5#32) State.reset)).map State.hostCtr,
      (nextOf (runOp (.write 0x08024#18 5#32) State.reset)).map State.hostCtr) =
      (some 1, some 0, some 0, some 0) := by decide

/-- VH4: a tie goes to the earlier insertion. -/
theorem test_build_tie : generate (build (scan [0x61#8])) = some [(0x61, [false]), (256, [true])] := by decide

/-- VH2: the tree's image and the payload. -/
theorem test_aaab_image_and_payload :
    treeImage (.node (.node (.leaf 0x62) (.leaf 256)) (.leaf 0x61)) 0 =
      [0x00040001#32, 0x00030002#32, 0x80000062#32, 0x80000100#32, 0x80000061#32] ∧
    payload (treeCode (.node (.node (.leaf 0x62) (.leaf 256)) (.leaf 0x61))) [0x61#8, 0x61#8, 0x61#8, 0x62#8] =
      [0xE2#8] := by decide

/-! ## Witnesses: states and operands that meet the hypotheses of the obligations -/

/-- The open encoder session of the witnesses, at the end of its buffer and with seven bits pending. -/
def encWitness : State := active 0xFE#8 7#3 3#17 (small loaded)

/-- The open decoder session of the witnesses. -/
def decWitness : State := running 0#10 0#17 loaded

theorem witness_inv_reset : Inv State.reset := by
  constructor <;> decide

theorem witness_inv_enc : Inv encWitness ∧ OutputWritten { encWitness with enc := { encWitness.enc with ocnt := 0#17 } } := by
  refine ⟨by constructor <;> decide, fun j h => ?_, fun j h => ?_⟩
  · exact absurd h (Nat.not_lt_zero j)
  · exact absurd h (Nat.not_lt_zero j)

theorem witness_inv_dec : Inv decWitness ∧ CursorInternal decWitness := by
  exact ⟨by constructor <;> decide, fun _ => .inl rfl⟩

theorem witness_ramInWindows : RamInWindows decWitness := by
  unfold RamInWindows inWindow
  decide

/-- The three invariants have something to keep: a step from these states answers a next state that changes them. -/
theorem witness_steps :
    (nextOf (step (issue [.encSym 0x61#8] encWitness))).map (fun t => (t.enc.ocnt, t.mem.read 0x10003)) =
      some (4#17, some 0xFF#8) ∧
    (nextOf (step (issue [.decByte 0xC0#8] decWitness))).map (fun t => (t.dec.cur, t.dec.ocnt, t.mem.read 0x20000)) =
      some (0#10, 5#17, some 0x61#8) := by decide

/-- DecodeOfEncode and EncodeOfDecode, at the largest operands. -/
theorem witness_encoding :
    ((Instr.decStart 1023).wellFormed && (Instr.wrTree 1023 0xFFFFFFFF#32).wellFormed &&
      (Instr.rdCtab 255 15).wellFormed && (Instr.wrCtabEos 15 0#32).wellFormed && (Instr.rdDobuf 16383).wellFormed) = true ∧
    decode (.read 0x2FFFC#18) = .ok (.rdDobuf 16383) := ⟨by decide, rfl⟩

/-- OpcodeMapOfCommandWords: words that match, at the ends of the operand fields, and a row of the table. -/
theorem witness_opcodeMap :
    0x020000FF#32 &&& 0xFFFFFF00#32 = 0x02000000#32 ∧ 0x110003FF#32 &&& 0xFFFFFC00#32 = 0x11000000#32 ∧
    (∃ r ∈ commandRows, 0x120000FF#32 &&& r.mask = r.pattern) :=
  ⟨by decide, by decide, _, .tail _ (.tail _ (.tail _ (.tail _ (.tail _ (.tail _ (.head _)))))), by decide⟩

/-- IllegalCommandWordSetsOnlyCmdBad: each clause of what is illegal, at the ends of its range. -/
theorem witness_illegal :
    ((0x05FFFFFF#32).extractLsb' 24 8 = 0x05#8 ∧ (0x10000000#32).extractLsb' 24 8 = 0x10#8) ∧
    ((0x15000000#32).extractLsb' 24 8 = 0x15#8 ∧ (0xFF000000#32).extractLsb' 24 8 = 0xFF#8) ∧
    ((0x14000001#32).extractLsb' 24 8 = 0x14#8 ∧ (0x14000001#32).extractLsb' 0 24 ≠ 0#24) ∧
    ((0x12000100#32).extractLsb' 24 8 = 0x12#8 ∧ (0x12000100#32).extractLsb' 8 16 ≠ 0#16) ∧
    ((0x11000400#32).extractLsb' 24 8 = 0x11#8 ∧ (0x11000400#32).extractLsb' 10 14 ≠ 0#14) := by decide

/-- TableOffsetsSelectTheirCells: the last node, and words 0, 8, 9 and 15 of the first and the last entry. -/
theorem witness_tableOffsets :
    State.reset.cfg.Legal ∧
    ((0x01800#18).toNat % 4 = 0 ∧ 0x01000 ≤ (0x01800#18).toNat ∧
      (0x01800#18).toNat < 0x01000 + 4 * State.reset.cfg.treeNodes) ∧
    ((0x08024#18).toNat % 4 = 0 ∧ 0x08000 ≤ (0x08024#18).toNat ∧ (0x08024#18).toNat ≤ 0x0C03C ∧
      9 ≤ ((0x08024#18).toNat - 0x08000) % 64 / 4) ∧
    ((0x0C03C#18).toNat % 4 = 0 ∧ (0x0C03C#18).toNat ≤ 0x0C03C ∧ 9 ≤ ((0x0C03C#18).toNat - 0x08000) % 64 / 4) := by
  decide

/-- StepRunsDecodedInstruction. -/
theorem witness_stepRuns :
    (issue [.encStart] State.reset).pending = .op (.command 0x01000000#32) :: [] ∧
    decode (.command 0x01000000#32) = .ok .encStart := ⟨rfl, rfl⟩

/-- ExactlyUnmappedOrMisalignedIsBusError: the last register and the first offset past it, the first and last words
of the windows and the first offsets past them, and a misaligned offset. -/
theorem witness_bus :
    State.reset.cfg.Legal ∧
    (mappedOffset State.reset.cfg 0x00028#18 ∧ ¬ mappedOffset State.reset.cfg 0x0002C#18) ∧
    (mappedOffset State.reset.cfg 0x01800#18 ∧ ¬ mappedOffset State.reset.cfg 0x01804#18) ∧
    (mappedOffset State.reset.cfg 0x0C020#18 ∧ ¬ mappedOffset State.reset.cfg 0x0C024#18) ∧
    (mappedOffset State.reset.cfg 0x10FFC#18 ∧ ¬ mappedOffset State.reset.cfg 0x11000#18) ∧
    (mappedOffset State.reset.cfg 0x20000#18 ∧ ¬ mappedOffset State.reset.cfg 0x1FFFC#18) ∧
    (0x00002#18).toNat % 4 ≠ 0 := by
  unfold mappedOffset inWindow
  exact ⟨by decide, by decide, by decide, by decide, by decide, by decide, by decide⟩

/-- CmdWriteRunsTheCommand. -/
theorem witness_cmdWrite :
    ((Instr.decStart 512).wellFormed = true ∧ encode (.decStart 512) = .command 0x11000200#32) ∧
    decodeCommand 0x05000000#32 = none := ⟨⟨by decide, rfl⟩, by decide⟩

/-- ResetClearsTheBlock. -/
theorem witness_reset :
    ({ decWitness with pending := [.reset] } : State).pending = .reset :: [] := rfl

/-- InvariantsHoldAfterReset: the least and the largest parameters. -/
theorem witness_legal :
    Config.Legal { treeNodes := 1, obufSize := 4 } ∧ Config.Legal { treeNodes := 1024, obufSize := 65536 } := by decide

/-- ReadOnlyWritesAreIgnored, OutputReadsAreLittleEndian: the last word of a buffer and the first past it. -/
theorem witness_output :
    (4 * 1023 < State.reset.cfg.obufSize ∧ State.reset.cfg.obufSize ≤ 4 * 1024) ∧
    ({ State.reset with mem := { cells := [(eobufAddr 3, 1#8), (dobufAddr 3, 2#8)] } } : State).mem.read
      (dobufAddr (4 * 0 + 3)) = some 2#8 := by decide

/-- FlagsChangeOnlyByTheirEvents, each flag's event. -/
theorem witness_flagEvents :
    flagEvent State.reset .cmdBad (.wrCmd 0x05000000#32) = true ∧
    flagEvent encWitness .ctLock (.wrCtab 255 8 0#32) = true ∧ flagEvent encWitness .ctLock (.wrCtabEos 8 0#32) = true ∧
    flagEvent decWitness .trLock (.wrTree 512 0#32) = true ∧
    flagEvent { State.reset with dec := { State.reset.dec with state := .done } } .dxtra (.decByte 0#8) = true ∧
    flagEvent { State.reset with dec := { State.reset.dec with state := .done } } .dxtra (.wrCmd 0x12000000#32) = true := by
  decide

/-- TreeWriteStoresOrLocks and TreeReadReturnsTheNode. -/
theorem witness_tree :
    (512 < decWitness.cfg.treeNodes ∧ decWitness.dec.state = .run) ∧
    (512 < loaded.cfg.treeNodes ∧ loaded.dec.state ≠ .run ∧ writtenWord loaded.mem (treeAddr 4) = some 0x80000061#32) ∧
    loaded.cfg.treeNodes ≤ 513 := by decide

/-- CtabWriteStoresOrLocks and CtabReadReturnsTheEntry, for the sentinel's entry. -/
theorem witness_ctab :
    encWitness.enc.state = .active ∧ loaded.enc.state ≠ .active ∧
    writtenWord loaded.mem (ctabAddr 256 1) = some 0x40000000#32 := by decide

/-- EncSymAppendsTheCode: the code that completes a byte with exactly the room left (42_encoder.md R134). -/
theorem witness_encSym :
    encWitness.enc.state = .active ∧ 1 ≤ (ctabLen encWitness 0x61).toNat ∧ (ctabLen encWitness 0x61).toNat ≤ 256 ∧
    encWitness.enc.ocnt.toNat + (encWitness.enc.nb.toNat + (ctabLen encWitness 0x61).toNat) / 8 =
      encWitness.cfg.obufSize := by decide

/-- EncSymErrorsInOrder and EncEndErrorsInOrder: LEN 0, LEN 257, and one byte too many. -/
theorem witness_encErrors :
    (ctabLen encWitness 0x63).toNat = 0 ∧
    256 < (ctabLen (withWords [(ctabAddr 0x62 0, 257#32), (ctabAddr 256 0, 257#32)] encWitness) 256).toNat ∧
    (let s := active 0xFE#8 7#3 4#17 (small loaded)
     s.cfg.obufSize < s.enc.ocnt.toNat + (s.enc.nb.toNat + (ctabLen s 0x61).toNat) / 8 ∧
     s.cfg.obufSize < s.enc.ocnt.toNat + ceilDiv (s.enc.nb.toNat + (ctabLen s 256).toNat) 8) := by decide

/-- EncEndPadsAndCloses: a sentinel code that ends inside a byte, with exactly the room left. -/
theorem witness_encEnd :
    (let s := active 0xE0#8 5#3 3#17 (small loaded)
     s.enc.state = .active ∧ 1 ≤ (ctabLen s 256).toNat ∧ (ctabLen s 256).toNat ≤ 256 ∧
     s.enc.ocnt.toNat + ceilDiv (s.enc.nb.toNat + (ctabLen s 256).toNat) 8 = s.cfg.obufSize) := by decide

/-- CapacityMarginsSuffice: a buffer with exactly the margins left. -/
theorem witness_margins :
    (active 0#8 0#3 4063#17 loaded).enc.ocnt.toNat + 33 ≤ loaded.cfg.obufSize ∧
    (running 0#10 4088#17 loaded).dec.ocnt.toNat + 8 ≤ loaded.cfg.obufSize ∧
    after (.encSym 0x61#8) (active 0#8 0#3 4063#17 loaded) (fun t => t.enc.err) = some .none := by decide

/-- DecStartOpensOrRaises, DecByteOutsideRun and DecEndInEachState. -/
theorem witness_decStates :
    (loaded.cfg.Legal ∧ 512 < loaded.cfg.treeNodes ∧ loaded.cfg.treeNodes ≤ 513) ∧ loaded.dec.state = .idle ∧
    decWitness.dec.state = .run := by decide

/-- V1's tree as a shape, and TREE holds it. -/
def aaabShape : Shape := .node (.node (.leaf 0x62) (.leaf 256)) (.leaf 0x61)

theorem holds_aaabShape (s : State) (hc : s.cfg = loaded.cfg) (hm : s.mem = loaded.mem) : HoldsShape s 0 aaabShape := by
  refine ⟨by rw [hc]; decide, 0x00040001#32, by rw [hm]; decide, by decide,
    ⟨by rw [hc]; decide, 0x00030002#32, by rw [hm]; decide, by decide,
      ⟨by rw [hc]; decide, 0x80000062#32, by rw [hm]; decide, by decide, by decide⟩,
      ⟨by rw [hc]; decide, 0x80000100#32, by rw [hm]; decide, by decide, by decide⟩⟩,
    ⟨by rw [hc]; decide, 0x80000061#32, by rw [hm]; decide, by decide, by decide⟩⟩

/-- DecByteFollowsTheTree: the tree held, and walks that stop, that end inside a code and that meet a full buffer. -/
theorem witness_decByte :
    HoldsShape decWitness decWitness.dec.root.toNat aaabShape ∧ decWitness.dec.state = .run ∧
    walkShape aaabShape 4096 aaabShape (bitsMsbFirst 0xE2#8) =
      some ([0x61#8, 0x61#8, 0x61#8, 0x62#8], .stopped) ∧
    walkShape aaabShape 4096 aaabShape (bitsMsbFirst 0xE0#8) =
      some ([0x61#8, 0x61#8, 0x61#8, 0x62#8, 0x62#8], .running (.node (.leaf 0x62) (.leaf 256)) true [false]) ∧
    followLinks decWitness decWitness.dec.root [false] = 1#10 ∧
    (walkShape aaabShape 4 aaabShape (bitsMsbFirst 0xE0#8)).map Prod.snd = some (.failed .overflow) :=
  ⟨holds_aaabShape _ rfl rfl, by decide, by decide, by decide, by decide, by decide⟩

/-- DecByteFollowsTheTree: a link past TREE_NODES (VD5) and a symbol above 256 (VD4). -/
theorem witness_decByte_errors :
    (let s := running 0#10 0#17 (withWords [(treeAddr 0, 0x03FF0001#32), (treeAddr 1, 0x80000101#32)] State.reset)
     HoldsShape s 0 (.node (.leaf 257) .outside) ∧
     walkShape (.node (.leaf 257) .outside) 4096 (.node (.leaf 257) .outside) (bitsMsbFirst 0x80#8) =
       some ([], .failed .treeRange) ∧
     walkShape (.node (.leaf 257) .outside) 4096 (.node (.leaf 257) .outside) (bitsMsbFirst 0x00#8) =
       some ([], .failed .treeSym)) := by
  refine ⟨⟨by decide, 0x03FF0001#32, by decide, by decide, ⟨by decide, 0x80000101#32, by decide, by decide, by decide⟩, ?_⟩,
    by decide, by decide⟩
  show (513 : Nat) ≤ (nodeC1 0x03FF0001#32).toNat
  decide

/-- EngineErrorsArePrecise, EngineStateTransitions: an instruction that raises an error, of each engine. -/
theorem witness_raises :
    after (.encSym 0x63#8) encWitness (fun t => (t.enc.state, t.enc.err)) = some (.error, .nosym) ∧
    after .decEnd decWitness (fun t => (t.dec.state, t.dec.err)) = some (.error, .malformed) := by decide

/-- FirstErrorIsKept: an engine in ERROR, and a CMD write that holds no START of it. -/
theorem witness_firstError :
    ({ State.reset with enc := { State.reset.enc with state := .error, err := .seq } } : State).enc.state = .error ∧
    ({ State.reset with dec := { State.reset.dec with state := .error, err := .seq } } : State).dec.state = .error ∧
    decodeCommand 0x03000000#32 = some .encEnd ∧ (Instr.encEnd ≠ .encStart) := by decide

/-- EncoderIgnoresTheDecoder and DecoderIgnoresTheEncoder: two states that differ in the other engine. -/
theorem witness_noninterference :
    (encWitness.cfg = (running 1#10 2#17 encWitness).cfg ∧ encWitness.enc = (running 1#10 2#17 encWitness).enc ∧
      encWitness.dec ≠ (running 1#10 2#17 encWitness).dec) ∧
    (decWitness.dec = (active 0#8 0#3 0#17 decWitness).dec ∧ decWitness.enc ≠ (active 0#8 0#3 0#17 decWitness).enc) := by
  decide

/-- TablesAreFixedDuringASession and OutputBytesKeepTheirValue: sessions with something to write. -/
theorem witness_sessions :
    after (.encSym 0x61#8) encWitness (fun t => (t.mem.read (eobufAddr 3), encWitness.mem.read (eobufAddr 3))) =
      some (some 0xFF#8, none) ∧
    after (.decByte 0x80#8) decWitness (fun t => (t.mem.read (dobufAddr 0), decWitness.mem.read (dobufAddr 0))) =
      some (some 0x61#8, none) := by decide

/-- The host's tree of "aaab". -/
def aaabHTree : HTree := .node (.node (.leaf 0x62) (.leaf 256)) (.leaf 0x61)

/-- EncoderSessionWritesThePayload and RoundTripThroughBothEngines: V1 meets every hypothesis. -/
theorem witness_roundTrip :
    Inv loaded ∧ loaded.pending = [] ∧ HoldsShape loaded 0 aaabHTree.toShape ∧
    (leafSyms aaabHTree).Nodup ∧ 256 ∈ leafSyms aaabHTree ∧
    (∀ sym ∈ leafSyms aaabHTree, sym ≤ 256 ∧ HoldsCode loaded sym (treeCode aaabHTree sym)) ∧
    (∀ b ∈ [0x61#8, 0x61#8, 0x61#8, 0x62#8], b.toNat ∈ leafSyms aaabHTree) ∧
    (payload (treeCode aaabHTree) [0x61#8, 0x61#8, 0x61#8, 0x62#8]).length ≤ loaded.cfg.obufSize := by
  refine ⟨by constructor <;> decide, rfl, holds_aaabShape _ rfl rfl, by decide, by decide, ?_, by decide, by decide⟩
  unfold HoldsCode CodeWritten
  decide

/-- CodesArePrefixFree and CodeLengthAndTreeSizeBounds: VH2's tree is built and has its table. -/
theorem witness_build :
    build (scan [0x61#8, 0x61#8, 0x61#8, 0x62#8]) = some aaabHTree ∧
    generate (some aaabHTree) = some [(0x62, [false, false]), (256, [false, true]), (0x61, [true])] := by decide

end Sys2Proof.Tests
end

/-! # The statements of 10_state.md: the invariants of the block, its flags, its output bytes and its reset state -/

namespace Sys2Proof.Laws

open Sys2Proof.Machine

/-! ## Two states of the same block -/

/-- Two states with the same parameters, engines and memory. -/
structure SameBlock (s t : State) : Prop where
  cfg : t.cfg = s.cfg
  enc : t.enc = s.enc
  dec : t.dec = s.dec
  mem : t.mem = s.mem

theorem inv_congr {s t : State} (h : SameBlock s t) (hi : Inv s) : Inv t := by
  obtain ⟨hcfg, henc, hdec, hmem⟩ := h
  obtain ⟨legal, memWf, accClean, encCount, decCount, rootBound, curBound, encErr, decErr, encCode, decCode⟩ := hi
  rw [← hcfg] at legal encCount decCount rootBound curBound
  rw [← henc] at accClean encCount encErr encCode
  rw [← hdec] at decCount rootBound curBound decErr decCode
  rw [← hmem] at memWf
  exact ⟨legal, memWf, accClean, encCount, decCount, rootBound, curBound, encErr, decErr, encCode, decCode⟩

theorem outputWritten_congr {s t : State} (h : SameBlock s t) (ho : OutputWritten s) : OutputWritten t := by
  unfold OutputWritten
  rw [h.enc, h.dec, h.mem]
  exact ho

theorem cursorInternal_congr {s t : State} (h : SameBlock s t) (hc : CursorInternal s) : CursorInternal t := by
  unfold CursorInternal
  rw [h.dec, h.mem]
  exact hc

/-! ## What appending and the walk leave of the state -/

theorem appended_dec {s t : State} {bits : List Bool} (h : Appended s bits t) : t.dec = s.dec := by rw [h.rest]

theorem walked_cfg {s t : State} {n : Nat} (h : Walked s t n) : t.cfg = s.cfg := by rw [h.rest]

theorem walked_enc {s t : State} {n : Nat} (h : Walked s t n) : t.enc = s.enc := by rw [h.rest]

/-! ## The block's invariant -/

theorem resetWith_inv {c : Config} (hc : c.Legal) : Inv (State.resetWith c) where
  legal := hc
  memWf := ⟨List.Pairwise.nil, nofun⟩
  accClean := fun _ _ _ => BitVec.getLsbD_zero
  encCount := Nat.zero_le _
  decCount := Nat.zero_le _
  rootBound := hc.1.1
  curBound := hc.1.1
  encErr := iff_of_true rfl nofun
  decErr := iff_of_true rfl nofun
  encCode := rfl
  decCode := rfl

/-- Appending keeps the invariant where the bytes emitted fit EOBUF. -/
theorem inv_of_appended {s t : State} {bits : List Bool} (hi : Inv s) (h : Appended s bits t)
    (hfit : t.enc.ocnt.toNat ≤ s.cfg.obufSize) : Inv t := by
  rw [h.rest]
  exact { hi with
    memWf := h.wf hi.memWf
    accClean := h.clean
    encCount := hfit
    encErr := by simpa only [h.err, h.state] using hi.encErr
    encCode := by simpa only [h.err] using hi.encCode }

/-- A walk in RUN keeps the invariant: it ends in RUN or DONE, and ERR stays 0. -/
theorem inv_of_walked {s t : State} {n : Nat} (hi : Inv s) (hrun : s.dec.state = .run) (h : Walked s t n) : Inv t := by
  have hcfg := walked_cfg h
  have herr : t.dec.err = .none := h.err.trans (hi.decErr.2 (by simp [hrun]))
  have hstate : t.dec.state ≠ .error := by
    rcases h.state with e | e <;> simp [e, hrun]
  have hready := h.ready
  rw [h.rest]
  exact { hi with
    memWf := h.wf hi.memWf
    decCount := hcfg ▸ hready.count
    rootBound := hcfg ▸ hready.root
    curBound := hcfg ▸ hready.cur
    decErr := iff_of_true herr hstate
    decCode := congrArg decoderErr herr }

theorem effect_keeps_inv {s t : State} (hi : Inv s) (h : Effect s t) : Inv t := by
  cases h with
  | answer r => exact inv_congr (s := s) ⟨rfl, rfl, rfl, rfl⟩ hi
  | flag f => exact inv_congr (s := s) ⟨rfl, rfl, rfl, rfl⟩ hi
  | clear v => exact inv_congr (s := s) ⟨rfl, rfl, rfl, rfl⟩ hi
  | treeWrite i v => exact { hi with memWf := writeWord_wf _ _ hi.memWf }
  | ctabWrite sym w v => exact { hi with memWf := writeWord_wf _ _ hi.memWf }
  | encOpen =>
    exact { hi with
      accClean := fun _ _ _ => BitVec.getLsbD_zero
      encCount := Nat.zero_le _
      encErr := iff_of_true rfl nofun
      encCode := rfl }
  | encClear => exact { hi with encCount := Nat.zero_le _ }
  | encRaise c _ hc h0 => exact { hi with encErr := iff_of_false h0 (fun h => h rfl), encCode := hc }
  | encAppend b _ _ _ hfit =>
    have ha := appended_sym hi hfit
    have ht := inv_of_appended hi ha (by rw [ha.ocnt, length_codeBits]; exact hfit)
    exact inv_congr (s := appendCode b.toNat s) ⟨rfl, rfl, rfl, rfl⟩ ht
  | encClose u hst _ _ hfit hu =>
    subst hu
    obtain ⟨p, _, hneed, ha, _, _⟩ := appended_end hi hfit
    have hu := inv_of_appended hi ha (by
      rw [ha.ocnt, List.length_append, length_codeBits, List.length_replicate]; omega)
    have herr : (padAndEmit (appendCode 256 s)).enc.err = .none := hu.encErr.2 (by rw [ha.state, hst]; nofun)
    exact { hu with encErr := iff_of_true herr nofun }
  | decOpen root hr =>
    have hroot : (BitVec.ofNat 10 root).toNat < s.cfg.treeNodes := by
      have := hi.legal.1.2
      rw [BitVec.toNat_ofNat]; omega
    exact { hi with
      decCount := Nat.zero_le _
      rootBound := hroot
      curBound := hroot
      decErr := iff_of_true rfl nofun
      decCode := rfl }
  | decClear => exact { hi with decCount := Nat.zero_le _ }
  | decRaise c _ hc h0 => exact { hi with decErr := iff_of_false h0 (fun h => h rfl), decCode := hc }
  | decWalk b u hst hu =>
    have ht := inv_of_walked hi hst (walked_bits (walkReady_of_inv hi) hu)
    exact inv_congr (s := u) ⟨rfl, rfl, rfl, rfl⟩ ht

/-! ## Packaging the step: what every effect keeps, every step keeps -/

/-- A predicate of the block that holds after a reset and that every effect keeps is kept by every step. -/
theorem step_keeps {P : State → Prop} {s t : State}
    (hcongr : ∀ {u v : State}, SameBlock u v → P u → P v)
    (hreset : P (State.resetWith s.cfg))
    (heffect : ∀ {u v : State}, Inv u → P u → Effect u v → P v)
    (hi : Inv s) (hs : P s) (h : step s = .next t) : P t := by
  rcases step_cases s with ⟨_, e⟩ | ⟨rest, _, e⟩ | ⟨o, rest, u, m, n, _, e, he⟩
  · obtain rfl := Host.Outcome.next.inj (e.symm.trans h)
    exact hs
  · obtain rfl := Host.Outcome.next.inj (e.symm.trans h)
    exact hcongr (u := State.resetWith s.cfg) ⟨rfl, rfl, rfl, rfl⟩ hreset
  · obtain rfl := Host.Outcome.next.inj (e.symm.trans h)
    have hfetched : SameBlock s { s with pending := rest } := ⟨rfl, rfl, rfl, rfl⟩
    exact hcongr (u := u) ⟨rfl, rfl, rfl, rfl⟩ (heffect (inv_congr hfetched hi) (hcongr hfetched hs) he)

/-- Settles O15: a reset establishes the invariant, and each effect of an instruction keeps it. -/
theorem stepKeepsTheInvariant : Obligations.StepKeepsTheInvariant := by
  intro s t hi h
  exact step_keeps inv_congr (resetWith_inv hi.legal) (fun hi _ he => effect_keeps_inv hi he) hi hi h

/-! ## What an effect does to memory -/

/-- The bytes of a buffer from index `lo` up to `hi` are emitted: they are written, and every other byte keeps its
value. -/
structure Emits (addr : Nat → Nat) (lo hi : Nat) (s t : State) : Prop where
  same : MemSameOutside (addr lo) (hi - lo) s t
  written : ∀ a, (s.mem.read a).isSome = true → (t.mem.read a).isSome = true
  emitted : ∀ j, lo ≤ j → j < hi → (t.mem.read (addr j)).isSome = true

/-- What an effect can do to memory and the counts: nothing, with no count raised; a word of a table, below the output
buffers; or the output of one engine in a session. -/
inductive MemChange (s t : State) : Prop
  | kept (hmem : t.mem = s.mem) (henc : t.enc.ocnt.toNat ≤ s.enc.ocnt.toNat)
      (hdec : t.dec.ocnt.toNat ≤ s.dec.ocnt.toNat)
  | table (a : Nat) (v : Word) (ha : a + 4 ≤ 0x10000) (hmem : t.mem = s.mem.writeWord a v)
      (henc : t.enc = s.enc) (hdec : t.dec = s.dec)
  | encoder (hst : s.enc.state = .active) (hdec : t.dec = s.dec)
      (hemit : Emits eobufAddr s.enc.ocnt.toNat t.enc.ocnt.toNat s t)
  | decoder (hst : s.dec.state = .run) (henc : t.enc = s.enc)
      (hemit : Emits dobufAddr s.dec.ocnt.toNat t.dec.ocnt.toNat s t)

theorem emits_of_appended {s t : State} {bits : List Bool} (h : Appended s bits t) :
    Emits eobufAddr s.enc.ocnt.toNat t.enc.ocnt.toNat s t where
  same := by rw [h.ocnt, Nat.add_sub_cancel_left]; exact h.same
  written := h.written
  emitted := h.emitted

theorem effect_memChange {s t : State} (hi : Inv s) (h : Effect s t) : MemChange s t := by
  cases h with
  | treeWrite i v hn =>
    exact .table (treeAddr i) v (by have := hi.legal.1.2; unfold treeAddr; omega) rfl rfl rfl
  | ctabWrite sym w v hs hw =>
    exact .table (ctabAddr sym w) (ctabStored w v) (by unfold ctabAddr; omega) rfl rfl rfl
  | encOpen => exact .kept rfl (Nat.zero_le _) (Nat.le_refl _)
  | encClear => exact .kept rfl (Nat.zero_le _) (Nat.le_refl _)
  | decOpen root => exact .kept rfl (Nat.le_refl _) (Nat.zero_le _)
  | decClear => exact .kept rfl (Nat.le_refl _) (Nat.zero_le _)
  | encAppend b hst _ _ hfit =>
    have ha := appended_sym hi hfit
    have hd := appended_dec ha
    have he := emits_of_appended ha
    exact .encoder hst hd ⟨he.same, he.written, he.emitted⟩
  | encClose u hst _ _ hfit hu =>
    subst hu
    obtain ⟨p, _, _, ha, _, _⟩ := appended_end hi hfit
    have hd := appended_dec ha
    have he := emits_of_appended ha
    exact .encoder hst hd ⟨he.same, he.written, he.emitted⟩
  | decWalk b u hst hu =>
    have hw := walked_bits (walkReady_of_inv hi) hu
    have he := walked_enc hw
    exact .decoder hst he ⟨hw.same, hw.written, hw.emitted⟩
  | _ => exact .kept rfl (Nat.le_refl _) (Nat.le_refl _)

/-! ## The output bytes below OCNT are written -/

theorem isSome_read_writeWord {m : Memory} {b : Nat} (a : Nat) (v : Word) (h : (m.read b).isSome = true) :
    ((m.writeWord a v).read b).isSome = true := by
  rw [read_writeWord]
  split_ifs <;> simp [h]

theorem memChange_keeps_outputWritten {s t : State} (h : MemChange s t) (ho : OutputWritten s) : OutputWritten t := by
  obtain ⟨hE, hD⟩ := ho
  cases h with
  | kept hmem henc hdec =>
    rw [OutputWritten, hmem]
    exact ⟨fun j hj => hE j (Nat.lt_of_lt_of_le hj henc), fun j hj => hD j (Nat.lt_of_lt_of_le hj hdec)⟩
  | table a v _ hmem henc hdec =>
    rw [OutputWritten, hmem, henc, hdec]
    exact ⟨fun j hj => isSome_read_writeWord a v (hE j hj), fun j hj => isSome_read_writeWord a v (hD j hj)⟩
  | encoder _ hdec hemit =>
    refine ⟨fun j hj => ?_, fun j hj => hemit.written _ (hD j (hdec ▸ hj))⟩
    by_cases hlow : j < s.enc.ocnt.toNat
    · exact hemit.written _ (hE j hlow)
    · exact hemit.emitted j (Nat.le_of_not_lt hlow) hj
  | decoder _ henc hemit =>
    refine ⟨fun j hj => hemit.written _ (hE j (henc ▸ hj)), fun j hj => ?_⟩
    by_cases hlow : j < s.dec.ocnt.toNat
    · exact hemit.written _ (hD j hlow)
    · exact hemit.emitted j (Nat.le_of_not_lt hlow) hj

theorem resetWith_outputWritten (c : Config) : OutputWritten (State.resetWith c) :=
  ⟨fun j hj => absurd hj (Nat.not_lt_zero j), fun j hj => absurd hj (Nat.not_lt_zero j)⟩

/-- Settles O16: an effect unwrites no byte, and where it raises a count it writes the bytes up to the new one. -/
theorem stepKeepsOutputWritten : Obligations.StepKeepsOutputWritten := by
  intro s t hi ho h
  exact step_keeps outputWritten_congr (resetWith_outputWritten s.cfg)
    (fun hi ho he => memChange_keeps_outputWritten (effect_memChange hi he) ho) hi ho h

/-! ## The cursor stands on no leaf -/

/-- The cursor's word lies below 0x02000, so that a change of memory above leaves it as it is. -/
theorem cursorInternal_of_treeSame {s t : State} (hdec : t.dec = s.dec)
    (hmem : ∀ a, a < 0x02000 → t.mem.read a = s.mem.read a) (h : CursorInternal s) : CursorInternal t := by
  have hword : writtenWord t.mem (treeAddr s.dec.cur.toNat) = writtenWord s.mem (treeAddr s.dec.cur.toNat) :=
    writtenWord_congr fun a _ ha => hmem a (by have := s.dec.cur.isLt; unfold treeAddr at ha; omega)
  unfold CursorInternal
  rw [hdec, hword]
  exact h

theorem appended_treeSame {s t : State} {bits : List Bool} (h : Appended s bits t) (a : Nat) (ha : a < 0x02000) :
    t.mem.read a = s.mem.read a :=
  h.same a (by unfold eobufAddr; omega)

theorem effect_keeps_cursorInternal {s t : State} (hi : Inv s) (hc : CursorInternal s) (h : Effect s t) :
    CursorInternal t := by
  cases h with
  | treeWrite i v _ hst => exact fun hrun => absurd hrun hst
  | ctabWrite sym w v =>
    have hsame : ∀ a, a < 0x02000 → (s.mem.writeWord (ctabAddr sym w) (ctabStored w v)).read a = s.mem.read a :=
      fun a ha => read_writeWord_outside _ _ (by unfold ctabAddr; omega)
    exact cursorInternal_of_treeSame (s := s) rfl hsame hc
  | encAppend b _ _ _ hfit =>
    have ha := appended_sym hi hfit
    have hd := appended_dec ha
    have hm := appended_treeSame ha
    exact cursorInternal_of_treeSame (s := s) hd hm hc
  | encClose u _ _ _ hfit hu =>
    subst hu
    obtain ⟨p, _, _, ha, _, _⟩ := appended_end hi hfit
    have hd := appended_dec ha
    have hm := appended_treeSame ha
    exact cursorInternal_of_treeSame (s := s) hd hm hc
  | decOpen root => exact fun _ => .inl rfl
  | decRaise c => exact nofun
  | decWalk b u hst hu => exact fun _ => (walked_bits (walkReady_of_inv hi) hu).cursor (hc hst)
  | _ => exact hc

theorem resetWith_cursorInternal (c : Config) : CursorInternal (State.resetWith c) := nofun

/-- Settles O18: only DEC_START and the walk place the cursor, the one at the root and the other at no leaf, and in RUN
no TREE word changes. -/
theorem stepKeepsTheCursorOffLeaves : Obligations.StepKeepsTheCursorOffLeaves := by
  intro s t hi hc h
  exact step_keeps cursorInternal_congr (resetWith_cursorInternal s.cfg) effect_keeps_cursorInternal hi hc h

/-! ## Output bytes keep their value -/

/-- Settles O46: of what an effect can do to memory, a table's word lies below the buffers, and each engine's output
lies in its own buffer from the old count up to the new one. -/
theorem outputBytesKeepTheirValue : Obligations.OutputBytesKeepTheirValue := by
  intro i s t hi h j hj
  have hj16 : j < 65536 := Nat.lt_of_lt_of_le hj hi.legal.2.2.2
  have he := effect_of_exec h
  have hcap : t.enc.ocnt.toNat ≤ 65536 := (effect_keeps_inv hi he).encCount.trans (effect_keeps_inv hi he).legal.2.2.2
  cases effect_memChange hi he with
  | kept hmem => exact ⟨fun hne => absurd (by rw [hmem]) hne, fun hne => absurd (by rw [hmem]) hne⟩
  | table a v ha hmem =>
    have hsame : ∀ b, 0x10000 ≤ b → t.mem.read b = s.mem.read b := fun b hb => by
      rw [hmem]; exact read_writeWord_outside _ _ (by omega)
    exact ⟨fun hne => absurd (hsame _ (by unfold eobufAddr; omega)) hne,
      fun hne => absurd (hsame _ (by unfold dobufAddr; omega)) hne⟩
  | encoder hst _ hemit =>
    refine ⟨fun hne => ⟨hst, ?_⟩, fun hne => absurd (hemit.same _ ?_) hne⟩
    · by_contra hout
      exact hne (hemit.same _ (by unfold eobufAddr; omega))
    · unfold eobufAddr dobufAddr; omega
  | decoder hst _ hemit =>
    refine ⟨fun hne => absurd (hemit.same _ ?_) hne, fun hne => ⟨hst, ?_⟩⟩
    · unfold eobufAddr dobufAddr; omega
    · by_contra hout
      exact hne (hemit.same _ (by unfold dobufAddr; omega))

/-! ## What FLAGS holds after an instruction -/

theorem flagValue_withFlag (f g : Flag) (v : BitVec 4) :
    flagValue f (withFlag g v) = (flagValue f v || decide (f = g)) := by
  cases f <;> cases g <;> simp [flagValue, withFlag, Flag.bit]

theorem flagValue_flagsAfterWrite (f : Flag) (w : Word) (v : BitVec 4) :
    flagValue f (flagsAfterWrite w v) = (flagValue f v && !w.getLsbD f.bit) := by
  cases f <;> simp [flagValue, flagsAfterWrite, Flag.bit]

/-- The flags after an instruction, by 10_state.md R27 and 60_exceptions.md R208. -/
def FlagLaw (i : Instr) (s t : State) : Prop :=
  ∀ f : Flag, flagValue f t.flags = ((flagValue f s.flags && !flagCleared f i) || flagEvent s f i)

/-- An instruction that clears no flag, in which no flag's event happens, and that leaves FLAGS. -/
theorem flagLaw_quiet {i : Instr} {s t : State} (hcl : ∀ f, flagCleared f i = false)
    (hev : ∀ f, flagEvent s f i = false) (ht : t.flags = s.flags) : FlagLaw i s t := by
  intro f
  simp [hcl, hev, ht]

/-- An instruction that clears no flag, and in which one flag's event happens where a guard holds. -/
theorem flagLaw_guarded {i : Instr} {s t : State} (g : Flag) (p : Prop) [Decidable p]
    (hcl : ∀ f, flagCleared f i = false) (hev : ∀ f, flagEvent s f i = (decide p && decide (f = g)))
    (ht : t.flags = if p then withFlag g s.flags else s.flags) : FlagLaw i s t := by
  intro f
  by_cases hp : p <;> simp [hcl, hev, ht, hp, flagValue_withFlag]

/-! ### The commands -/

theorem commit_flags {e : Engine} {s : State} {r : Except EngineErr State}
    (h : ∀ t, r = .ok t → t.flags = s.flags) : (commit e s r).flags = s.flags := by
  rcases commit_cases e s r with ⟨t, hr, e'⟩ | ⟨c, _, e'⟩ <;> rw [e']
  · exact h t hr
  · cases e <;> rfl

theorem appendCode_flags (sym : Nat) (s : State) : (appendCode sym s).flags = s.flags := by
  rw [appendCode, (appendBits_rest _ s).1]

theorem padAndEmit_flags (s : State) : (padAndEmit s).flags = s.flags := by
  rw [(padAndEmit_rest s).1]

theorem encSymActive_flags {sym : Nat} {s t : State} (h : encSymActive sym s = .ok t) : t.flags = s.flags := by
  unfold encSymActive at h
  split at h
  · cases h
  · split at h
    · cases h
    · exact (Except.ok.inj h) ▸ appendCode_flags sym s

theorem encEndActive_flags {s t : State} (h : encEndActive s = .ok t) : t.flags = s.flags := by
  unfold encEndActive at h
  split at h
  · cases h
  · split at h
    · cases h
    · exact (Except.ok.inj h) ▸ (padAndEmit_flags _).trans (appendCode_flags sentinel s)

theorem encSym_flags (sym : Nat) (s : State) : (commit .enc s (encSymEffect sym s)).flags = s.flags := by
  unfold encSymEffect
  cases s.enc.state with
  | idle | done | error => rfl
  | active => exact commit_flags fun _ => encSymActive_flags

theorem encEnd_flags (s : State) : (commit .enc s (encEndEffect s)).flags = s.flags := by
  unfold encEndEffect
  cases s.enc.state with
  | idle | done | error => rfl
  | active => exact commit_flags fun _ => encEndActive_flags

theorem decStart_flags (r : Nat) (s : State) : (commit .dec s (decStartEffect r s)).flags = s.flags := by
  unfold decStartEffect
  split <;> rfl

theorem decEnd_flags (s : State) : (commit .dec s (decEndEffect s)).flags = s.flags := by
  unfold decEndEffect
  cases s.dec.state <;> rfl

theorem walk_flags {b : Byte} {s t : State} (h : walkBits 0 (bitsMsbFirst b) s = .ok t) : t.flags = s.flags := by
  rw [(walkBits_keeps h).rest]

/-- DEC_BYTE sets DXTRA in DONE and no flag elsewhere (43_decoder.md R152). -/
theorem decByte_flags (b : Byte) (s : State) : (commit .dec s (decByteEffect b s)).flags =
    if s.dec.state = .done then withFlag .dxtra s.flags else s.flags := by
  unfold decByteEffect
  cases s.dec.state with
  | idle | done | error => rfl
  | run => exact commit_flags fun _ => walk_flags

/-- A command sets no flag, but DEC_BYTE in DONE. -/
theorem command_flagLaw (c : Command) {s t : State} (h : exec c.toInstr s = .next t) : FlagLaw c.toInstr s t := by
  cases c with
  | decByte b =>
    obtain rfl := Host.Outcome.next.inj h
    refine flagLaw_guarded .dxtra (s.dec.state = .done) (fun _ => rfl) (fun f => ?_) (decByte_flags b s)
    cases f <;> simp [flagEvent, Command.toInstr]
  | encSym b =>
    obtain rfl := Host.Outcome.next.inj h
    exact flagLaw_quiet (fun _ => rfl) (fun f => by cases f <;> rfl) (encSym_flags _ s)
  | encEnd =>
    obtain rfl := Host.Outcome.next.inj h
    exact flagLaw_quiet (fun _ => rfl) (fun f => by cases f <;> rfl) (encEnd_flags s)
  | decStart r =>
    obtain rfl := Host.Outcome.next.inj h
    exact flagLaw_quiet (fun _ => rfl) (fun f => by cases f <;> rfl) (decStart_flags r s)
  | decEnd =>
    obtain rfl := Host.Outcome.next.inj h
    exact flagLaw_quiet (fun _ => rfl) (fun f => by cases f <;> rfl) (decEnd_flags s)
  | nop | encStart | encOclr | decOclr =>
    obtain rfl := Host.Outcome.next.inj h
    exact flagLaw_quiet (fun _ => rfl) (fun f => by cases f <;> rfl) rfl

theorem exec_wrCmd_illegal {w : Word} (s : State) (h : decodeCommand w = none) :
    exec (.wrCmd w) s = .next (illegalCommand s) := by
  simp only [exec, execWrCmd, h]

/-- A CMD write of a legal word is the command behind it (41_bus_access.md R103). -/
theorem exec_wrCmd_legal {w : Word} {c : Command} (s : State) (h : decodeCommand w = some c) :
    exec (.wrCmd w) s = exec c.toInstr s := by
  rw [exec_toInstr]
  simp only [exec, execWrCmd, h]

/-- The events of a CMD write are those of the command it issues. -/
theorem flagEvent_wrCmd {w : Word} {c : Command} (s : State) (f : Flag) (h : decodeCommand w = some c) :
    flagEvent s f (.wrCmd w) = flagEvent s f c.toInstr := by
  cases f <;> cases c <;> simp [flagEvent, Command.toInstr, h]

theorem flagCleared_toInstr (f : Flag) (c : Command) : flagCleared f c.toInstr = false := by
  cases c <;> rfl

/-- A CMD write sets CMD_BAD where the word is no command, and the flags of its command where it is one. -/
theorem wrCmd_flagLaw {w : Word} {s t : State} (h : exec (.wrCmd w) s = .next t) : FlagLaw (.wrCmd w) s t := by
  cases hw : decodeCommand w with
  | none =>
    obtain rfl := Host.Outcome.next.inj ((exec_wrCmd_illegal s hw).symm.trans h)
    refine flagLaw_guarded .cmdBad True (fun _ => rfl) (fun f => ?_) rfl
    cases f <;> simp [flagEvent, hw]
  | some c =>
    intro f
    rw [command_flagLaw c ((exec_wrCmd_legal s hw).symm.trans h) f, flagEvent_wrCmd s f hw, flagCleared_toInstr]
    rfl

/-! ### The windows -/

/-- A TREE write sets TR_LOCK in RUN (41_bus_access.md R109). -/
theorem treeWrite_flags (i : Nat) (v : Word) (s : State) :
    (writeWindow (treeMapped s i) (writeTree i v s) s).flags =
      if i < s.cfg.treeNodes ∧ s.dec.state = .run then withFlag .trLock s.flags else s.flags := by
  by_cases hi : i < s.cfg.treeNodes
  · by_cases hr : s.dec.state = .run <;> simp [writeWindow, treeMapped, writeTree, hi, hr]
  · simp [writeWindow, treeMapped, hi]

/-- A CTAB write sets CT_LOCK in ACTIVE (41_bus_access.md R111). -/
theorem ctabWrite_flags (sym w : Nat) (v : Word) (s : State) :
    (writeWindow (ctabMapped sym w) (writeCtab sym w v s) s).flags =
      if sym ≤ 256 ∧ w ≤ 8 ∧ s.enc.state = .active then withFlag .ctLock s.flags else s.flags := by
  by_cases hm : sym ≤ 256 ∧ w ≤ 8
  · by_cases ha : s.enc.state = .active <;> simp [writeWindow, ctabMapped, writeCtab, hm, ha]
  · have hnot : ¬ (sym ≤ 256 ∧ w ≤ 8 ∧ s.enc.state = .active) := fun h => hm ⟨h.1, h.2.1⟩
    have hunmapped : ctabMapped sym w = false := by
      simpa only [ctabMapped, Bool.and_eq_false_iff, decide_eq_false_iff_not, not_and_or] using hm
    simp [writeWindow, hunmapped, hnot]

theorem readWindow_flags (mapped : Bool) (v : Word) (s : State) : (readWindow mapped v s).flags = s.flags := by
  cases mapped <;> rfl

theorem ignoredWindow_flags (mapped : Bool) (v : Word) (s : State) :
    (writeWindow mapped (ignoreWrite v s) s).flags = s.flags := by
  cases mapped <;> rfl

/-! ### Every instruction -/

/-- Every instruction obeys the law of the flags. -/
theorem exec_flagLaw {i : Instr} {s t : State} (h : exec i s = .next t) : FlagLaw i s t := by
  cases i with
  | wrCmd w => exact wrCmd_flagLaw h
  | nop => exact command_flagLaw .nop h
  | encStart => exact command_flagLaw .encStart h
  | encSym b => exact command_flagLaw (.encSym b) h
  | encEnd => exact command_flagLaw .encEnd h
  | encOclr => exact command_flagLaw .encOclr h
  | decStart r => exact command_flagLaw (.decStart r) h
  | decByte b => exact command_flagLaw (.decByte b) h
  | decEnd => exact command_flagLaw .decEnd h
  | decOclr => exact command_flagLaw .decOclr h
  | wrFlags v =>
    obtain rfl := Host.Outcome.next.inj h
    intro f
    have hev : flagEvent s f (.wrFlags v) = false := by cases f <;> rfl
    simp [flagValue_flagsAfterWrite, flagCleared, hev]
  | wrTree i v =>
    obtain rfl := Host.Outcome.next.inj h
    refine flagLaw_guarded .trLock _ (fun _ => rfl) (fun f => ?_) (treeWrite_flags i v s)
    cases f <;> simp [flagEvent]
  | wrCtab sym w v =>
    obtain rfl := Host.Outcome.next.inj h
    refine flagLaw_guarded .ctLock _ (fun _ => rfl) (fun f => ?_) (ctabWrite_flags sym w v s)
    cases f <;> simp [flagEvent]
  | wrCtabEos w v =>
    obtain rfl := Host.Outcome.next.inj h
    refine flagLaw_guarded .ctLock _ (fun _ => rfl) (fun f => ?_) (ctabWrite_flags sentinel w v s)
    cases f <;> simp [flagEvent, sentinel]
  | rdTree | rdCtab | rdCtabEos | rdEobuf | rdDobuf =>
    obtain rfl := Host.Outcome.next.inj h
    exact flagLaw_quiet (fun _ => rfl) (fun f => by cases f <;> rfl) (readWindow_flags _ _ s)
  | wrEobuf _ v | wrDobuf _ v =>
    obtain rfl := Host.Outcome.next.inj h
    exact flagLaw_quiet (fun _ => rfl) (fun f => by cases f <;> rfl) (ignoredWindow_flags _ v s)
  | _ =>
    obtain rfl := Host.Outcome.next.inj h
    exact flagLaw_quiet (fun _ => rfl) (fun f => by cases f <;> rfl) rfl

theorem flagsWord_low (s : State) : (flagsWord s).extractLsb' 0 4 = s.flags := by
  apply BitVec.eq_of_toNat_eq
  simpa [flagsWord] using s.flags.isLt

theorem flagsWord_high (s : State) : (flagsWord s).extractLsb' 4 28 = 0#28 := by
  apply BitVec.eq_of_toNat_eq
  simp only [flagsWord, BitVec.extractLsb'_toNat, BitVec.truncate_eq_setWidth, BitVec.toNat_setWidth,
    BitVec.toNat_ofNat, Nat.shiftRight_eq_div_pow]
  omega

/-- Settles O23: by the law of the flags, one instruction at a time, and the fields of the word a read answers. -/
theorem flagsChangeOnlyByTheirEvents : Obligations.FlagsChangeOnlyByTheirEvents :=
  ⟨fun _ _ _ h => exec_flagLaw h, fun s => ⟨flagsWord s, rfl, flagsWord_low s, flagsWord_high s⟩⟩

/-! ## The state after reset -/

/-- Settles O14: nothing is listed in memory, the counts are 0 and no engine is in a session. -/
theorem invariantsHoldAfterReset : Obligations.InvariantsHoldAfterReset :=
  ⟨fun c hc => ⟨resetWith_inv hc, resetWith_outputWritten c, nofun, resetWith_cursorInternal c⟩,
    resetWith_inv (by decide)⟩

/-- After reset a byte outside the LEN words is unwritten (10_state.md R44). -/
theorem reset_read_none {a : Nat} (h : ¬ (0x08000 ≤ a ∧ a < 0x0C040 ∧ (a - 0x08000) % 64 < 4)) :
    State.reset.mem.read a = none :=
  if_neg h

/-- After reset a byte is 0 or unwritten, so that a LEN word reads 0. -/
theorem reset_read_getD (a : Nat) : (State.reset.mem.read a).getD 0#8 = 0#8 := by
  by_cases h : 0x08000 ≤ a ∧ a < 0x0C040 ∧ (a - 0x08000) % 64 < 4
  · rw [show State.reset.mem.read a = some 0#8 from if_pos h]
    rfl
  · rw [reset_read_none h]
    rfl

theorem reset_ctabLen (sym : Nat) : ctabLen State.reset sym = 0#9 := by
  simp only [ctabLen, Memory.readWord, reset_read_getD]
  decide

/-- Settles O12: the fields are those of `State.resetWith`, and no offset but a LEN word's is written. -/
theorem stateAfterReset : Obligations.StateAfterReset := by
  have hbits : ∀ sym k, sym ≤ 256 → k < 8 → ∀ j, j < 4 →
      State.reset.mem.read (ctabAddr sym (1 + k) + j) = none :=
    fun sym k _ _ j _ => reset_read_none (by unfold ctabAddr; omega)
  have htree : ∀ i j, i < State.reset.cfg.treeNodes → j < 4 → State.reset.mem.read (treeAddr i + j) = none :=
    fun i j hi _ => reset_read_none (by have : i < 513 := hi; unfold treeAddr; omega)
  have hobuf : ∀ j, j < State.reset.cfg.obufSize →
      State.reset.mem.read (eobufAddr j) = none ∧ State.reset.mem.read (dobufAddr j) = none :=
    fun j _ => ⟨reset_read_none (by unfold eobufAddr; omega), reset_read_none (by unfold dobufAddr; omega)⟩
  exact ⟨rfl, rfl, rfl, rfl, rfl, rfl, rfl, rfl, rfl, rfl, rfl, fun sym _ => reset_ctabLen sym, hbits, htree, hobuf,
    rfl, rfl, rfl, rfl⟩

end Sys2Proof.Laws

/-! # The statements of 20_memory.md: the map of offsets, bus errors, reads, and what is written where -/

namespace Sys2Proof.Laws

open Sys2Proof.Machine

/-! ## What a transaction runs -/

theorem decode_read {off : Offset} {i : Instr} (h : decodeBus false off 0#32 = some i) :
    decode (.read off) = .ok i := by
  simp only [decode, h]

theorem decode_write {off : Offset} {v : Word} {i : Instr} (h : decodeBus true off v = some i) :
    decode (.write off v) = .ok i := by
  simp only [decode, h]

/-- A read no row matches is a bus ERROR (20_memory.md R55). -/
theorem runOp_read_none {off : Offset} (s : State) (h : decodeBus false off 0#32 = none) :
    runOp (.read off) s = .next (respondReadError s) := by
  simp only [runOp, decode, h, rejectBus]
  split <;> rfl

/-- A write no row matches is a bus ERROR (20_memory.md R55). -/
theorem runOp_write_none {off : Offset} {v : Word} (s : State) (h : decodeBus true off v = none) :
    runOp (.write off v) s = .next (respondWriteError s) := by
  simp only [runOp, decode, h, rejectBus]
  split <;> rfl

/-- The counters of the free values stand still at an answer of an instruction that stores nothing and in which no
engine reads. -/
theorem countFree_answer {i : Instr} {s : State} (r : Option Response) (hs : storesTable i s = false)
    (hr : readsTables i = false) : countFree i s { s with resp := r } = { s with resp := r } :=
  countFree_idle hs hr rfl rfl

/-! ## A step runs the decoded instruction -/

/-- Settles O7: the step is the instruction, which leaves the counters of the free values, and then they advance. -/
theorem stepRunsDecodedInstruction : Obligations.StepRunsDecodedInstruction := by
  intro s o rest i hp hd
  obtain ⟨t, ht, he⟩ := exec_effect i { s with pending := rest }
  have hown := he.own
  refine ⟨t, ht, ?_⟩
  rw [step_op hp, runOp_ok _ hd, ht, countOut_next, countFree, hown.hostCtr, hown.engineCtr]
  rfl

/-! ## The words of the windows -/

theorem readWindow_mapped {m : Bool} (x : Word) (s : State) (h : m = true) : readWindow m x s = respondData x s :=
  if_pos h

theorem readWindow_unmapped {m : Bool} (x : Word) (s : State) (h : m = false) :
    readWindow m x s = respondReadError s := by
  rw [h]; rfl

theorem writeWindow_unmapped {m : Bool} (t s : State) (h : m = false) :
    writeWindow m t s = respondWriteError s := by
  rw [h]; rfl

theorem treeMapped_iff (s : State) (i : Nat) : treeMapped s i = true ↔ i < s.cfg.treeNodes := decide_eq_true_iff

theorem ctabMapped_iff (sym w : Nat) : ctabMapped sym w = true ↔ sym ≤ 256 ∧ w ≤ 8 := by
  simp [ctabMapped]

theorem obufMapped_iff (s : State) (q : Nat) : obufMapped s q = true ↔ 4 * q < s.cfg.obufSize := decide_eq_true_iff

/-! ## Which cell an offset selects -/

/-- Words 9 to 15 of a CTAB entry are not implemented (20_memory.md R54). -/
theorem ctabMapped_reserved (sym : Nat) {w : Nat} (h : 9 ≤ w) : ctabMapped sym w = false :=
  Bool.eq_false_iff.2 fun hm => by have := (ctabMapped_iff sym w).1 hm; omega

theorem exec_ctabRead_reserved (sym : Nat) {w : Nat} (s : State) (h : 9 ≤ w) :
    exec (ctabRead sym w) s = .next (respondReadError s) := by
  unfold ctabRead
  split
  · exact congrArg _ (readWindow_unmapped _ s (ctabMapped_reserved sentinel h))
  · exact congrArg _ (readWindow_unmapped _ s (ctabMapped_reserved sym h))

theorem exec_ctabWrite_reserved (sym : Nat) {w : Nat} (v : Word) (s : State) (h : 9 ≤ w) :
    exec (ctabWrite sym w v) s = .next (respondWriteError s) := by
  unfold ctabWrite
  split
  · exact congrArg _ (writeWindow_unmapped _ s (ctabMapped_reserved sentinel h))
  · exact congrArg _ (writeWindow_unmapped _ s (ctabMapped_reserved sym h))

/-- The reads of the entries 0 to 256: the last entry's have a form of their own (20_memory.md R54). -/
theorem decodeBus_ctabRead {off : Offset} {sym j : Nat} (v : Word) (hs : sym ≤ 256) (hj : j < 16)
    (h : off.toNat = 0x08000 + 64 * sym + 4 * j) : decodeBus false off v = some (ctabRead sym j) := by
  unfold ctabRead
  split
  · exact decodeBus_ctabEos false off v j hj (by omega)
  · exact decodeBus_ctab false off v sym j (by omega) hj h

/-- The writes of the entries 0 to 256 (20_memory.md R54). -/
theorem decodeBus_ctabWrite {off : Offset} {sym j : Nat} (v : Word) (hs : sym ≤ 256) (hj : j < 16)
    (h : off.toNat = 0x08000 + 64 * sym + 4 * j) : decodeBus true off v = some (ctabWrite sym j v) := by
  unfold ctabWrite
  split
  · exact decodeBus_ctabEos true off v j hj (by omega)
  · exact decodeBus_ctab true off v sym j (by omega) hj h

/-- Settles O5: by the offset as a number, which the decoder's fields take apart. -/
theorem tableOffsetsSelectTheirCells : Obligations.TableOffsetsSelectTheirCells := by
  refine ⟨fun off v s hc hal hlo hhi => ?_, fun off v s hal hlo hhi => ?_⟩
  · have hnodes := hc.1.2
    have hi : (off.toNat - 0x01000) / 4 < 1024 := by omega
    have hoff : off.toNat = 0x01000 + 4 * ((off.toNat - 0x01000) / 4) := by omega
    exact ⟨decode_read (decodeBus_tree false off _ _ hi hoff), decode_write (decodeBus_tree true off v _ hi hoff)⟩
  · intro sym word
    have hs : sym ≤ 256 := by omega
    have hj : word < 16 := by omega
    have hoff : off.toNat = 0x08000 + 64 * sym + 4 * word := by omega
    exact ⟨decode_read (decodeBus_ctabRead _ hs hj hoff), decode_write (decodeBus_ctabWrite v hs hj hoff),
      fun h9 => ⟨exec_ctabRead_reserved sym s h9, exec_ctabWrite_reserved sym v s h9⟩⟩

/-! ## Reads -/

/-- The row of the table that a transaction's instruction comes from. -/
theorem decodeBus_row {w : Bool} {off : Offset} {v : Word} {i : Instr} (h : decodeBus w off v = some i) :
    ∃ r ∈ busRows, busHeader w off &&& r.mask = r.pattern ∧ r.operand off v = i := by
  obtain ⟨r, hr, hi⟩ := Option.map_eq_some_iff.1 h
  exact ⟨r, List.mem_of_find?_eq_some hr, by simpa using List.find?_some hr, hi⟩

/-- Every bus row fixes bit W of the header, to what its instruction's operation is (30_encoding.md R77). -/
theorem busRows_direction : ∀ r ∈ busRows, r.mask.getLsbD 18 = true ∧
    ∀ off v, opIsWrite (encode (r.operand off v)) = r.pattern.getLsbD 18 := by
  intro r hr
  fin_cases hr <;> exact ⟨rfl, fun _ _ => rfl⟩

theorem busHeader_direction (w : Bool) (off : Offset) : (busHeader w off).getLsbD 18 = w := by
  rw [busHeader, BitVec.getLsbD_append]
  simp

/-- A read decodes to a read form and a write to a write form. -/
theorem decodeBus_direction {w : Bool} {off : Offset} {v : Word} {i : Instr} (h : decodeBus w off v = some i) :
    opIsWrite (encode i) = w := by
  obtain ⟨r, hr, hm, rfl⟩ := decodeBus_row h
  obtain ⟨hmask, hop⟩ := busRows_direction r hr
  rw [hop, ← hm, BitVec.getLsbD_and, hmask, busHeader_direction, Bool.and_true]

theorem readWindow_answer (m : Bool) (x : Word) (s : State) : ∃ r, readWindow m x s = { s with resp := some r } := by
  cases m
  · exact ⟨_, rfl⟩
  · exact ⟨_, rfl⟩

/-- What a read form does: it answers, whatever the last response was, stores nothing, and no engine reads in it. -/
structure OnlyAnswers (i : Instr) (s : State) : Prop where
  answers : ∃ r, exec i s = .next { s with resp := some r }
  repeats : ∀ q, exec i { s with resp := q } = exec i s
  stores : storesTable i s = false
  engines : readsTables i = false

theorem read_onlyAnswers {i : Instr} (s : State) (h : opIsWrite (encode i) = false) : OnlyAnswers i s := by
  cases i with
  | rdTree | rdCtab | rdCtabEos | rdEobuf | rdDobuf =>
    exact ⟨(readWindow_answer _ _ s).imp fun _ => congrArg _, fun _ => rfl, rfl, rfl⟩
  | rdId | rdVersion | rdCfgTree | rdCfgObuf | rdCmd | rdFlags => exact ⟨⟨_, rfl⟩, fun _ => rfl, rfl, rfl⟩
  | rdEncStatus | rdEncOcnt | rdDecStatus | rdDecOcnt | rdDecNode => exact ⟨⟨_, rfl⟩, fun _ => rfl, rfl, rfl⟩
  | _ => cases h

/-- A read of the bus is its form's answer, with no counter moved. -/
theorem runOp_read_some {off : Offset} {i : Instr} (s : State) (h : decodeBus false off 0#32 = some i) :
    runOp (.read off) s = exec i s := by
  obtain ⟨⟨r, hr⟩, _, hs, he⟩ := read_onlyAnswers s (decodeBus_direction h)
  rw [runOp_ok s (decode_read h), hr, countOut_next, countFree_answer _ hs he]

/-- Settles O20: a read answers and does nothing else, and its answer does not depend on the last response. -/
theorem readsChangeNothingAndRepeat : Obligations.ReadsChangeNothingAndRepeat := by
  intro off s
  cases h : decodeBus false off 0#32 with
  | none => exact ⟨_, runOp_read_none s h, runOp_read_none _ h⟩
  | some i =>
    obtain ⟨⟨r, hr⟩, hrepeats, _, _⟩ := read_onlyAnswers s (decodeBus_direction h)
    exact ⟨r, (runOp_read_some s h).trans hr, (runOp_read_some _ h).trans ((hrepeats (some r)).trans hr)⟩

/-! ## Reads of the output buffers -/

/-- A written byte of a word is in its place in what the host reads (20_memory.md R57). -/
theorem hostWord_byte {s : State} {a j : Nat} {b : Byte} (hj : j < 4) (h : s.mem.read (a + j) = some b) :
    (hostWord s a).extractLsb' (8 * j) 8 = b := by
  rw [hostWord, readWord_byte _ _ _ _ hj, h]
  rfl

theorem eobufAddr_add (m j : Nat) : eobufAddr (m + j) = eobufAddr m + j := (Nat.add_assoc _ m j).symm

theorem dobufAddr_add (m j : Nat) : dobufAddr (m + j) = dobufAddr m + j := (Nat.add_assoc _ m j).symm

/-- Settles O28: by the bytes of the word a host read finds. -/
theorem outputReadsAreLittleEndian : Obligations.OutputReadsAreLittleEndian := by
  intro q s
  refine ⟨fun hq => ?_, fun hq => ?_⟩
  · have hm := (obufMapped_iff s q).2 hq
    refine ⟨⟨_, congrArg _ (readWindow_mapped (hostWord s (eobufAddr (4 * q))) s hm), fun j b hj hb => ?_⟩,
      ⟨_, congrArg _ (readWindow_mapped (hostWord s (dobufAddr (4 * q))) s hm), fun j b hj hb => ?_⟩⟩
    · exact hostWord_byte hj (eobufAddr_add _ j ▸ hb)
    · exact hostWord_byte hj (dobufAddr_add _ j ▸ hb)
  · have hm : obufMapped s q = false := decide_eq_false (by omega)
    exact ⟨congrArg _ (readWindow_unmapped _ s hm), congrArg _ (readWindow_unmapped _ s hm)⟩

/-! ## Which transactions respond ERROR -/

/-- Where an offset lies: outside the registers and the windows' largest extents or misaligned, at a register, or at
a word of a window. -/
inductive OffsetRegion (off : Offset) : Prop
  | outside (h : off.toNat % 4 ≠ 0 ∨
      ¬ (off.toNat ≤ 0x28 ∨ off.toNat / 2 ^ 12 = 1 ∨ off.toNat / 2 ^ 14 = 2 ∨ off.toNat / 2 ^ 6 = 0x300 ∨
        off.toNat / 2 ^ 16 = 1 ∨ off.toNat / 2 ^ 16 = 2))
  | register (k : Nat) (hk : k < 11) (h : off.toNat = 4 * k)
  | tree (i : Nat) (hi : i < 1024) (h : off.toNat = 0x01000 + 4 * i)
  | ctab (sym j : Nat) (hs : sym ≤ 256) (hj : j < 16) (h : off.toNat = 0x08000 + 64 * sym + 4 * j)
  | eobuf (q : Nat) (hq : q < 16384) (h : off.toNat = 0x10000 + 4 * q)
  | dobuf (q : Nat) (hq : q < 16384) (h : off.toNat = 0x20000 + 4 * q)

theorem offsetRegion (off : Offset) : OffsetRegion off := by
  by_cases hout : off.toNat % 4 ≠ 0 ∨
      ¬ (off.toNat ≤ 0x28 ∨ off.toNat / 2 ^ 12 = 1 ∨ off.toNat / 2 ^ 14 = 2 ∨ off.toNat / 2 ^ 6 = 0x300 ∨
        off.toNat / 2 ^ 16 = 1 ∨ off.toNat / 2 ^ 16 = 2)
  · exact .outside hout
  obtain ⟨hal, hin⟩ := not_or.1 hout
  have hal := not_not.1 hal
  rcases not_not.1 hin with h | h | h | h | h | h
  · exact .register (off.toNat / 4) (by omega) (by omega)
  · exact .tree ((off.toNat - 0x01000) / 4) (by omega) (by omega)
  · exact .ctab ((off.toNat - 0x08000) / 64) ((off.toNat - 0x08000) % 64 / 4) (by omega) (by omega) (by omega)
  · exact .ctab 256 ((off.toNat - 0x0C000) / 4) (by omega) (by omega) (by omega)
  · exact .eobuf ((off.toNat - 0x10000) / 4) (by omega) (by omega)
  · exact .dobuf ((off.toNat - 0x20000) / 4) (by omega) (by omega)

/-- The two transactions at an offset answer ERROR and change nothing where it is not mapped, and OKAY where it is. -/
def BusAnswers (s : State) (off : Offset) (v : Word) (mapped : Bool) : Prop :=
  (mapped = false →
    runOp (.read off) s = .next (respondReadError s) ∧ runOp (.write off v) s = .next (respondWriteError s)) ∧
  (mapped = true →
    (∃ t d, runOp (.read off) s = .next t ∧ t.resp = some { status := .okay, data := some d }) ∧
    (∃ t, runOp (.write off v) s = .next t ∧ t.resp = some { status := .okay, data := none }))

/-- A read form that answers data and a write form that answers OKAY. -/
theorem busAnswers_okay {s : State} {off : Offset} {v : Word} {rd wr : Instr} {d : Word}
    (hrd : decodeBus false off 0#32 = some rd) (hwr : decodeBus true off v = some wr)
    (hread : exec rd s = .next (respondData d s))
    (hwrite : ∃ t, exec wr s = .next t ∧ t.resp = some { status := .okay, data := none }) :
    BusAnswers s off v true := by
  obtain ⟨t, ht, hresp⟩ := hwrite
  have hrun : runOp (.write off v) s = .next (countFree wr s t) := by
    rw [runOp_ok s (decode_write hwr), ht, countOut_next]
  exact ⟨nofun, fun _ => ⟨⟨_, d, (runOp_read_some s hrd).trans hread, rfl⟩, ⟨_, hrun, hresp⟩⟩⟩

/-- The two forms of a window's word answer as the word is implemented or not: a write that stores is to a word that
is. -/
theorem busAnswers_window {s : State} {off : Offset} {v : Word} {rd wr : Instr} {m : Bool} {x : Word} {u : State}
    (hrd : decodeBus false off 0#32 = some rd) (hwr : decodeBus true off v = some wr)
    (hread : exec rd s = .next (readWindow m x s)) (hwrite : exec wr s = .next (writeWindow m u s))
    (hs : storesTable wr s = true → m = true) (hr : readsTables wr = false) : BusAnswers s off v m := by
  cases m with
  | true => exact busAnswers_okay hrd hwr hread ⟨_, hwrite, rfl⟩
  | false =>
    have hidle : storesTable wr s = false := Bool.eq_false_iff.2 fun h => Bool.false_ne_true (hs h)
    have hrun : runOp (.write off v) s = .next (respondWriteError s) := by
      rw [runOp_ok s (decode_write hwr), hwrite, countOut_next]
      exact congrArg _ (countFree_answer _ hidle hr)
    exact ⟨fun _ => ⟨(runOp_read_some s hrd).trans hread, hrun⟩, nofun⟩

/-- A CMD write responds OKAY whatever the word (41_bus_access.md R103). -/
theorem exec_wrCmd_okay (v : Word) (s : State) :
    ∃ t, exec (.wrCmd v) s = .next t ∧ t.resp = some { status := .okay, data := none } := by
  cases hw : decodeCommand v with
  | none => exact ⟨_, exec_wrCmd_illegal s hw, rfl⟩
  | some c => rw [exec_wrCmd_legal s hw]; cases c <;> exact ⟨_, rfl, rfl⟩

/-- The eleven registers answer OKAY to a read and to a write (41_bus_access.md R101 to R105). -/
theorem busAnswers_register (s : State) {off : Offset} (v : Word) {k : Nat} (hk : k < 11) (h : off.toNat = 4 * k) :
    BusAnswers s off v true := by
  obtain rfl : off = BitVec.ofNat 18 (4 * k) := BitVec.eq_of_toNat_eq (by rw [BitVec.toNat_ofNat]; omega)
  interval_cases k
  pick_goal 5 -- CMD, at 0x00010
  · exact busAnswers_okay (rd := .rdCmd) (wr := .wrCmd v) rfl rfl rfl (exec_wrCmd_okay v s)
  all_goals exact busAnswers_okay rfl rfl rfl ⟨_, rfl, rfl⟩

/-- Every offset is mapped or not by the map, and answers so. -/
theorem busAnswers_map (s : State) (off : Offset) (v : Word) (hc : s.cfg.Legal) :
    ∃ m, BusAnswers s off v m ∧ (m = true ↔ off.toNat % 4 = 0 ∧ mappedOffset s.cfg off) := by
  obtain ⟨⟨_, hnodes⟩, hmod, _, hobuf⟩ := hc
  unfold mappedOffset inWindow
  cases offsetRegion off with
  | outside h =>
    have hrd := decodeBus_none false off 0#32 h
    have hwr := decodeBus_none true off v h
    refine ⟨false, ⟨fun _ => ⟨runOp_read_none s hrd, runOp_write_none s hwr⟩, nofun⟩, ?_⟩
    simp only [Bool.false_eq_true, false_iff]
    omega
  | register k hk h => exact ⟨true, busAnswers_register s v hk h, by simp only [true_iff]; omega⟩
  | tree i hi h =>
    exact ⟨treeMapped s i, busAnswers_window (decodeBus_tree false off _ i hi h) (decodeBus_tree true off v i hi h)
      rfl rfl (fun hs => (Bool.and_eq_true_iff.1 hs).1) rfl, by rw [treeMapped_iff]; omega⟩
  | ctab sym j hs hj h =>
    refine ⟨ctabMapped sym j, ?_, by rw [ctabMapped_iff]; omega⟩
    by_cases h256 : sym = 256
    · subst h256
      exact busAnswers_window (decodeBus_ctabEos false off _ j hj h) (decodeBus_ctabEos true off v j hj h)
        rfl rfl (fun hs => (Bool.and_eq_true_iff.1 hs).1) rfl
    · have hb : sym < 256 := by omega
      exact busAnswers_window (decodeBus_ctab false off _ sym j hb hj h) (decodeBus_ctab true off v sym j hb hj h)
        rfl rfl (fun hs => (Bool.and_eq_true_iff.1 hs).1) rfl
  | eobuf q hq h =>
    exact ⟨obufMapped s q, busAnswers_window (decodeBus_eobuf false off _ q hq h) (decodeBus_eobuf true off v q hq h)
      rfl rfl nofun rfl, by rw [obufMapped_iff]; omega⟩
  | dobuf q hq h =>
    exact ⟨obufMapped s q, busAnswers_window (decodeBus_dobuf false off _ q hq h) (decodeBus_dobuf true off v q hq h)
      rfl rfl nofun rfl, by rw [obufMapped_iff]; omega⟩

/-- Settles O8: each region of offsets answers as the map says. -/
theorem exactlyUnmappedOrMisalignedIsBusError : Obligations.ExactlyUnmappedOrMisalignedIsBusError := by
  intro s off v hc
  obtain ⟨m, ⟨herr, hok⟩, hm⟩ := busAnswers_map s off v hc
  refine ⟨fun hbad => herr (Bool.eq_false_iff.2 fun h => ?_), fun hal hin => hok (hm.2 ⟨hal, hin⟩)⟩
  obtain ⟨hal, hin⟩ := hm.1 h
  exact hbad.elim (fun hne => hne hal) (fun hne => hne hin)

/-! ## Where an effect writes -/

/-- The `n` bytes from `lo` on that an effect may write: none, a TREE word outside RUN, a CTAB word outside ACTIVE, or
bytes of an output buffer. -/
inductive WriteRegion (s : State) (lo n : Nat) : Prop
  | nothing (hn : n = 0)
  | tree (i : Nat) (hi : i < s.cfg.treeNodes) (hst : s.dec.state ≠ .run) (hlo : lo = treeAddr i) (hn : n = 4)
  | ctab (sym w : Nat) (hs : sym ≤ 256) (hw : w ≤ 8) (hst : s.enc.state ≠ .active) (hlo : lo = ctabAddr sym w)
      (hn : n = 4)
  | eobuf (j : Nat) (h : j + n ≤ s.cfg.obufSize) (hlo : lo = eobufAddr j)
  | dobuf (j : Nat) (h : j + n ≤ s.cfg.obufSize) (hlo : lo = dobufAddr j)

/-- No byte but the `n` from `lo` on changes or becomes listed. -/
structure WritesOnly (lo n : Nat) (s t : State) : Prop where
  same : MemSameOutside lo n s t
  cells : ∀ c ∈ t.mem.cells, c ∈ s.mem.cells ∨ (lo ≤ c.1 ∧ c.1 < lo + n)

/-- Of the state after, memory alone counts. -/
theorem writesOnly_congr {lo n : Nat} {s t u : State} (h : WritesOnly lo n s t) (hm : u.mem = t.mem) :
    WritesOnly lo n s u where
  same := fun a ha => by rw [hm]; exact h.same a ha
  cells := fun c hc => h.cells c (hm ▸ hc)

theorem writesOnly_nothing {s t : State} (h : t.mem = s.mem) : WritesOnly 0 0 s t where
  same := fun _ _ => by rw [h]
  cells := fun _ hc => .inl (h ▸ hc)

theorem writesOnly_word {s t : State} {a : Nat} {v : Word} (h : t.mem = s.mem.writeWord a v) : WritesOnly a 4 s t where
  same := fun _ hb => by rw [h]; exact read_writeWord_outside _ _ hb
  cells := fun _ hc => (mem_writeWord_cells (h ▸ hc)).symm

theorem writesOnly_appended {s t : State} {bits : List Bool} (h : Appended s bits t) :
    WritesOnly (eobufAddr s.enc.ocnt.toNat) (t.enc.ocnt.toNat - s.enc.ocnt.toNat) s t where
  same := (emits_of_appended h).same
  cells := fun c hc => (h.cells c hc).imp_right fun hb => by have := h.ocnt; unfold eobufAddr at *; omega

theorem writesOnly_walked {s t : State} {n : Nat} (h : Walked s t n) :
    WritesOnly (dobufAddr s.dec.ocnt.toNat) (t.dec.ocnt.toNat - s.dec.ocnt.toNat) s t where
  same := h.same
  cells := fun c hc => (h.cells c hc).imp_right fun hb => by have := h.least; unfold dobufAddr at *; omega

theorem effect_writesOnly {s t : State} (hi : Inv s) (h : Effect s t) :
    ∃ lo n, WriteRegion s lo n ∧ WritesOnly lo n s t := by
  have ht := effect_keeps_inv hi h
  have henc := h.own.cfg ▸ ht.encCount
  have hdec := h.own.cfg ▸ ht.decCount
  have hfits : ∀ {a b : Nat}, a ≤ s.cfg.obufSize → b ≤ s.cfg.obufSize → a + (b - a) ≤ s.cfg.obufSize := by
    omega
  cases h with
  | treeWrite i v hn hst => exact ⟨_, _, .tree i hn hst rfl rfl, writesOnly_word rfl⟩
  | ctabWrite sym w v hs hw hst => exact ⟨_, _, .ctab sym w hs hw hst rfl rfl, writesOnly_word rfl⟩
  | encAppend b _ _ _ hfit =>
    have hw := writesOnly_appended (appended_sym hi hfit)
    exact ⟨_, _, .eobuf _ (hfits hi.encCount henc) rfl, writesOnly_congr hw (respondOkay_mem _)⟩
  | encClose u _ _ _ hfit hu =>
    subst hu
    obtain ⟨p, _, _, ha, _, _⟩ := appended_end hi hfit
    have hw := writesOnly_appended ha
    exact ⟨_, _, .eobuf _ (hfits hi.encCount henc) rfl, writesOnly_congr hw (respondOkay_mem _)⟩
  | decWalk b u _ hu =>
    have hw := writesOnly_walked (walked_bits (walkReady_of_inv hi) hu)
    exact ⟨_, _, .dobuf _ (hfits hi.decCount hdec) rfl, writesOnly_congr hw (respondOkay_mem _)⟩
  | _ => exact ⟨0, 0, .nothing rfl, writesOnly_nothing rfl⟩

/-- What an effect may write lies in the windows of the map (20_memory.md R52 to R54). -/
theorem writeRegion_inWindow {s : State} {lo n a : Nat} (h : WriteRegion s lo n) (ha : lo ≤ a ∧ a < lo + n) :
    inWindow s.cfg a := by
  unfold inWindow
  cases h with
  | nothing hn => omega
  | tree i hi _ hlo hn => unfold treeAddr at hlo; omega
  | ctab sym w hs hw _ hlo hn => unfold ctabAddr at hlo; omega
  | eobuf j h hlo => unfold eobufAddr at hlo; omega
  | dobuf j h hlo => unfold dobufAddr at hlo; omega

/-- In ACTIVE an effect writes no byte of the CTAB window (41_bus_access.md R111). -/
theorem writeRegion_not_ctab {s : State} {lo n a : Nat} (hi : Inv s) (h : WriteRegion s lo n)
    (hst : s.enc.state = .active) (ha : 0x08000 ≤ a ∧ a < 0x0C040) : ¬ (lo ≤ a ∧ a < lo + n) := by
  cases h with
  | nothing hn => omega
  | tree i hn _ hlo => have := hi.legal.1.2; unfold treeAddr at hlo; omega
  | ctab _ _ _ _ hne => exact absurd hst hne
  | eobuf j _ hlo => unfold eobufAddr at hlo; omega
  | dobuf j _ hlo => unfold dobufAddr at hlo; omega

/-- In RUN an effect writes no byte of the TREE window (41_bus_access.md R109). -/
theorem writeRegion_not_tree {s : State} {lo n a : Nat} (h : WriteRegion s lo n) (hst : s.dec.state = .run)
    (ha : 0x01000 ≤ a ∧ a < 0x02000) : ¬ (lo ≤ a ∧ a < lo + n) := by
  cases h with
  | nothing hn => omega
  | tree _ _ hne => exact absurd hst hne
  | ctab sym w _ _ _ hlo => unfold ctabAddr at hlo; omega
  | eobuf j _ hlo => unfold eobufAddr at hlo; omega
  | dobuf j _ hlo => unfold dobufAddr at hlo; omega

theorem ramInWindows_congr {s t : State} (h : SameBlock s t) (hr : RamInWindows s) : RamInWindows t := by
  unfold RamInWindows
  rw [h.cfg, h.mem]
  exact hr

theorem resetWith_ramInWindows (c : Config) : RamInWindows (State.resetWith c) := nofun

theorem effect_keeps_ramInWindows {s t : State} (hi : Inv s) (hr : RamInWindows s) (h : Effect s t) :
    RamInWindows t := by
  obtain ⟨lo, n, hregion, hwrites⟩ := effect_writesOnly hi h
  intro c hc
  rw [h.own.cfg]
  exact (hwrites.cells c hc).elim (hr c) (writeRegion_inWindow hregion)

/-- Settles O17: a reset lists no byte, and each effect writes in the windows. -/
theorem stepWritesOnlyTheWindows : Obligations.StepWritesOnlyTheWindows := by
  intro s t hi hr h
  exact step_keeps ramInWindows_congr (resetWith_ramInWindows s.cfg) effect_keeps_ramInWindows hi hr h

/-- Settles O45: what an effect may write in a session lies outside the session's table. -/
theorem tablesAreFixedDuringASession : Obligations.TablesAreFixedDuringASession := by
  intro i s t hi h
  obtain ⟨lo, n, hregion, hwrites⟩ := effect_writesOnly hi (effect_of_exec h)
  exact ⟨fun hst a hlo hhi => hwrites.same a (writeRegion_not_ctab hi hregion hst ⟨hlo, hhi⟩),
    fun hst a hlo hhi => hwrites.same a (writeRegion_not_tree hregion hst ⟨hlo, hhi⟩)⟩

end Sys2Proof.Laws

/-! # The statements of 30_encoding.md: the decoder and the encoder, the opcode map, and illegal command words -/

namespace Sys2Proof.Laws

open Sys2Proof.Machine

/-! ## Decoding what the encoder writes -/

theorem decode_command {w : Word} {c : Command} (h : decodeCommand w = some c) :
    decode (.command w) = .ok c.toInstr := by
  simp only [decode, h]

/-! The transactions at the offsets of the windows' cells -/

theorem decodeBus_treeOffset (w : Bool) (v : Word) {i : Nat} (hi : i < 1024) :
    decodeBus w (treeOffset i) v = some (if w then .wrTree i v else .rdTree i) :=
  decodeBus_tree w _ v i hi (treeOffset_toNat i hi)

theorem decodeBus_ctabOffset (w : Bool) (v : Word) {s j : Nat} (h : s < 256 ∧ j < 16) :
    decodeBus w (ctabOffset s j) v = some (if w then .wrCtab s j v else .rdCtab s j) :=
  decodeBus_ctab w _ v s j h.1 h.2 (ctabOffset_toNat s j h.1 h.2)

theorem decodeBus_ctabEosOffset (w : Bool) (v : Word) {j : Nat} (hj : j < 16) :
    decodeBus w (ctabEosOffset j) v = some (if w then .wrCtabEos j v else .rdCtabEos j) :=
  decodeBus_ctabEos w _ v j hj (ctabEosOffset_toNat j hj)

theorem decodeBus_eobufOffset (w : Bool) (v : Word) {q : Nat} (hq : q < 16384) :
    decodeBus w (eobufOffset q) v = some (if w then .wrEobuf q v else .rdEobuf q) :=
  decodeBus_eobuf w _ v q hq (eobufOffset_toNat q hq)

theorem decodeBus_dobufOffset (w : Bool) (v : Word) {q : Nat} (hq : q < 16384) :
    decodeBus w (dobufOffset q) v = some (if w then .wrDobuf q v else .rdDobuf q) :=
  decodeBus_dobuf w _ v q hq (dobufOffset_toNat q hq)

/-- The operands of a CTAB form fit their fields (20_memory.md R54). -/
theorem ctab_wellFormed_iff (s j : Nat) : (Instr.rdCtab s j).wellFormed = true ↔ s < 256 ∧ j < 16 := by
  simp only [Instr.wellFormed, Bool.and_eq_true, decide_eq_true_eq]

/-- Settles O1: the words with an operand by their command, the windows by where the encoder puts the cell; the words
and offsets without an operand are constants, which the decoder evaluates. -/
theorem decodeOfEncode : Obligations.DecodeOfEncode := by
  intro i hwf
  cases i with
  | encSym b => exact decode_command (decode_encSym b)
  | decStart r => exact decode_command (decode_decStart (of_decide_eq_true hwf))
  | decByte b => exact decode_command (decode_decByte b)
  | rdTree i => exact decode_read (decodeBus_treeOffset false _ (of_decide_eq_true hwf))
  | wrTree i v => exact decode_write (decodeBus_treeOffset true v (of_decide_eq_true hwf))
  | rdCtab s j => exact decode_read (decodeBus_ctabOffset false _ ((ctab_wellFormed_iff s j).1 hwf))
  | wrCtab s j v => exact decode_write (decodeBus_ctabOffset true v ((ctab_wellFormed_iff s j).1 hwf))
  | rdCtabEos j => exact decode_read (decodeBus_ctabEosOffset false _ (of_decide_eq_true hwf))
  | wrCtabEos j v => exact decode_write (decodeBus_ctabEosOffset true v (of_decide_eq_true hwf))
  | rdEobuf q => exact decode_read (decodeBus_eobufOffset false _ (of_decide_eq_true hwf))
  | wrEobuf q v => exact decode_write (decodeBus_eobufOffset true v (of_decide_eq_true hwf))
  | rdDobuf q => exact decode_read (decodeBus_dobufOffset false _ (of_decide_eq_true hwf))
  | wrDobuf q v => exact decode_write (decodeBus_dobufOffset true v (of_decide_eq_true hwf))
  | nop | encStart | encEnd | encOclr | decEnd | decOclr => rfl
  | rdId | rdVersion | rdCfgTree | rdCfgObuf | rdCmd | rdFlags => rfl
  | rdEncStatus | rdEncOcnt | rdDecStatus | rdDecOcnt | rdDecNode => rfl
  | wrCmd | wrFlags | wrId | wrVersion | wrCfgTree | wrCfgObuf => rfl
  | wrEncStatus | wrEncOcnt | wrDecStatus | wrDecOcnt | wrDecNode => rfl

/-! ## Encoding what the decoder reads -/

/-- An instruction is the well-formed instruction of an operation. -/
structure Encodes (i : Instr) (o : HostOp) : Prop where
  wellFormed : i.wellFormed = true
  encode : encode i = o

theorem commandWord_of_toNat {w : Word} {op : Byte} {arg : BitVec 24} (h : w.toNat = op.toNat * 2 ^ 24 + arg.toNat) :
    commandWord op arg = w := BitVec.eq_of_toNat_eq ((commandWord_toNat op arg).trans h.symm)

/-- A word with a BYTE operand is its OP with the BYTE it holds (30_encoding.md R72). -/
theorem commandWord_byteField {w : Word} {op : Byte} (h : w.toNat / 2 ^ 8 = op.toNat * 2 ^ 16) :
    commandWord op (0#16 ++ byteField w) = w := by
  apply commandWord_of_toNat
  rw [append2_toNat, byteField_toNat, BitVec.toNat_ofNat]
  omega

/-- A word with a ROOT operand is its OP with the ROOT it holds (30_encoding.md R72). -/
theorem commandWord_rootField {w : Word} {op : Byte} (h : w.toNat / 2 ^ 10 = op.toNat * 2 ^ 14) :
    commandWord op (0#14 ++ BitVec.ofNat 10 (rootField w)) = w := by
  apply commandWord_of_toNat
  rw [append2_toNat, BitVec.toNat_ofNat, BitVec.toNat_ofNat, rootField_eq]
  omega

/-- A command word is the encoding of the command it decodes to. -/
theorem encodes_command {w : Word} {c : Command} (h : decodeCommand w = some c) :
    Encodes c.toInstr (.command w) := by
  rcases decodeCommand_cases h with ⟨hw, rfl⟩ | ⟨hw, rfl⟩ | ⟨hw, rfl⟩ | ⟨hw, rfl⟩ | ⟨hw, rfl⟩ | ⟨hw, rfl⟩ | ⟨hw, rfl⟩ |
    ⟨hw, rfl⟩ | ⟨hw, rfl⟩
  · exact ⟨rfl, congrArg _ (commandWord_of_toNat hw)⟩
  · exact ⟨rfl, congrArg _ (commandWord_of_toNat hw)⟩
  · exact ⟨rfl, congrArg _ (commandWord_byteField hw)⟩
  · exact ⟨rfl, congrArg _ (commandWord_of_toNat hw)⟩
  · exact ⟨rfl, congrArg _ (commandWord_of_toNat hw)⟩
  · have hr : rootField w < 1024 := by rw [rootField_eq]; omega
    exact ⟨decide_eq_true hr, congrArg _ (commandWord_rootField hw)⟩
  · exact ⟨rfl, congrArg _ (commandWord_byteField hw)⟩
  · exact ⟨rfl, congrArg _ (commandWord_of_toNat hw)⟩
  · exact ⟨rfl, congrArg _ (commandWord_of_toNat hw)⟩

/-- The transaction of a header {W, off}, with the data of a write (30_encoding.md R77). -/
def transaction (w : Bool) (off : Offset) (v : Word) : HostOp := if w then .write off v else .read off

/-- At a register the transaction is the encoding of the register's form in its direction. -/
theorem encodes_register (w : Bool) {off : Offset} (v : Word) {k : Nat} (hk : k < 11) (h : off.toNat = 4 * k) :
    ∃ i, decodeBus w off v = some i ∧ Encodes i (transaction w off v) := by
  obtain rfl : off = BitVec.ofNat 18 (4 * k) := BitVec.eq_of_toNat_eq (by rw [BitVec.toNat_ofNat]; omega)
  interval_cases k <;> cases w <;> exact ⟨_, rfl, rfl, rfl⟩

/-- Where a transaction is one of two forms by its direction, each of which encodes to it, it is the encoding of the
instruction it is decoded to. -/
theorem encodes_forms {w : Bool} {off : Offset} {v : Word} {rd wr i : Instr}
    (hforms : decodeBus w off v = some (if w then wr else rd)) (hd : decodeBus w off v = some i)
    (hrd : Encodes rd (.read off)) (hwr : Encodes wr (.write off v)) : Encodes i (transaction w off v) := by
  obtain rfl := Option.some.inj (hforms.symm.trans hd)
  cases w
  · exact hrd
  · exact hwr

/-- A transaction the bus decoder accepts is the encoding of the instruction it reads. -/
theorem encodes_transaction {w : Bool} {off : Offset} {v : Word} {i : Instr} (hd : decodeBus w off v = some i) :
    Encodes i (transaction w off v) := by
  cases offsetRegion off with
  | outside h => exact absurd ((decodeBus_none w off v h).symm.trans hd) nofun
  | register k hk h =>
    obtain ⟨j, hj, he⟩ := encodes_register w v hk h
    exact Option.some.inj (hj.symm.trans hd) ▸ he
  | tree k hk h =>
    obtain rfl := BitVec.eq_of_toNat_eq (h.trans (treeOffset_toNat k hk).symm)
    have hwf := decide_eq_true hk
    exact encodes_forms (decodeBus_treeOffset w v hk) hd ⟨hwf, rfl⟩ ⟨hwf, rfl⟩
  | ctab sym j hs hj h =>
    by_cases h256 : sym = 256
    · subst h256
      obtain rfl := BitVec.eq_of_toNat_eq (h.trans (ctabEosOffset_toNat j hj).symm)
      have hwf := decide_eq_true hj
      exact encodes_forms (decodeBus_ctabEosOffset w v hj) hd ⟨hwf, rfl⟩ ⟨hwf, rfl⟩
    · have hb : sym < 256 := by omega
      obtain rfl := BitVec.eq_of_toNat_eq (h.trans (ctabOffset_toNat sym j hb hj).symm)
      have hwf := (ctab_wellFormed_iff sym j).2 ⟨hb, hj⟩
      exact encodes_forms (decodeBus_ctabOffset w v ⟨hb, hj⟩) hd ⟨hwf, rfl⟩ ⟨hwf, rfl⟩
  | eobuf q hq h =>
    obtain rfl := BitVec.eq_of_toNat_eq (h.trans (eobufOffset_toNat q hq).symm)
    have hwf := decide_eq_true hq
    exact encodes_forms (decodeBus_eobufOffset w v hq) hd ⟨hwf, rfl⟩ ⟨hwf, rfl⟩
  | dobuf q hq h =>
    obtain rfl := BitVec.eq_of_toNat_eq (h.trans (dobufOffset_toNat q hq).symm)
    have hwf := decide_eq_true hq
    exact encodes_forms (decodeBus_dobufOffset w v hq) hd ⟨hwf, rfl⟩ ⟨hwf, rfl⟩

/-- The operation a decoder accepts, by the decoder behind it: the commands' or the bus's. -/
theorem encodes_of_decode {o : HostOp} {i : Instr} (h : decode o = .ok i) : Encodes i o := by
  cases o with
  | command w =>
    simp only [decode] at h
    split at h
    · next c hc => exact Except.ok.inj h ▸ encodes_command hc
    · cases h
  | read off =>
    simp only [decode] at h
    split at h
    · next j hj => exact Except.ok.inj h ▸ encodes_transaction hj
    · cases h
  | write off v =>
    simp only [decode] at h
    split at h
    · next j hj => exact Except.ok.inj h ▸ encodes_transaction hj
    · cases h

/-- Settles O2: by the region of the offset, or the row of the command word. -/
theorem encodeOfDecode : Obligations.EncodeOfDecode := by
  intro o i h
  obtain ⟨hwf, he⟩ := encodes_of_decode h
  exact ⟨hwf, he⟩

/-! ## The opcode map -/

theorem commandRows_patterns_nodup : (commandRows.map CommandRow.pattern).Nodup := by decide

/-- Two rows of the opcode map whose matches agree where both masks look have the same match. -/
theorem commandRows_apart : ∀ r ∈ commandRows, ∀ r' ∈ commandRows,
    r.pattern &&& r'.mask = r'.pattern &&& r.mask → r.pattern = r'.pattern := by decide

/-- No word matches two rows of the opcode map (30_encoding.md R71): the two matches would agree where both masks
look. -/
theorem commandRow_unique {w : Word} {r r' : CommandRow} (hr : r ∈ commandRows) (hr' : r' ∈ commandRows)
    (h : w &&& r.mask = r.pattern) (h' : w &&& r'.mask = r'.pattern) : r.pattern = r'.pattern := by
  refine commandRows_apart r hr r' hr' ?_
  rw [← h, ← h', BitVec.and_assoc, BitVec.and_assoc, BitVec.and_comm r.mask]

/-- The command decoder answers a word by the row the word matches, wherever the row stands in the opcode map. -/
theorem decodeCommand_eq_some_iff (w : Word) (c : Command) :
    decodeCommand w = some c ↔ ∃ r ∈ commandRows, w &&& r.mask = r.pattern ∧ c = r.operand w := by
  constructor
  · intro h
    obtain ⟨r, hr, hc⟩ := Option.map_eq_some_iff.1 h
    exact ⟨r, List.mem_of_find?_eq_some hr, by simpa using List.find?_some hr, hc.symm⟩
  · rintro ⟨r, hr, hm, rfl⟩
    obtain ⟨r', hfind⟩ : ∃ r', commandRows.find? (fun r => (w &&& r.mask) == r.pattern) = some r' :=
      Option.isSome_iff_exists.1 (List.find?_isSome.2 ⟨r, hr, by simpa using hm⟩)
    have hr' := List.mem_of_find?_eq_some hfind
    have hm' : w &&& r'.mask = r'.pattern := by simpa using List.find?_some hfind
    obtain rfl := List.inj_on_of_nodup_map commandRows_patterns_nodup hr hr' (commandRow_unique hr hr' hm hm')
    exact congrArg (Option.map fun r => r.operand w) hfind

/-- Settles O3: each command stands in one row, and no word matches two. -/
theorem opcodeMapOfCommandWords : Obligations.OpcodeMapOfCommandWords := by
  refine ⟨fun w => ?_, fun w r r' hr hr' h h' => commandRow_unique hr hr' h h'⟩
  simp [decodeCommand_eq_some_iff, commandRows, byteField, rootField]

/-! ## Illegal command words -/

theorem extractLsb'_ne_zero_iff (w : Word) (lo len : Nat) :
    w.extractLsb' lo len ≠ 0#len ↔ w.toNat / 2 ^ lo % 2 ^ len ≠ 0 := by
  rw [Ne, ← BitVec.toNat_inj, BitVec.extractLsb'_toNat, Nat.shiftRight_eq_div_pow, BitVec.toNat_ofNat, Nat.zero_mod]

/-- The effect of 41_bus_access.md R107, field by field. -/
theorem illegalCommand_eq (s : State) : illegalCommand s =
    { s with flags := s.flags ||| 0b0001#4, resp := some { status := .okay, data := none } } := rfl

/-- Settles O4: the fields of the word as numbers, and the words no row takes. -/
theorem illegalCommandWordSetsOnlyCmdBad : Obligations.IllegalCommandWordSetsOnlyCmdBad := by
  intro w op illegal
  have hillegal : decodeCommand w = none ↔ illegal := by
    have hw := w.isLt
    have hop : op = w.toNat / 2 ^ 24 % 2 ^ 8 := by
      simp only [op, BitVec.extractLsb'_toNat, Nat.shiftRight_eq_div_pow]
    simp only [illegal, decodeCommand_eq_none, extractLsb'_ne_zero_iff, hop]
    omega
  exact ⟨hillegal, fun s h => (exec_wrCmd_illegal s (hillegal.2 h)).trans (congrArg _ (illegalCommand_eq s))⟩

/-! ## Words written out -/

/-- Settles O6: the decoder run on each word. -/
theorem specWordsDecode : Obligations.SpecWordsDecode :=
  ⟨rfl, rfl, rfl, rfl, rfl, rfl, rfl, rfl, rfl, rfl, rfl⟩

/-! ## A command word and the write of it to CMD -/

theorem storesTable_toInstr (c : Command) (s : State) : storesTable c.toInstr s = false := by cases c <;> rfl

theorem readsTables_toInstr (c : Command) : readsTables c.toInstr = commandReadsTables c := by cases c <;> rfl

theorem readsTables_wrCmd (w : Word) :
    readsTables (.wrCmd w) = ((decodeCommand w).map commandReadsTables).getD false := rfl

/-- The counters of the free values advance at a CMD write as at the command it issues. -/
theorem countFree_wrCmd {w : Word} {c : Command} (s t : State) (h : decodeCommand w = some c) :
    countFree (.wrCmd w) s t = countFree c.toInstr s t := by
  have hreads : readsTables (.wrCmd w) = readsTables c.toInstr := by
    rw [readsTables_wrCmd, readsTables_toInstr, h]
    rfl
  have hstores : storesTable (.wrCmd w) s = storesTable c.toInstr s := (storesTable_toInstr c s).symm
  unfold countFree ramWritten
  rw [hreads, hstores]

/-- Settles O9: a legal word runs its command either way, an illegal one sets CMD_BAD either way, and the counters of
the free values advance alike. -/
theorem commandWordIsWriteToCmd : Obligations.CommandWordIsWriteToCmd := by
  intro w s
  rw [runOp_ok (o := .write 0x00010#18 w) (i := .wrCmd w) s rfl]
  cases hw : decodeCommand w with
  | none =>
    have hreads : readsTables (.wrCmd w) = false := by rw [readsTables_wrCmd, hw]; rfl
    have hidle : countFree (.wrCmd w) s (illegalCommand s) = illegalCommand s := countFree_idle rfl hreads rfl rfl
    rw [exec_wrCmd_illegal s hw, countOut_next, hidle]
    simp only [runOp, decode, hw, rejectOp]
  | some c =>
    obtain ⟨t, ht, _⟩ := exec_effect c.toInstr s
    rw [runOp_ok s (decode_command hw), exec_wrCmd_legal s hw, ht, countOut_next, countOut_next, countFree_wrCmd s t hw]

end Sys2Proof.Laws

/-! # The statements of 41_bus_access.md: what CMD, the registers and the windows of TREE and CTAB do -/

namespace Sys2Proof.Laws

open Sys2Proof.Machine

/-! ## CMD writes -/

/-- A command word that decodes to an instruction is one of the nine commands (30_encoding.md R71). -/
theorem command_of_decode {w : Word} {i : Instr} (h : decode (.command w) = .ok i) :
    ∃ c, decodeCommand w = some c ∧ c.toInstr = i := by
  simp only [decode] at h
  split at h
  · next c hc => exact ⟨c, hc, Except.ok.inj h⟩
  · cases h

/-- Settles O10: an encoded word decodes back to its instruction, which is thus the command behind the write. -/
theorem cmdWriteRunsTheCommand : Obligations.CmdWriteRunsTheCommand := by
  refine ⟨fun i w s hwf henc => ?_, fun w s hw => ?_, exec_wrCmd_okay⟩
  · obtain ⟨c, hc, rfl⟩ := command_of_decode (henc ▸ decodeOfEncode i hwf)
    exact exec_wrCmd_legal s hc
  · rw [exec_wrCmd_illegal s hw, illegalCommand_eq]

/-! ## Writes to a window's word -/

theorem writeWindow_mapped {m : Bool} (t s : State) (h : m = true) : writeWindow m t s = respondOkay t := if_pos h

theorem treeMapped_of_le {s : State} {i : Nat} (h : s.cfg.treeNodes ≤ i) : treeMapped s i = false :=
  decide_eq_false (Nat.not_lt.2 h)

theorem obufMapped_of_le {s : State} {q : Nat} (h : s.cfg.obufSize ≤ 4 * q) : obufMapped s q = false :=
  decide_eq_false (Nat.not_lt.2 h)

theorem writeTree_locked {s : State} (i : Nat) (v : Word) (h : s.dec.state = .run) :
    writeTree i v s = setFlag .trLock s := if_pos h

theorem writeTree_unlocked {s : State} (i : Nat) (v : Word) (h : s.dec.state ≠ .run) :
    writeTree i v s = { s with mem := s.mem.writeWord (treeAddr i) v } := if_neg h

theorem writeCtab_locked {s : State} (sym w : Nat) (v : Word) (h : s.enc.state = .active) :
    writeCtab sym w v s = setFlag .ctLock s := if_pos h

theorem writeCtab_unlocked {s : State} (sym w : Nat) (v : Word) (h : s.enc.state ≠ .active) :
    writeCtab sym w v s = { s with mem := s.mem.writeWord (ctabAddr sym w) (ctabStored w v) } := if_neg h

/-- A TREE write to an implemented node is the store, or the lock's effect (41_bus_access.md R109). -/
theorem exec_wrTree_mapped {i : Nat} {s : State} (v : Word) (h : i < s.cfg.treeNodes) :
    exec (.wrTree i v) s = .next (respondOkay (writeTree i v s)) :=
  congrArg _ (writeWindow_mapped _ s ((treeMapped_iff s i).2 h))

/-- Both forms of a CTAB write are one transaction on the window's word (20_memory.md R54). -/
theorem exec_ctabWrite (sym w : Nat) (v : Word) (s : State) :
    exec (ctabWrite sym w v) s = .next (writeWindow (ctabMapped sym w) (writeCtab sym w v s) s) := by
  unfold ctabWrite
  split
  · next h => rw [h]; rfl
  · rfl

/-- A CTAB write to an implemented word is the store, or the lock's effect (41_bus_access.md R111). -/
theorem exec_ctabWrite_mapped {sym w : Nat} (v : Word) (s : State) (hs : sym ≤ 256) (hw : w ≤ 8) :
    exec (ctabWrite sym w v) s = .next (respondOkay (writeCtab sym w v s)) := by
  rw [exec_ctabWrite, writeWindow_mapped _ s ((ctabMapped_iff sym w).2 ⟨hs, hw⟩)]

/-- Settles O24: by the lock and by the bound, the store's effect by the laws of a word's write. -/
theorem treeWriteStoresOrLocks : Obligations.TreeWriteStoresOrLocks := by
  refine fun i v s => ⟨fun hi hrun => ?_, fun hi hrun => ?_, fun hi => ?_⟩
  · rw [exec_wrTree_mapped v hi, writeTree_locked i v hrun]
    rfl
  · rw [exec_wrTree_mapped v hi, writeTree_unlocked i v hrun]
    exact ⟨_, rfl, writtenWord_writeWord _ _ v, fun _ ha => read_writeWord_outside _ v ha, rfl⟩
  · exact congrArg _ (writeWindow_unmapped _ s (treeMapped_of_le hi))

/-- LEN holds the nine low bits of what is stored in its word. -/
theorem ctabLen_of_written {s : State} {sym : Nat} {w : Word} (h : writtenWord s.mem (ctabAddr sym 0) = some w) :
    ctabLen s sym = w.extractLsb' 0 9 :=
  congrArg (BitVec.extractLsb' 0 9) (readWord_of_written _ h)

/-- The nine bits a write to LEN stores are the low bits of its data. -/
theorem ctabStored_len (v : Word) : (ctabStored 0 v).extractLsb' 0 9 = v.extractLsb' 0 9 :=
  (BitVec.extractLsb'_setWidth_of_le (by decide)).trans BitVec.extractLsb'_eq_self

theorem ctabStored_bits {w : Nat} (v : Word) (h : w ≠ 0) : ctabStored w v = v := if_neg h

/-- Settles O26: by the lock, the store's effect by the laws of a word's write, and what is stored by the word. -/
theorem ctabWriteStoresOrLocks : Obligations.CtabWriteStoresOrLocks := by
  refine fun sym w v s hs hw => ⟨fun hact => ?_, fun hact => ?_⟩
  · rw [exec_ctabWrite_mapped v s hs hw, writeCtab_locked sym w v hact]
    rfl
  · rw [exec_ctabWrite_mapped v s hs hw, writeCtab_unlocked sym w v hact]
    have hstored := writtenWord_writeWord s.mem (ctabAddr sym w) (ctabStored w v)
    refine ⟨_, rfl, fun h0 => ?_, fun h0 => ?_, fun _ ha => read_writeWord_outside _ _ ha, rfl⟩
    · subst h0
      exact (ctabLen_of_written hstored).trans (ctabStored_len v)
    · exact hstored.trans (congrArg some (ctabStored_bits v h0))

/-! ## Register reads -/

/-- A word is the number it holds. -/
theorem word_eq_ofNat {x : Word} {n : Nat} (h : x.toNat = n) : x = BitVec.ofNat 32 n := by
  rw [← h, BitVec.ofNat_toNat, BitVec.setWidth_eq]

theorem encStatusWord_toNat (e : EncEngine) : (encStatusWord e).toNat =
    e.acc.toNat * 2 ^ 16 + e.nb.toNat * 2 ^ 8 + (errCode e.err).toNat * 2 ^ 4 + (encStateCode e.state).toNat := by
  simp only [encStatusWord, append2_toNat, BitVec.toNat_ofNat]
  omega

theorem decStatusWord_toNat (d : DecEngine) : (decStatusWord d).toNat =
    (errCode d.err).toNat * 2 ^ 4 + (decStateCode d.state).toNat := by
  simp only [decStatusWord, append2_toNat, BitVec.toNat_ofNat]
  omega

theorem decNodeWord_toNat (d : DecEngine) : (decNodeWord d).toNat = d.root.toNat * 2 ^ 16 + d.cur.toNat := by
  simp only [decNodeWord, append2_toNat, BitVec.toNat_ofNat]
  omega

/-- Settles O19: each read is its register's word, which as a number is the sum of its fields. -/
theorem registerReadsReturnTheirValues : Obligations.RegisterReadsReturnTheirValues := by
  intro s answer
  have hflags : exec .rdFlags s = answer (BitVec.ofNat 32 s.flags.toNat) :=
    congrArg answer (BitVec.ofNat_toNat 32 s.flags).symm
  have hencStatus := congrArg answer (word_eq_ofNat (encStatusWord_toNat s.enc))
  have hencOcnt : exec .rdEncOcnt s = answer (BitVec.ofNat 32 s.enc.ocnt.toNat) :=
    congrArg answer (BitVec.ofNat_toNat 32 s.enc.ocnt).symm
  have hdecStatus := congrArg answer (word_eq_ofNat (decStatusWord_toNat s.dec))
  have hdecOcnt : exec .rdDecOcnt s = answer (BitVec.ofNat 32 s.dec.ocnt.toNat) :=
    congrArg answer (BitVec.ofNat_toNat 32 s.dec.ocnt).symm
  have hdecNode := congrArg answer (word_eq_ofNat (decNodeWord_toNat s.dec))
  exact ⟨rfl, rfl, rfl, rfl, rfl, hflags, hencStatus, hencOcnt, hdecStatus, hdecOcnt, hdecNode⟩

/-! ## Writes that are ignored, and FLAGS -/

/-- Settles O21: a read-only register's write is the answer alone, and so is that of an output buffer's word, where it
is implemented. -/
theorem readOnlyWritesAreIgnored : Obligations.ReadOnlyWritesAreIgnored := by
  refine fun v s => ⟨rfl, rfl, rfl, rfl, rfl, rfl, rfl, rfl, rfl, fun q hq => ?_, fun q hq => ?_⟩
  · have hokay := writeWindow_mapped (ignoreWrite v s) s ((obufMapped_iff s q).2 hq)
    exact ⟨congrArg _ hokay, congrArg _ hokay⟩
  · have herror := writeWindow_unmapped (ignoreWrite v s) s (obufMapped_of_le hq)
    exact ⟨congrArg _ herror, congrArg _ herror⟩

/-- FLAGS after a write, bit by bit (41_bus_access.md R105). -/
theorem getLsbD_flagsAfterWrite (v : Word) (old : BitVec 4) {k : Nat} (hk : k < 4) :
    (flagsAfterWrite v old).getLsbD k = (old.getLsbD k && !v.getLsbD k) := by
  simp [flagsAfterWrite, hk]

/-- Settles O22: the write is its change of FLAGS, bit by bit, and the answer. -/
theorem flagsClearOnWriteOfOne : Obligations.FlagsClearOnWriteOfOne :=
  fun v s => ⟨_, rfl, fun _ hk => getLsbD_flagsAfterWrite v s.flags hk, rfl⟩

/-! ## Reads of TREE and CTAB -/

/-- Settles O25: no decoder state is looked at, and a written word is what the host's read finds. -/
theorem treeReadReturnsTheNode : Obligations.TreeReadReturnsTheNode := by
  refine fun i s => ⟨fun hi => ?_, fun hi => ?_⟩
  · exact ⟨hostWord s (treeAddr i), congrArg _ (readWindow_mapped _ s ((treeMapped_iff s i).2 hi)),
      fun _ => readWord_of_written _⟩
  · exact congrArg _ (readWindow_unmapped _ s (treeMapped_of_le hi))

/-- Both forms of a CTAB read are one transaction on the window's word (20_memory.md R54). -/
theorem exec_ctabRead (sym w : Nat) (s : State) :
    exec (ctabRead sym w) s = .next (readWindow (ctabMapped sym w) (ctabReadWord sym w s) s) := by
  unfold ctabRead
  split
  · next h => rw [h]; rfl
  · rfl

/-- A CTAB read of an implemented word answers the word (41_bus_access.md R110). -/
theorem exec_ctabRead_mapped {sym w : Nat} (s : State) (hs : sym ≤ 256) (hw : w ≤ 8) :
    exec (ctabRead sym w) s = .next (respondData (ctabReadWord sym w s) s) := by
  rw [exec_ctabRead, readWindow_mapped _ s ((ctabMapped_iff sym w).2 ⟨hs, hw⟩)]

theorem ctabReadWord_len (sym : Nat) (s : State) :
    ctabReadWord sym 0 s = BitVec.ofNat 32 (ctabLen s sym).toNat := (BitVec.ofNat_toNat 32 (ctabLen s sym)).symm

theorem ctabReadWord_bits {w : Nat} (sym : Nat) (s : State) (h : w ≠ 0) :
    ctabReadWord sym w s = hostWord s (ctabAddr sym w) := if_neg h

/-- Settles O27: LEN for word 0, the word a host read finds for words 1 to 8, and the bus ERROR of a reserved word. -/
theorem ctabReadReturnsTheEntry : Obligations.CtabReadReturnsTheEntry := by
  refine fun sym w s hs => ⟨fun h0 => ?_, fun h1 h8 => ?_, exec_ctabRead_reserved sym s⟩
  · subst h0
    rw [exec_ctabRead_mapped s hs (by omega), ctabReadWord_len]
    rfl
  · rw [exec_ctabRead_mapped s hs h8, ctabReadWord_bits sym s (by omega)]
    exact ⟨_, rfl, fun _ => readWord_of_written _⟩

/-! ## NOP, ENC_START and the drain acknowledgements -/

/-- Settles O29: each of the four commands is one update of the state. -/
theorem nopStartAndClearCommands : Obligations.NopStartAndClearCommands :=
  fun _ => ⟨rfl, rfl, rfl, rfl⟩

end Sys2Proof.Laws

/-! # The statements of 42_encoder.md: what ENC_SYM and ENC_END append, their errors, and a whole session -/

namespace Sys2Proof.Laws

open Sys2Proof.Machine

/-! ## The checks before an append -/

theorem checkCode_empty {s : State} {sym : Nat} (h : (ctabLen s sym).toNat = 0) : checkCode sym s = .error .nosym :=
  if_pos h

theorem checkCode_tooLong {s : State} {sym : Nat} (h : 256 < (ctabLen s sym).toNat) :
    checkCode sym s = .error .badlen := by
  rw [checkCode, if_neg (by omega), if_pos h]

theorem checkCode_legal {s : State} {sym : Nat} (h1 : 1 ≤ (ctabLen s sym).toNat)
    (h2 : (ctabLen s sym).toNat ≤ 256) : checkCode sym s = .ok () := by
  rw [checkCode, if_neg (by omega), if_neg (by omega)]

/-- ENC_SYM and ENC_END (42_encoder.md R134, R135) up to their commit: by the engine's state and by the checks of the
symbol's code and of the room for `need` bytes, the copy `t` or the error of the first check that fails
(60_exceptions.md R206). -/
def checkedAppend (sym need : Nat) (s t : State) : Except EngineErr State :=
  match s.enc.state with
  | .error => .ok s
  | .idle => .error .seq
  | .done => .error .seq
  | .active =>
    match checkCode sym s with
    | .error c => .error c
    | .ok _ => if s.cfg.obufSize < s.enc.ocnt.toNat + need then .error .overflow else .ok t

/-- The end of ENC_END: `ENC.STATE <- DONE` (42_encoder.md R135). -/
def closeSession (s : State) : State := { s with enc := { s.enc with state := .done } }

theorem encSymEffect_eq (sym : Nat) (s : State) :
    encSymEffect sym s = checkedAppend sym (symNeed sym s) s (appendCode sym s) := by
  unfold encSymEffect encSymActive checkedAppend
  cases s.enc.state <;> rfl

theorem encEndEffect_eq (s : State) :
    encEndEffect s = checkedAppend 256 (endNeed s) s (closeSession (padAndEmit (appendCode 256 s))) := by
  unfold encEndEffect encEndActive checkedAppend
  cases s.enc.state <;> rfl

theorem exec_encSym (b : Byte) (s : State) : exec (.encSym b) s =
    .next (respondOkay (commit .enc s (checkedAppend b.toNat (symNeed b.toNat s) s (appendCode b.toNat s)))) :=
  congrArg (fun r => Host.Outcome.next (respondOkay (commit .enc s r))) (encSymEffect_eq b.toNat s)

theorem exec_encEnd (s : State) : exec .encEnd s = .next (respondOkay (commit .enc s
    (checkedAppend 256 (endNeed s) s (closeSession (padAndEmit (appendCode 256 s)))))) :=
  congrArg (fun r => Host.Outcome.next (respondOkay (commit .enc s r))) (encEndEffect_eq s)

section
variable {sym need : Nat} {s t : State}

theorem checkedAppend_ignored (h : s.enc.state = .error) : checkedAppend sym need s t = .ok s := by
  simp only [checkedAppend, h]

theorem checkedAppend_noSession (h : s.enc.state = .idle ∨ s.enc.state = .done) :
    checkedAppend sym need s t = .error .seq := by
  rcases h with h | h
  · simp only [checkedAppend, h]
  · simp only [checkedAppend, h]

theorem checkedAppend_badCode {c : EngineErr} (h : s.enc.state = .active) (hc : checkCode sym s = .error c) :
    checkedAppend sym need s t = .error c := by
  simp only [checkedAppend, h, hc]

theorem checkedAppend_legal (h : s.enc.state = .active) (hc : checkCode sym s = .ok ()) :
    checkedAppend sym need s t =
      if s.cfg.obufSize < s.enc.ocnt.toNat + need then .error .overflow else .ok t := by
  simp only [checkedAppend, h, hc]

/-- The errors of an append, in the order of its checks (42_encoder.md R132, 60_exceptions.md R202, R206). -/
theorem append_errorsInOrder {out : Out}
    (hout : out = .next (respondOkay (commit .enc s (checkedAppend sym need s t)))) :
    let len := (ctabLen s sym).toNat
    let fails (c : EngineErr) : Out := .next (respondOkay (raiseEngineError .enc c s))
    (s.enc.state = .error → out = .next (respondOkay s)) ∧
    (s.enc.state = .idle ∨ s.enc.state = .done → out = fails .seq) ∧
    (s.enc.state = .active → len = 0 → out = fails .nosym) ∧
    (s.enc.state = .active → 256 < len → out = fails .badlen) ∧
    (s.enc.state = .active → 1 ≤ len → len ≤ 256 → s.cfg.obufSize < s.enc.ocnt.toNat + need →
      out = fails .overflow) := by
  subst hout
  refine ⟨fun h => ?_, fun h => ?_, fun h h0 => ?_, fun h h256 => ?_, fun h h1 h2 hfull => ?_⟩
  · rw [checkedAppend_ignored h, commit_ok]
  · rw [checkedAppend_noSession h, commit_error]
  · rw [checkedAppend_badCode h (checkCode_empty h0), commit_error]
  · rw [checkedAppend_badCode h (checkCode_tooLong h256), commit_error]
  · rw [checkedAppend_legal h (checkCode_legal h1 h2), if_pos hfull, commit_error]

theorem checkedAppend_fits (h : s.enc.state = .active) (h1 : 1 ≤ (ctabLen s sym).toNat)
    (h2 : (ctabLen s sym).toNat ≤ 256) (hfit : s.enc.ocnt.toNat + need ≤ s.cfg.obufSize) :
    checkedAppend sym need s t = .ok t := by
  rw [checkedAppend_legal h (checkCode_legal h1 h2), if_neg (by omega)]

end

/-- Settles O31: ENC_SYM is a checked append of its symbol's code. -/
theorem encSymErrorsInOrder : Obligations.EncSymErrorsInOrder :=
  fun b s => append_errorsInOrder (exec_encSym b s)

/-- Settles O33: ENC_END is a checked append of the sentinel's code, with the padding in its need. -/
theorem encEndErrorsInOrder : Obligations.EncEndErrorsInOrder :=
  fun s => append_errorsInOrder (exec_encEnd s)

/-! ## What the appends do where their checks hold -/

/-- ENC_SYM in a session, with a legal code and room (42_encoder.md R134). -/
theorem exec_encSym_fits {b : Byte} {s : State} (hact : s.enc.state = .active) (h1 : 1 ≤ (ctabLen s b.toNat).toNat)
    (h2 : (ctabLen s b.toNat).toNat ≤ 256) (hfit : s.enc.ocnt.toNat + symNeed b.toNat s ≤ s.cfg.obufSize) :
    exec (.encSym b) s = .next (respondOkay (appendCode b.toNat s)) := by
  rw [exec_encSym, checkedAppend_fits hact h1 h2 hfit, commit_ok]

/-- ENC_END in a session, with a legal sentinel code and room (42_encoder.md R135). -/
theorem exec_encEnd_fits {s : State} (hact : s.enc.state = .active) (h1 : 1 ≤ (ctabLen s 256).toNat)
    (h2 : (ctabLen s 256).toNat ≤ 256) (hfit : s.enc.ocnt.toNat + endNeed s ≤ s.cfg.obufSize) :
    exec .encEnd s = .next (respondOkay (closeSession (padAndEmit (appendCode 256 s)))) := by
  rw [exec_encEnd, checkedAppend_fits hact h1 h2 hfit, commit_ok]

/-- Settles O30: the checks hold, and appending the code gives each clause. -/
theorem encSymAppendsTheCode : Obligations.EncSymAppendsTheCode := by
  intro b s hi hact len need h1 h2 hfit
  have ha := appended_sym hi hfit
  have hocnt := ha.ocnt
  have hnb := ha.nb
  have hsame := ha.same
  rw [length_codeBits] at hocnt hnb hsame
  exact ⟨_, exec_encSym_fits hact h1 h2 hfit, ha.stream, ha.state.trans hact, ha.err, hocnt, hnb, ha.clean, hsame,
    congrArg respondOkay ha.rest⟩

/-- Two encoders with one ERR, the second without pending bits, close to the same but for OCNT. -/
theorem encEngine_closed {e f : EncEngine} (herr : f.err = e.err) (hacc : f.acc = 0#8) (hnb : f.nb = 0#3) :
    { f with state := .done } = { e with state := .done, acc := 0#8, nb := 0#3, ocnt := f.ocnt } := by
  rw [herr, hacc, hnb]

/-- Settles O32: the checks hold, and appending the code and the padding gives each clause but the closed engine. -/
theorem encEndPadsAndCloses : Obligations.EncEndPadsAndCloses := by
  intro s hi hact len need h1 h2 hfit
  obtain ⟨p, hp, hneed, ha, hacc, hnb⟩ := appended_end hi hfit
  have htotal : (s.enc.nb.toNat + (codeBits s 256 ++ List.replicate p false).length) / 8 = need := by
    have : 8 * need = s.enc.nb.toNat + len + p := hneed
    rw [List.length_append, length_codeBits, List.length_replicate]; omega
  have hocnt := ha.ocnt
  have hsame := ha.same
  rw [htotal] at hocnt hsame
  have hstream := ha.stream
  rw [← List.append_assoc] at hstream
  exact ⟨_, p, exec_encEnd_fits hact h1 h2 hfit, hp, hneed, hstream, encEngine_closed ha.err hacc hnb, hocnt, hsame,
    congrArg (respondOkay ∘ closeSession) ha.rest⟩

/-! ## What a session leaves as it was -/

/-- What the commands of an encoder session leave: the parameters, FLAGS, the decoder, and memory below EOBUF, so TREE
and CTAB (20_memory.md R52, R65). -/
structure SessionKeeps (s t : State) : Prop where
  cfg : t.cfg = s.cfg
  flags : t.flags = s.flags
  dec : t.dec = s.dec
  tables : ∀ a, a < 0x10000 → t.mem.read a = s.mem.read a

theorem SessionKeeps.refl (s : State) : SessionKeeps s s := ⟨rfl, rfl, rfl, fun _ _ => rfl⟩

theorem SessionKeeps.trans {s t u : State} (h : SessionKeeps s t) (h' : SessionKeeps t u) : SessionKeeps s u :=
  ⟨h'.cfg.trans h.cfg, h'.flags.trans h.flags, h'.dec.trans h.dec,
    fun a ha => (h'.tables a ha).trans (h.tables a ha)⟩

/-- A change of the encoder, the response and bytes of EOBUF is one of a session. -/
theorem sessionKeeps_of_emit {s t : State} {m n : Nat} {r : Option Response}
    (hrest : t = { s with enc := t.enc, mem := t.mem, resp := r }) (hsame : MemSameOutside (eobufAddr m) n s t) :
    SessionKeeps s t where
  cfg := by rw [hrest]
  flags := by rw [hrest]
  dec := by rw [hrest]
  tables := fun a ha => hsame a (by unfold eobufAddr; omega)

/-- Neither what is issued nor the counters of the free values are among what a session leaves. -/
theorem SessionKeeps.counted {s t u : State} {i : Instr} {rest : List Input}
    (h : SessionKeeps { s with pending := rest } t) : SessionKeeps s (countFree i u t) :=
  ⟨h.cfg, h.flags, h.dec, h.tables⟩

/-- CTAB holds a symbol's code, and the code is legal (42_encoder.md R132). -/
structure HoldsLegal (s : State) (sym : Nat) (code : List Bool) : Prop where
  sym_le : sym ≤ 256
  holds : HoldsCode s sym code
  pos : 1 ≤ code.length
  le : code.length ≤ 256

theorem HoldsLegal.length {s : State} {sym : Nat} {code : List Bool} (h : HoldsLegal s sym code) :
    (ctabLen s sym).toNat = code.length := by
  rw [← h.holds.2, length_codeBits]

/-- A code bit is that of the word written for it, whatever the encoder would find in an unwritten word. -/
theorem codeBit_of_written {s : State} {sym i : Nat} {w : Word}
    (h : writtenWord s.mem (ctabAddr sym (1 + i / 32)) = some w) : codeBit s sym i = w.getLsbD (31 - i % 32) :=
  congrArg (fun v : Word => v.getLsbD (31 - i % 32)) (readWord_of_written _ h)

/-- A session keeps the codes CTAB holds: their words are written, so no free value is read (10_state.md R38). -/
theorem HoldsLegal.kept {s t : State} {sym : Nat} {code : List Bool} (h : HoldsLegal s sym code)
    (hk : SessionKeeps s t) : HoldsLegal t sym code := by
  have hsym := h.sym_le
  have hle := h.length ▸ h.le
  obtain ⟨hwritten, hbits⟩ := h.holds
  have hlen : ctabLen t sym = ctabLen s sym :=
    congrArg (BitVec.extractLsb' 0 9) (readWord_congr _ fun a _ ha => hk.tables a (by unfold ctabAddr at ha; omega))
  have hword : ∀ k, k < ceilDiv (ctabLen s sym).toNat 32 →
      writtenWord t.mem (ctabAddr sym (1 + k)) = writtenWord s.mem (ctabAddr sym (1 + k)) := fun k hkk =>
    writtenWord_congr fun a _ ha => hk.tables a (by unfold ceilDiv at hkk; unfold ctabAddr at ha; omega)
  refine ⟨hsym, ⟨fun k hkk => ?_, ?_⟩, h.pos, h.le⟩
  · rw [hlen] at hkk
    rw [hword k hkk]
    exact hwritten k hkk
  · rw [← hbits, codeBits, codeBits, hlen]
    refine List.map_congr_left fun i hi => ?_
    have hik : i / 32 < ceilDiv (ctabLen s sym).toNat 32 := by
      have := List.mem_range.1 hi
      unfold ceilDiv; omega
    obtain ⟨w, hw⟩ := Option.isSome_iff_exists.1 (hwritten _ hik)
    rw [codeBit_of_written hw, codeBit_of_written ((hword _ hik).trans hw)]

/-! ## One step of a session -/

/-- The step of a state whose oldest input is the operation of an instruction. -/
theorem step_encoded {s t : State} {i : Instr} {rest : List Input} (hp : s.pending = .op (encode i) :: rest)
    (hwf : i.wellFormed = true) (h : exec i { s with pending := rest } = .next t) :
    step s = .next (countFree i { s with pending := rest } t) := by
  rw [step_op hp, runOp_ok _ (decodeOfEncode i hwf), h, countOut_next]

theorem stepN_succ {s t : State} (n : Nat) (h : step s = .next t) : stepN (n + 1) s = stepN n t := by
  rw [stepN, h]

theorem stepN_add {m : Nat} {s t : State} (n : Nat) (h : stepN m s = .next t) : stepN (m + n) s = stepN n t := by
  induction m generalizing s with
  | zero => rw [Nat.zero_add, Host.Outcome.next.inj h]
  | succ m ih =>
    rw [Nat.add_right_comm, stepN]
    rw [stepN] at h
    split
    · next u hu => rw [hu] at h; exact ih h
    · next f hf => rw [hf] at h; cases h
    · next f hf => rw [hf] at h; cases h

/-- The bits of the stream are counted by OCNT and NB (10_state.md R31). -/
theorem length_encStream (s : State) : (encStream s).length = 8 * s.enc.ocnt.toNat + s.enc.nb.toNat := by
  simp only [encStream, eobufBytes, pendingBits, List.length_append, flatMap_bits_length, List.length_map,
    List.length_range]

/-- A session in progress: the instructions still issued, and the bits appended so far. -/
structure InSession (is : List Instr) (bits : List Bool) (t : State) : Prop where
  inv : Inv t
  active : t.enc.state = .active
  pending : t.pending = is.map (fun i => .op (encode i))
  stream : encStream t = bits

/-- A session that has ended: the bits appended and the padding fill whole bytes, and nothing is issued. -/
structure SessionEnded (bits : List Bool) (t : State) : Prop where
  inv : Inv t
  done : t.enc.state = .done
  pending : t.pending = []
  noBits : t.enc.nb = 0#3
  stream : ∃ p, p < 8 ∧ encStream t = bits ++ List.replicate p false

/-- ENC_START begins a session from every state. -/
theorem session_start {s : State} (is : List Instr) (hi : Inv s) (hp : s.pending = []) :
    ∃ u, step (issue (.encStart :: is) s) = .next u ∧ InSession is [] u ∧ SessionKeeps s u := by
  have hstep := step_issue_encStart is s
  have hinv : Inv (issue (.encStart :: is) s) := inv_congr (s := s) ⟨rfl, rfl, rfl, rfl⟩ hi
  have hpending : (issue is s).pending = is.map (fun i => .op (encode i)) := by
    rw [issue, hp, List.append_nil]
  exact ⟨_, hstep, ⟨stepKeepsTheInvariant _ _ hinv hstep, rfl, hpending, rfl⟩, rfl, rfl, rfl, fun _ _ => rfl⟩

/-- ENC_SYM appends its symbol's code to the session. -/
theorem session_sym {b : Byte} {is : List Instr} {bits code : List Bool} {t : State}
    (h : InSession (.encSym b :: is) bits t) (hc : HoldsLegal t b.toNat code)
    (hfit : (bits ++ code).length ≤ 8 * t.cfg.obufSize) :
    ∃ u, step t = .next u ∧ InSession is (bits ++ code) u ∧ SessionKeeps t u := by
  have hlen := hc.length
  have hroom : t.enc.ocnt.toNat + (t.enc.nb.toNat + (ctabLen t b.toNat).toNat) / 8 ≤ t.cfg.obufSize := by
    rw [List.length_append, ← h.stream, length_encStream] at hfit
    omega
  obtain ⟨u, hexec, hstream, hactive, -, -, -, -, hsame, hrest⟩ :=
    encSymAppendsTheCode b { t with pending := is.map (fun i => .op (encode i)) }
      (inv_congr (s := t) ⟨rfl, rfl, rfl, rfl⟩ h.inv) h.active (hlen ▸ hc.pos) (hlen ▸ hc.le) hroom
  have hstep := step_encoded h.pending rfl hexec
  have hk := sessionKeeps_of_emit hrest hsame
  have hpending : u.pending = is.map (fun i => .op (encode i)) := by rw [hrest]
  have hbits : encStream u = bits ++ code := by
    rw [← h.stream, ← hc.holds.2]
    exact hstream
  exact ⟨_, hstep, ⟨stepKeepsTheInvariant _ _ h.inv hstep, hactive, hpending, hbits⟩, hk.counted⟩

/-- ENC_END appends the sentinel's code and the padding, and ends the session. -/
theorem session_end {bits code : List Bool} {t : State} (h : InSession [.encEnd] bits t) (hc : HoldsLegal t 256 code)
    (hfit : (bits ++ code).length ≤ 8 * t.cfg.obufSize) :
    ∃ u, step t = .next u ∧ SessionEnded (bits ++ code) u ∧ SessionKeeps t u := by
  have hlen := hc.length
  have hroom : t.enc.ocnt.toNat + ceilDiv (t.enc.nb.toNat + (ctabLen t 256).toNat) 8 ≤ t.cfg.obufSize := by
    rw [List.length_append, ← h.stream, length_encStream] at hfit
    unfold ceilDiv
    omega
  obtain ⟨u, p, hexec, hp, -, hstream, henc, -, hsame, hrest⟩ :=
    encEndPadsAndCloses { t with pending := [] }
      (inv_congr (s := t) ⟨rfl, rfl, rfl, rfl⟩ h.inv) h.active (hlen ▸ hc.pos) (hlen ▸ hc.le) hroom
  have hstep := step_encoded h.pending rfl hexec
  have hk := sessionKeeps_of_emit hrest hsame
  have hdone : u.enc.state = .done := by rw [henc]
  have hnb : u.enc.nb = 0#3 := by rw [henc]
  have hpending : u.pending = [] := by rw [hrest]
  have hbits : encStream u = bits ++ code ++ List.replicate p false := by
    rw [← h.stream, ← hc.holds.2]
    exact hstream
  exact ⟨_, hstep, ⟨stepKeepsTheInvariant _ _ h.inv hstep, hdone, hpending, hnb, p, hp, hbits⟩, hk.counted⟩

/-! ## A whole session -/

/-- The ENC_SYM commands of an input append its symbols' codes, in order. -/
theorem session_syms {code : Nat → List Bool} {is : List Instr} (stream : List Byte) {bits : List Bool} {t : State}
    (h : InSession (stream.map (fun b => .encSym b) ++ is) bits t)
    (hc : ∀ b ∈ stream, HoldsLegal t b.toNat (code b.toNat))
    (hfit : (bits ++ stream.flatMap (fun b => code b.toNat)).length ≤ 8 * t.cfg.obufSize) :
    ∃ u, stepN stream.length t = .next u ∧ InSession is (bits ++ stream.flatMap (fun b => code b.toNat)) u ∧
      SessionKeeps t u := by
  induction stream generalizing bits t with
  | nil => exact ⟨t, rfl, by simpa using h, SessionKeeps.refl t⟩
  | cons b bs ih =>
    rw [List.flatMap_cons, ← List.append_assoc] at hfit ⊢
    have hb : (bits ++ code b.toNat).length ≤ 8 * t.cfg.obufSize := by
      rw [List.length_append] at hfit
      omega
    obtain ⟨u, hstep, hu, hk⟩ := session_sym h (hc b List.mem_cons_self) hb
    have hrest : ∀ b' ∈ bs, HoldsLegal u b'.toNat (code b'.toNat) := fun b' hb' =>
      (hc b' (List.mem_cons_of_mem b hb')).kept hk
    obtain ⟨v, hsteps, hv, hk'⟩ := ih hu hrest (hk.cfg ▸ hfit)
    exact ⟨v, by rw [List.length_cons, stepN_succ _ hstep, hsteps], hv, hk.trans hk'⟩

/-- A session over an input whose codes CTAB holds and whose bits fit EOBUF appends the payload's bits and ends. -/
theorem session_run {code : Nat → List Bool} {stream : List Byte} {s : State} (hi : Inv s) (hp : s.pending = [])
    (hc : ∀ b ∈ stream, HoldsLegal s b.toNat (code b.toNat)) (hend : HoldsLegal s 256 (code 256))
    (hfit : (payloadBits code stream).length ≤ 8 * s.cfg.obufSize) :
    ∃ t, stepN (stream.length + 2) (issue (encSession stream) s) = .next t ∧
      SessionEnded (payloadBits code stream) t ∧ SessionKeeps s t := by
  have hsyms : (stream.flatMap (fun b => code b.toNat)).length ≤ 8 * s.cfg.obufSize := by
    rw [payloadBits, List.length_append] at hfit
    omega
  obtain ⟨u, hu, hin, hsu⟩ := session_start (stream.map (fun b => .encSym b) ++ [.encEnd]) hi hp
  obtain ⟨v, hv, hin', huv⟩ := session_syms stream hin (fun b hb => (hc b hb).kept hsu) (hsu.cfg ▸ hsyms)
  have hsv := hsu.trans huv
  obtain ⟨t, ht, hended, hvt⟩ := session_end hin' (hend.kept hsv) (hsv.cfg ▸ hfit)
  refine ⟨t, ?_, hended, hsv.trans hvt⟩
  calc stepN (stream.length + 1 + 1) (issue (encSession stream) s)
      = stepN (stream.length + 1) u := stepN_succ _ hu
    _ = stepN 1 v := stepN_add 1 hv
    _ = .next t := stepN_succ 0 ht

/-- After a session EOBUF holds the packing of its bits (30_encoding.md R79). -/
theorem SessionEnded.eobuf {bits : List Bool} {t : State} (h : SessionEnded bits t) :
    eobufBytes t t.enc.ocnt.toNat = packBytes bits := by
  obtain ⟨p, hp, hstream⟩ := h.stream
  have hnone : pendingBits t.enc = [] := by rw [pendingBits, h.noBits]; rfl
  rw [encStream, hnone, List.append_nil] at hstream
  exact packBytes_of_stream hp hstream

theorem length_packBytes (bits : List Bool) : (packBytes bits).length = ceilDiv bits.length 8 := by
  rw [packBytes, List.length_map, List.length_range]

/-- Settles O47: the session appends the payload's bits, which EOBUF holds packed. -/
theorem encoderSessionWritesThePayload : Obligations.EncoderSessionWritesThePayload := by
  intro s code stream hi hp hcodes hfit
  have hlen : (payload code stream).length = ceilDiv (payloadBits code stream).length 8 := length_packBytes _
  have hbits : (payloadBits code stream).length ≤ 8 * s.cfg.obufSize := by
    rw [hlen, ceilDiv] at hfit
    omega
  have hc : ∀ b ∈ stream, HoldsLegal s b.toNat (code b.toNat) := fun b hb =>
    have ⟨h, h1, h2⟩ := hcodes b.toNat (.inr ⟨b, hb, rfl⟩)
    ⟨Nat.le_of_lt b.isLt, h, h1, h2⟩
  have hend : HoldsLegal s 256 (code 256) :=
    have ⟨h, h1, h2⟩ := hcodes 256 (.inl rfl)
    ⟨Nat.le_refl 256, h, h1, h2⟩
  obtain ⟨t, hrun, hended, _⟩ := session_run hi hp hc hend hbits
  exact ⟨t, hrun, hended.done, hended.pending, hended.eobuf, hlen⟩

end Sys2Proof.Laws

/-! # The statements of 43_decoder.md: every step completes, each decoder command, and the round trip through both
engines -/

namespace Sys2Proof.Laws

open Sys2Proof.Machine

/-- Settles O11: with nothing issued, at a reset and at an operation the step answers a next state. -/
theorem everyStepCompletes : Obligations.EveryStepCompletes := by
  intro s
  rcases step_cases s with ⟨_, h⟩ | ⟨_, _, h⟩ | ⟨_, _, _, _, _, _, h, _⟩
  · exact ⟨_, h⟩
  · exact ⟨_, h⟩
  · exact ⟨_, h⟩

/-! ## The decoder's commands, by state -/

theorem decStartEffect_range {root : Nat} {s : State} (h : s.cfg.treeNodes ≤ root) :
    decStartEffect root s = .error .treeRange := if_pos h

theorem decStartEffect_opens {root : Nat} {s : State} (h : root < s.cfg.treeNodes) :
    decStartEffect root s = .ok (openDecSession (BitVec.ofNat 10 root) s) := if_neg (by omega)

/-- A command that commits a copy answers the copy, with OKAY. -/
theorem respond_commit_ok {e : Engine} {s t : State} {r : Except EngineErr State} (h : r = .ok t) :
    (.next (respondOkay (commit e s r)) : Out) = .next (respondOkay t) := by
  rw [h, commit_ok]

/-- A command that raises answers the state before it with the engine's STATE and ERR set, and OKAY. -/
theorem respond_commit_error {e : Engine} {s : State} {c : EngineErr} {r : Except EngineErr State}
    (h : r = .error c) :
    (.next (respondOkay (commit e s r)) : Out) = .next (respondOkay (raiseEngineError e c s)) := by
  rw [h, commit_error]

/-- Settles O35: the root is compared with TREE_NODES, and one below it fits ROOT's ten bits. -/
theorem decStartOpensOrRaises : Obligations.DecStartOpensOrRaises := by
  intro root s hlegal
  refine ⟨fun h => ?_, fun h => respond_commit_error (decStartEffect_range h)⟩
  have hroot : (BitVec.ofNat 10 root).toNat = root := by
    have := hlegal.1.2
    rw [BitVec.toNat_ofNat]
    omega
  exact ⟨_, respond_commit_ok (decStartEffect_opens h), hroot, hroot, rfl, rfl⟩

section
variable {b : Byte} {s : State}

theorem decByteEffect_idle (h : s.dec.state = .idle) : decByteEffect b s = .error .seq := by
  rw [decByteEffect, h]

theorem decByteEffect_error (h : s.dec.state = .error) : decByteEffect b s = .ok s := by
  rw [decByteEffect, h]

theorem decByteEffect_done (h : s.dec.state = .done) : decByteEffect b s = .ok (setFlag .dxtra s) := by
  rw [decByteEffect, h]

theorem decByteEffect_run (h : s.dec.state = .run) : decByteEffect b s = walkBits 0 (bitsMsbFirst b) s := by
  rw [decByteEffect, h]

theorem decEndEffect_ended (h : s.dec.state = .error ∨ s.dec.state = .done) : decEndEffect s = .ok s := by
  rcases h with h | h
  · rw [decEndEffect, h]
  · rw [decEndEffect, h]

theorem decEndEffect_idle (h : s.dec.state = .idle) : decEndEffect s = .error .seq := by
  rw [decEndEffect, h]

theorem decEndEffect_run (h : s.dec.state = .run) : decEndEffect s = .error .malformed := by
  rw [decEndEffect, h]

end

/-- Settles O36: each state's branch of DEC_BYTE but RUN's. -/
theorem decByteOutsideRun : Obligations.DecByteOutsideRun := fun _ _ =>
  ⟨fun h => respond_commit_error (decByteEffect_idle h), fun h => respond_commit_ok (decByteEffect_error h),
    fun h => respond_commit_ok (decByteEffect_done h)⟩

/-- Settles O37: each state's branch of DEC_END. -/
theorem decEndInEachState : Obligations.DecEndInEachState := fun _ =>
  ⟨fun h => respond_commit_ok (decEndEffect_ended h), fun h => respond_commit_error (decEndEffect_idle h),
    fun h => respond_commit_error (decEndEffect_run h)⟩

/-- A shape depends on the parameters and memory only. -/
theorem holdsShape_sameBlock {s t : State} (h : SameBlock s t) {i : Nat} {x : Shape} (hx : HoldsShape s i x) :
    HoldsShape t i x :=
  HoldsShape_congr h.cfg (fun _ _ => by rw [h.mem]) hx

/-- Settles O38: DEC_BYTE in RUN commits the walk of the byte's bits, which follows the shape TREE holds; the response
touches neither memory nor the decoder. -/
theorem decByteFollowsTheTree : Obligations.DecByteFollowsTheTree := by
  intro b s root cur out e hi hrun hroot hcur hwalk
  have hfollows : WalkFollows s out e (decByteEffect b s) :=
    decByteEffect_run hrun ▸ walk_follows (walkReady_of_inv hi) hroot hcur hwalk
  cases e with
  | failed c => exact respond_commit_error hfollows
  | stopped =>
    obtain ⟨t, hok, hread, hsame, hrest⟩ := hfollows
    exact ⟨_, respond_commit_ok hok, hread, hsame, congrArg respondOkay hrest⟩
  | running place hit path =>
    obtain ⟨t, hok, hread, hsame, hplace, hrest⟩ := hfollows
    have hblock : SameBlock t (respondOkay t) := ⟨rfl, rfl, rfl, rfl⟩
    exact ⟨_, respond_commit_ok hok, hread, hsame, holdsShape_sameBlock hblock hplace, congrArg respondOkay hrest⟩


/-! ## Walks that raise nothing and do not meet the sentinel -/

/-- The walk of `bits` from a place that raises nothing and stays in RUN: the bytes it emits into a buffer with `room`
bytes left, and the place it ends at (43_decoder.md R150, R151). -/
inductive Walks (root : Shape) : Nat → Shape → List Bool → List Byte → Shape → Prop
  | nil (room : Nat) (cur : Shape) : Walks root room cur [] [] cur
  /-- a bit that leads to a leaf of a byte: it is emitted, and the walk goes on from the root -/
  | hit {room : Nat} {cur place : Shape} {bit : Bool} {rest : List Bool} {b : Byte} {out : List Byte}
      (hleaf : shapeAfter cur bit = .leaf b.toNat) (h : Walks root room root rest out place) :
      Walks root (room + 1) cur (bit :: rest) (b :: out) place
  /-- a bit that leads to an internal node -/
  | move {room : Nat} {cur place x y : Shape} {bit : Bool} {rest : List Bool} {out : List Byte}
      (hnode : shapeAfter cur bit = .node x y) (h : Walks root room (.node x y) rest out place) :
      Walks root room cur (bit :: rest) out place

section
variable {root cur place place' : Shape} {room : Nat} {bit last : Bool} {xs ys rest : List Bool}
  {out out' : List Byte}

/-- The walk of a shape at a leaf of a byte, where the buffer has room. -/
theorem walkShape_byte {b : Byte} (h : shapeAfter cur bit = .leaf b.toNat) :
    walkShape root (room + 1) cur (bit :: rest) =
      (walkShape root room root rest).map (fun r => (b :: r.1, r.2.afterHit)) := by
  have hb := b.isLt
  rw [walkShape_leaf h, if_neg (by omega), if_neg (by omega), if_neg (by omega), Nat.add_sub_cancel,
    BitVec.ofNat_toNat, BitVec.setWidth_eq]

theorem walkShape_sentinel (h : shapeAfter cur bit = .leaf 256) :
    walkShape root room cur (bit :: rest) = some ([], .stopped) := walkShape_leaf h

theorem walkShape_node {x y : Shape} (h : shapeAfter cur bit = .node x y) :
    walkShape root room cur (bit :: rest) =
      (walkShape root room (.node x y) rest).map (fun r => (r.1, r.2.afterMove bit)) := by
  rw [walkShape, h]

theorem afterMove_running (bit : Bool) (place : Shape) (hit : Bool) (path : List Bool) :
    ∃ path', (WalkEnd.running place hit path).afterMove bit = .running place hit path' := by
  cases hit
  · exact ⟨bit :: path, rfl⟩
  · exact ⟨path, rfl⟩

/-- Such a walk is one of the model's walk of a shape that goes on. -/
theorem Walks.running (h : Walks root room cur xs out place) :
    ∃ hit path, walkShape root room cur xs = some (out, .running place hit path) := by
  induction h with
  | nil room cur => exact ⟨false, [], by rw [walkShape]⟩
  | hit hleaf _ ih =>
    obtain ⟨hit, path, ih⟩ := ih
    exact ⟨true, path, by rw [walkShape_byte hleaf, ih]; rfl⟩
  | move hnode _ ih =>
    obtain ⟨hit, path, ih⟩ := ih
    obtain ⟨path', hpath⟩ := afterMove_running _ _ hit path
    exact ⟨hit, path', by rw [walkShape_node hnode, ih, Option.map_some, hpath]⟩

/-- Such a walk, with a bit after it that leads to the sentinel, stops there, whatever bits follow. -/
theorem Walks.stopped (h : Walks root room cur xs out place) (hlast : shapeAfter place last = .leaf 256) :
    walkShape root room cur (xs ++ last :: rest) = some (out, .stopped) := by
  induction h with
  | nil room cur => exact walkShape_sentinel hlast
  | hit hleaf _ ih => rw [List.cons_append, walkShape_byte hleaf, ih hlast]; rfl
  | move hnode _ ih => rw [List.cons_append, walkShape_node hnode, ih hlast]; rfl

theorem Walks.length_le (h : Walks root room cur xs out place) : out.length ≤ room := by
  induction h with
  | nil => exact Nat.zero_le _
  | hit _ _ ih => exact Nat.succ_le_succ ih
  | move _ _ ih => exact ih

theorem Walks.append (h : Walks root room cur xs out place)
    (h' : Walks root (room - out.length) place ys out' place') :
    Walks root room cur (xs ++ ys) (out ++ out') place' := by
  induction h with
  | nil => exact h'
  | hit hleaf _ ih => exact .hit hleaf (ih (by rwa [List.length_cons, Nat.add_sub_add_right] at h'))
  | move hnode _ ih => exact .move hnode (ih h')

/-- A walk may be cut after any of its bits. -/
theorem Walks.cut (h : Walks root room cur (xs ++ ys) out place) :
    ∃ out₁ mid out₂, Walks root room cur xs out₁ mid ∧ Walks root (room - out₁.length) mid ys out₂ place ∧
      out = out₁ ++ out₂ := by
  induction xs generalizing room cur out with
  | nil => exact ⟨[], cur, out, .nil _ _, h, rfl⟩
  | cons bit xs ih =>
    cases h with
    | hit hleaf h =>
      obtain ⟨out₁, mid, out₂, h₁, h₂, rfl⟩ := ih h
      exact ⟨_, mid, out₂, .hit hleaf h₁, by rwa [List.length_cons, Nat.add_sub_add_right], rfl⟩
    | move hnode h =>
      obtain ⟨out₁, mid, out₂, h₁, h₂, rfl⟩ := ih h
      exact ⟨out₁, mid, out₂, .move hnode h₁, h₂, rfl⟩

end

/-! ## The codes of a tree lead to its leaves (45_host_reference.md R174) -/

/-- A code leads from a place to a symbol's leaf: all its bits but the last move between internal nodes, and the last
leads to the leaf. -/
def Leads (cur : Shape) (code : List Bool) (sym : Nat) : Prop :=
  ∃ init last place, code = init ++ [last] ∧ (∀ root room, Walks root room cur init [] place) ∧
    shapeAfter place last = .leaf sym

theorem Leads.length_pos {cur : Shape} {code : List Bool} {sym : Nat} (h : Leads cur code sym) : 1 ≤ code.length := by
  obtain ⟨init, last, _, rfl, _⟩ := h
  rw [List.length_append]
  exact Nat.le_add_left 1 _

/-- A code that leads to a byte's leaf emits the byte and returns to the root. -/
theorem Leads.emits {root cur : Shape} {code : List Bool} {b : Byte} {room : Nat} (h : Leads cur code b.toNat)
    (hroom : 0 < room) : Walks root room cur code [b] root := by
  obtain ⟨init, last, place, rfl, hinit, hleaf⟩ := h
  obtain ⟨n, rfl⟩ : ∃ n, room = n + 1 := ⟨room - 1, by omega⟩
  exact (hinit root (n + 1)).append (.hit hleaf (.nil _ _))

/-- Each code of a subtree begins with the path on which the walk came to it. -/
theorem walkCodes_path (t : HTree) (path : List Bool) :
    walkCodes t path = (walkCodes t []).map (fun q => (q.1, path ++ q.2)) := by
  induction t generalizing path with
  | leaf s => simp only [walkCodes, List.map_cons, List.map_nil, List.append_nil]
  | node a b iha ihb =>
    simp only [walkCodes, List.nil_append, iha (path ++ [false]), ihb (path ++ [true]), iha [false], ihb [true],
      List.map_append, List.map_map, Function.comp_def, List.append_assoc]

/-- The codes of an internal node are those of its children, each with the child's bit in front. -/
theorem mem_walkCodes_node {a b : HTree} {sym : Nat} {code : List Bool}
    (h : (sym, code) ∈ walkCodes (.node a b) []) :
    ∃ bit rest, code = bit :: rest ∧ (sym, rest) ∈ walkCodes (if bit then b else a) [] := by
  rw [walkCodes, List.nil_append, List.nil_append, walkCodes_path a, walkCodes_path b, List.mem_append] at h
  rcases h with h | h
  · obtain ⟨⟨_, rest⟩, hmem, heq⟩ := List.mem_map.1 h
    obtain ⟨rfl, rfl⟩ := Prod.mk.inj heq
    exact ⟨false, rest, rfl, hmem⟩
  · obtain ⟨⟨_, rest⟩, hmem, heq⟩ := List.mem_map.1 h
    obtain ⟨rfl, rfl⟩ := Prod.mk.inj heq
    exact ⟨true, rest, rfl, hmem⟩

theorem shapeAfter_node (a b : HTree) (bit : Bool) :
    shapeAfter (HTree.node a b).toShape bit = (if bit then b else a).toShape := by
  cases bit <;> rfl

/-- The codes below an internal node lead to their symbols' leaves. -/
theorem leads_of_mem_walkCodes (code : List Bool) {a b : HTree} {sym : Nat}
    (h : (sym, code) ∈ walkCodes (.node a b) []) : Leads (HTree.node a b).toShape code sym := by
  induction code generalizing a b with
  | nil =>
    obtain ⟨_, _, heq, _⟩ := mem_walkCodes_node h
    cases heq
  | cons bit rest ih =>
    obtain ⟨_, _, heq, hmem⟩ := mem_walkCodes_node h
    obtain ⟨rfl, rfl⟩ := List.cons.inj heq
    have hchild := shapeAfter_node a b bit
    generalize (if bit then b else a) = child at hmem hchild
    cases child with
    | leaf s =>
      obtain ⟨rfl, rfl⟩ := Prod.mk.inj (List.mem_singleton.1 hmem)
      exact ⟨[], bit, _, rfl, fun _ _ => .nil _ _, hchild⟩
    | node x y =>
      obtain ⟨init, last, place, rfl, hinit, hleaf⟩ := ih hmem
      exact ⟨bit :: init, last, place, rfl, fun root room => .move hchild (hinit root room), hleaf⟩

/-- Every code of a tree's table leads from the root to its symbol's leaf; a root leaf is hit by any bit. -/
theorem leads_of_mem_generate {t : HTree} {sym : Nat} {code : List Bool}
    (h : (sym, code) ∈ (generate (some t)).getD []) : Leads t.toShape code sym := by
  cases t with
  | leaf s =>
    obtain ⟨rfl, rfl⟩ := Prod.mk.inj (List.mem_singleton.1 h)
    exact ⟨[], false, _, rfl, fun _ _ => .nil _ _, rfl⟩
  | node a b => exact leads_of_mem_walkCodes code h

theorem walkCodes_syms (t : HTree) (path : List Bool) : (walkCodes t path).map Prod.fst = leafSyms t := by
  induction t generalizing path with
  | leaf s => rfl
  | node a b iha ihb => rw [walkCodes, List.map_append, iha, ihb, leafSyms]

theorem generate_syms (t : HTree) : ((generate (some t)).getD []).map Prod.fst = leafSyms t := by
  cases t with
  | leaf s => rfl
  | node a b => exact walkCodes_syms _ _

theorem codeIn_mem {table : List (Nat × List Bool)} {sym : Nat} (h : sym ∈ table.map Prod.fst) :
    (sym, codeIn table sym) ∈ table := by
  obtain ⟨p, hp, rfl⟩ := List.mem_map.1 h
  unfold codeIn
  split
  · next q hq =>
    have hsym : q.1 = p.1 := by simpa using List.find?_some hq
    exact hsym ▸ List.mem_of_find?_eq_some hq
  · next hnone => exact (List.find?_eq_none.1 hnone p hp (beq_self_eq_true p.1)).elim

/-- A symbol of a tree has its code in the tree's table. -/
theorem treeCode_mem {t : HTree} {sym : Nat} (h : sym ∈ leafSyms t) :
    (sym, treeCode t sym) ∈ (generate (some t)).getD [] :=
  codeIn_mem ((generate_syms t).symm ▸ h)

theorem treeCode_leads {t : HTree} {sym : Nat} (h : sym ∈ leafSyms t) : Leads t.toShape (treeCode t sym) sym :=
  leads_of_mem_generate (treeCode_mem h)

/-! ## The codes of a tree of distinct symbols are legal (45_host_reference.md R175) -/

theorem leafSyms_length_pos (t : HTree) : 1 ≤ (leafSyms t).length := by
  induction t with
  | leaf s => exact Nat.le_refl 1
  | node a b iha _ => rw [leafSyms, List.length_append]; omega

/-- A leaf lies less deep below a node than the node has leaves. -/
theorem walkCodes_length {t : HTree} {path : List Bool} {p : Nat × List Bool} (h : p ∈ walkCodes t path) :
    p.2.length + 1 ≤ path.length + (leafSyms t).length := by
  induction t generalizing path with
  | leaf s => rw [List.mem_singleton.1 h]; exact Nat.le_refl _
  | node a b iha ihb =>
    have ha := leafSyms_length_pos a
    have hb := leafSyms_length_pos b
    rw [leafSyms, List.length_append]
    rcases List.mem_append.1 h with h | h
    · have := iha h
      rw [List.length_append, List.length_singleton] at this
      omega
    · have := ihb h
      rw [List.length_append, List.length_singleton] at this
      omega

theorem generate_length {t : HTree} {p : Nat × List Bool} (h : p ∈ (generate (some t)).getD []) :
    p.2.length ≤ max 1 ((leafSyms t).length - 1) := by
  cases t with
  | leaf s => rw [List.mem_singleton.1 h]; exact Nat.le_max_left _ _
  | node a b =>
    have : p.2.length + 1 ≤ 0 + (leafSyms (.node a b)).length := walkCodes_length h
    omega

/-- There are 257 symbols, so a tree of distinct ones has at most 257 leaves. -/
theorem leafSyms_length_le {t : HTree} (hd : (leafSyms t).Nodup) (h : ∀ sym ∈ leafSyms t, sym ≤ 256) :
    (leafSyms t).length ≤ 257 := by
  have hsub : leafSyms t ⊆ List.range 257 := fun sym hsym => List.mem_range.2 (Nat.lt_succ_of_le (h sym hsym))
  simpa using (hd.subperm hsub).length_le

/-- The codes of a tree of distinct symbols have 1 to 256 bits, which ENC_SYM and ENC_END accept (42_encoder.md
R132). -/
theorem treeCode_legal {s : State} {t : HTree} {sym : Nat} (hd : (leafSyms t).Nodup)
    (h : ∀ sym ∈ leafSyms t, sym ≤ 256 ∧ HoldsCode s sym (treeCode t sym)) (hsym : sym ∈ leafSyms t) :
    HoldsLegal s sym (treeCode t sym) := by
  obtain ⟨hle, hholds⟩ := h sym hsym
  have hleaves := leafSyms_length_le hd fun sym hsym => (h sym hsym).1
  have hlen : (treeCode t sym).length ≤ max 1 ((leafSyms t).length - 1) := generate_length (treeCode_mem hsym)
  exact ⟨hle, hholds, (treeCode_leads hsym).length_pos, by omega⟩

/-! ## The walk of a payload -/

/-- The codes of an input's symbols, one after the other, emit the input. -/
theorem walks_codes {t : HTree} {stream : List Byte} (h : ∀ b ∈ stream, b.toNat ∈ leafSyms t) {room : Nat}
    (hroom : stream.length ≤ room) :
    Walks t.toShape room t.toShape (stream.flatMap fun b => treeCode t b.toNat) stream t.toShape := by
  induction stream generalizing room with
  | nil => exact .nil _ _
  | cons b bs ih =>
    rw [List.length_cons] at hroom
    have hb := (treeCode_leads (h b List.mem_cons_self)).emits (root := t.toShape) (room := room) (by omega)
    exact hb.append (ih (fun b' hb' => h b' (List.mem_cons_of_mem b hb')) (Nat.le_sub_one_of_lt hroom))

/-- A payload's bits but the last emit the input, and the last leads to the sentinel. -/
theorem walks_payload {t : HTree} {stream : List Byte} (h : ∀ b ∈ stream, b.toNat ∈ leafSyms t)
    (hend : 256 ∈ leafSyms t) {room : Nat} (hroom : stream.length ≤ room) :
    ∃ init last place, payloadBits (treeCode t) stream = init ++ [last] ∧
      Walks t.toShape room t.toShape init stream place ∧ shapeAfter place last = .leaf 256 := by
  obtain ⟨init, last, place, hcode, hinit, hleaf⟩ := treeCode_leads hend
  have hwalk := (walks_codes h hroom).append (hinit t.toShape _)
  rw [List.append_nil] at hwalk
  refine ⟨_, last, place, ?_, hwalk, hleaf⟩
  rw [payloadBits, sentinel, hcode, List.append_assoc]

/-! ## The steps of a decoder session -/

theorem length_dobufBytes (s : State) (n : Nat) : (dobufBytes s n).length = n := by
  rw [dobufBytes, List.length_map, List.length_range]

/-- Bytes written from DOBUF[n] on, with every byte below kept, follow the bytes that were there. -/
theorem dobufBytes_append {s t : State} {n : Nat} {out : List Byte}
    (hread : ∀ k (h : k < out.length), t.mem.read (dobufAddr (n + k)) = some out[k])
    (hsame : MemSameOutside (dobufAddr n) out.length s t) :
    dobufBytes t (n + out.length) = dobufBytes s n ++ out := by
  rw [dobufBytes, dobufBytes, List.range_add, List.map_append, List.map_map]
  congr 1
  · refine List.map_congr_left fun j hj => ?_
    have hlt := List.mem_range.1 hj
    rw [hsame _ (by unfold dobufAddr; omega)]
  · refine List.ext_getElem (by simp) fun k hk _ => ?_
    rw [List.length_map, List.length_range] at hk
    simp [hread k hk]

/-- What the commands of a decoder session leave: the parameters, FLAGS and the encoder. -/
structure DecKeeps (s t : State) : Prop where
  cfg : t.cfg = s.cfg
  flags : t.flags = s.flags
  enc : t.enc = s.enc

theorem decKeeps_of_rest {s t u : State} {d : DecEngine} {m : Memory} {p : List Input} {r : Option Response}
    (hrest : t = { s with dec := d, mem := m, pending := p, resp := r }) (i : Instr) :
    DecKeeps s (countFree i u t) := by
  subst hrest
  exact ⟨rfl, rfl, rfl⟩

theorem DecKeeps.trans {s t u : State} (h : DecKeeps s t) (h' : DecKeeps t u) : DecKeeps s u :=
  ⟨h'.cfg.trans h.cfg, h'.flags.trans h.flags, h'.enc.trans h.enc⟩

/-- A decoder session in progress: the shape TREE holds from ROOT, the place where the cursor stands in it, the
instructions still issued, and the bytes emitted so far. -/
structure InDecSession (root place : Shape) (is : List Instr) (out : List Byte) (t : State) : Prop where
  inv : Inv t
  run : t.dec.state = .run
  pending : t.pending = is.map (fun i => .op (encode i))
  root : HoldsShape t t.dec.root.toNat root
  cur : HoldsShape t t.dec.cur.toNat place
  bytes : dobufBytes t t.dec.ocnt.toNat = out

/-- A decoder session that has met the sentinel. -/
structure DecSessionDone (is : List Instr) (out : List Byte) (t : State) : Prop where
  inv : Inv t
  done : t.dec.state = .done
  pending : t.pending = is.map (fun i => .op (encode i))
  bytes : dobufBytes t t.dec.ocnt.toNat = out

section
variable {root place place' : Shape} {is : List Instr} {out out' : List Byte} {t : State}

theorem InDecSession.ocnt (h : InDecSession root place is out t) : t.dec.ocnt.toNat = out.length := by
  rw [← h.bytes, length_dobufBytes]

/-- Taking the oldest instruction from what is issued leaves the session as it is. -/
theorem InDecSession.taken {i : Instr} (h : InDecSession root place (i :: is) out t) :
    InDecSession root place is out { t with pending := is.map (fun i => .op (encode i)) } :=
  have hblock : SameBlock t { t with pending := is.map (fun i => .op (encode i)) } := ⟨rfl, rfl, rfl, rfl⟩
  ⟨inv_congr hblock h.inv, h.run, rfl, holdsShape_sameBlock hblock h.root, holdsShape_sameBlock hblock h.cur, h.bytes⟩

/-- DEC_START begins a session from every state, with the cursor at the root. -/
theorem decSession_start {r : Nat} {s : State} (is : List Instr) (hi : Inv s) (hp : s.pending = [])
    (hr : r < s.cfg.treeNodes) (hroot : HoldsShape s r root) :
    ∃ u, step (issue (.decStart r :: is) s) = .next u ∧ InDecSession root root is [] u ∧ DecKeeps s u := by
  obtain ⟨u, hexec, hur, huc, hdec, hrest⟩ := (decStartOpensOrRaises r (issue is s) hi.legal).1 hr
  have hstep := step_issue_decStart (Nat.lt_of_lt_of_le hr hi.legal.1.2) is s
  rw [hexec, countOut_next] at hstep
  have hinv : Inv (issue (.decStart r :: is) s) := inv_congr (s := s) ⟨rfl, rfl, rfl, rfl⟩ hi
  have hshape : HoldsShape (countFree (.decStart r) (issue is s) u) r root :=
    HoldsShape_congr (by rw [hrest]; rfl) (fun _ _ => by rw [hrest]; rfl) hroot
  refine ⟨_, hstep, ⟨stepKeepsTheInvariant _ _ hinv hstep, ?_, ?_, ?_, ?_, ?_⟩, decKeeps_of_rest (s := s) hrest _⟩
  · rw [countFree_dec, hdec]
  · rw [countFree_pending, hrest, issue, hp, List.append_nil]
  · rw [countFree_dec, hur]; exact hshape
  · rw [countFree_dec, huc]; exact hshape
  · rw [countFree_dec, hdec]; rfl

/-- The bytes a command emits from DOBUF[OCNT] on come after those below OCNT. -/
theorem dobufBytes_emitted {s u : State} (hbytes : dobufBytes s s.dec.ocnt.toNat = out)
    (hlen : out.length + out'.length ≤ 65536)
    (hread : ∀ k (h : k < out'.length), u.mem.read (dobufAddr (s.dec.ocnt.toNat + k)) = some out'[k])
    (hsame : MemSameOutside (dobufAddr s.dec.ocnt.toNat) out'.length s u)
    (hcount : u.dec.ocnt = BitVec.ofNat 17 (s.dec.ocnt.toNat + out'.length)) :
    dobufBytes u u.dec.ocnt.toNat = out ++ out' := by
  have hocnt : s.dec.ocnt.toNat = out.length := by rw [← hbytes, length_dobufBytes]
  have hcount' : u.dec.ocnt.toNat = s.dec.ocnt.toNat + out'.length := by
    rw [hcount, BitVec.toNat_ofNat]
    omega
  rw [hcount', dobufBytes_append hread hsame, hbytes]

/-- The step of a DEC_BYTE that changes the decoder and memory. -/
theorem decByte_step {b : Byte} {rest : List Input} {u : State} {d : DecEngine} {r : Option Response} (hi : Inv t)
    (hp : t.pending = .op (encode (.decByte b)) :: rest)
    (hexec : exec (.decByte b) { t with pending := rest } = .next u)
    (hrest : u = { t with dec := d, mem := u.mem, pending := rest, resp := r }) :
    ∃ v, step t = .next v ∧ Inv v ∧ SameBlock u v ∧ v.pending = rest ∧ DecKeeps t v := by
  have hstep := step_encoded hp rfl hexec
  exact ⟨_, hstep, stepKeepsTheInvariant _ _ hi hstep, ⟨rfl, rfl, rfl, rfl⟩, by rw [countFree_pending, hrest],
    decKeeps_of_rest hrest _⟩

/-- The walk's bytes fit DOBUF, and so the field OCNT. -/
theorem InDecSession.fits (h : InDecSession root place is out t) (hlen : out'.length ≤ t.cfg.obufSize - out.length) :
    out.length + out'.length ≤ 65536 := by
  have hmax := h.inv.legal.2.2.2
  have hcount := h.inv.decCount
  rw [h.ocnt] at hcount
  omega

/-- DEC_BYTE of bits that the walk goes on over. -/
theorem decSession_byte {b : Byte} (h : InDecSession root place (.decByte b :: is) out t)
    (hw : Walks root (t.cfg.obufSize - out.length) place (bitsMsbFirst b) out' place') :
    ∃ u, step t = .next u ∧ InDecSession root place' is (out ++ out') u ∧ DecKeeps t u := by
  obtain ⟨hit, path, hwalk⟩ := hw.running
  rw [← h.ocnt] at hwalk
  obtain ⟨u, hexec, hread, hsame, hplace, hrest⟩ :=
    decByteFollowsTheTree b _ root place out' _ h.taken.inv h.taken.run h.taken.root h.taken.cur hwalk
  obtain ⟨v, hstep, hinv, hv, hpending, hkeeps⟩ := decByte_step h.inv h.pending hexec hrest
  have hroot : HoldsShape u u.dec.root.toNat root := by
    have hdec : u.dec.root = t.dec.root := by rw [hrest]
    rw [hdec]
    exact HoldsShape_same (walkReady_of_inv h.inv) hsame (by rw [hrest]) (by unfold dobufAddr; omega) h.root
  have hbytes := dobufBytes_emitted (u := u) h.bytes (h.fits hw.length_le) hread hsame (by rw [hrest])
  refine ⟨v, hstep, ⟨hinv, ?_, hpending, ?_, ?_, ?_⟩, hkeeps⟩
  · rw [hv.dec, hrest]; exact h.run
  · rw [hv.dec]; exact holdsShape_sameBlock hv hroot
  · rw [hv.dec]; exact holdsShape_sameBlock hv hplace
  · rw [hv.dec, dobufBytes, hv.mem]; exact hbytes

/-- DEC_BYTE of bits among which the walk meets the sentinel. -/
theorem decSession_lastByte {b : Byte} (h : InDecSession root place (.decByte b :: is) out t)
    (hlen : out'.length ≤ t.cfg.obufSize - out.length)
    (hwalk : walkShape root (t.cfg.obufSize - out.length) place (bitsMsbFirst b) = some (out', .stopped)) :
    ∃ u, step t = .next u ∧ DecSessionDone is (out ++ out') u ∧ DecKeeps t u := by
  rw [← h.ocnt] at hwalk
  obtain ⟨u, hexec, hread, hsame, hrest⟩ :=
    decByteFollowsTheTree b _ root place out' _ h.taken.inv h.taken.run h.taken.root h.taken.cur hwalk
  obtain ⟨v, hstep, hinv, hv, hpending, hkeeps⟩ := decByte_step h.inv h.pending hexec hrest
  have hbytes := dobufBytes_emitted (u := u) h.bytes (h.fits hlen) hread hsame (by rw [hrest])
  refine ⟨v, hstep, ⟨hinv, ?_, hpending, ?_⟩, hkeeps⟩
  · rw [hv.dec, hrest]
  · rw [hv.dec, dobufBytes, hv.mem]; exact hbytes

/-- DEC_END after the sentinel is ignored. -/
theorem decSession_end (h : DecSessionDone [.decEnd] out t) :
    ∃ u, step t = .next u ∧ DecSessionDone [] out u ∧ DecKeeps t u := by
  have hstep := step_encoded h.pending rfl ((decEndInEachState { t with pending := [] }).1 (.inr h.done))
  exact ⟨_, hstep, ⟨stepKeepsTheInvariant _ _ h.inv hstep, h.done, rfl, h.bytes⟩, decKeeps_of_rest rfl _⟩

/-! ## A whole decoder session -/

/-- The DEC_BYTE commands of bytes whose bits are a walk, a bit that leads to the sentinel, and fewer than eight bits of
padding: the sentinel is met in the last byte. -/
theorem decSession_bytes {bytes : List Byte} {bits pad : List Bool} {last : Bool}
    (h : InDecSession root place (bytes.map (fun b => .decByte b) ++ is) out t)
    (hbits : bytes.flatMap bitsMsbFirst = bits ++ last :: pad) (hpad : pad.length < 8)
    (hw : Walks root (t.cfg.obufSize - out.length) place bits out' place')
    (hlast : shapeAfter place' last = .leaf 256) :
    ∃ u, stepN bytes.length t = .next u ∧ DecSessionDone is (out ++ out') u ∧ DecKeeps t u := by
  induction bytes generalizing place out out' bits t with
  | nil => cases bits <;> cases hbits
  | cons b bs ih =>
    rw [List.flatMap_cons] at hbits
    by_cases hlen : 8 ≤ bits.length
    · have hpre : bitsMsbFirst b <+: bits :=
        List.prefix_of_prefix_length_le (hbits ▸ List.prefix_append _ _) (List.prefix_append _ _) hlen
      obtain ⟨bits', rfl⟩ := hpre
      obtain ⟨out₁, mid, out₂, hw₁, hw₂, rfl⟩ := hw.cut
      obtain ⟨u, hstep, hu, hk⟩ := decSession_byte h hw₁
      rw [List.append_assoc] at hbits
      rw [Nat.sub_sub, ← List.length_append, ← hk.cfg] at hw₂
      obtain ⟨v, hsteps, hv, hk'⟩ := ih hu (List.append_cancel_left hbits) hw₂
      rw [List.append_assoc] at hv
      exact ⟨v, by rw [List.length_cons, stepN_succ _ hstep, hsteps], hv, hk.trans hk'⟩
    · have hcount := congrArg List.length hbits
      rw [List.length_append, length_bitsMsbFirst, flatMap_bits_length, List.length_append, List.length_cons] at hcount
      obtain rfl : bs = [] := List.length_eq_zero_iff.1 (by omega)
      rw [List.flatMap_nil, List.append_nil] at hbits
      have hstopped := hw.stopped (rest := pad) hlast
      rw [← hbits] at hstopped
      obtain ⟨u, hstep, hu⟩ := decSession_lastByte h hw.length_le hstopped
      exact ⟨u, stepN_succ 0 hstep, hu⟩

/-- A decoder session over such bytes emits what the walk from the root emits, and ends in DONE. -/
theorem decSession_run {s : State} {r : Nat} {bytes : List Byte} {bits pad : List Bool} {last : Bool} (hi : Inv s)
    (hp : s.pending = []) (hr : r < s.cfg.treeNodes) (hroot : HoldsShape s r root)
    (hbits : bytes.flatMap bitsMsbFirst = bits ++ last :: pad) (hpad : pad.length < 8)
    (hw : Walks root s.cfg.obufSize root bits out place) (hlast : shapeAfter place last = .leaf 256) :
    ∃ u, stepN (bytes.length + 2) (issue (decSession r bytes) s) = .next u ∧ DecSessionDone [] out u ∧
      DecKeeps s u := by
  obtain ⟨u, hu, hin, hsu⟩ := decSession_start (bytes.map (fun b => .decByte b) ++ [.decEnd]) hi hp hr hroot
  obtain ⟨v, hv, hdone, huv⟩ := decSession_bytes hin hbits hpad (hsu.cfg ▸ hw) hlast
  obtain ⟨w, hend, hended, hvw⟩ := decSession_end hdone
  refine ⟨w, ?_, hended, (hsu.trans huv).trans hvw⟩
  calc stepN (bytes.length + 1 + 1) (issue (decSession r bytes) s)
      = stepN (bytes.length + 1) u := stepN_succ _ hu
    _ = stepN 1 v := stepN_add 1 hv
    _ = .next w := stepN_succ 0 hend

end

/-! ## Both engines -/

/-- An encoder session keeps what TREE holds. -/
theorem SessionKeeps.holdsShape {s t : State} (h : SessionKeeps s t) (hi : Inv s) {i : Nat} {x : Shape}
    (hx : HoldsShape s i x) : HoldsShape t i x :=
  HoldsShape_congr h.cfg (fun j hj => writtenWord_congr fun a _ ha => h.tables a (by
    have := treeAddr_lt (walkReady_of_inv hi) hj
    omega)) hx

/-- The bits of EOBUF after an encoder session. -/
theorem SessionEnded.eobufBits {bits : List Bool} {t : State} (h : SessionEnded bits t) :
    ∃ p, p < 8 ∧ (eobufBytes t t.enc.ocnt.toNat).flatMap bitsMsbFirst = bits ++ List.replicate p false := by
  obtain ⟨p, hp, hstream⟩ := h.stream
  have hnone : pendingBits t.enc = [] := by rw [pendingBits, h.noBits]; rfl
  rw [encStream, hnone, List.append_nil] at hstream
  exact ⟨p, hp, hstream⟩

theorem length_eobufBytes (s : State) (n : Nat) : (eobufBytes s n).length = n := by
  rw [eobufBytes, List.length_map, List.length_range]

/-- The root of a tree that TREE holds is an index of TREE. -/
theorem root_lt_of_holdsShape {s : State} {i : Nat} {t : HTree} (h : HoldsShape s i t.toShape) :
    i < s.cfg.treeNodes := by
  cases t with
  | leaf _ => exact h.1
  | node _ _ => exact h.1

/-- Settles O48: the encoder's session leaves the payload's bits in EOBUF and TREE as it was, and the decoder's session
walks these bits: each code back to its symbol, and the sentinel's last bit, within the last byte, to DONE. -/
theorem roundTripThroughBothEngines : Obligations.RoundTripThroughBothEngines := by
  intro s tree root stream hi hp hshape hdistinct hend hcodes hsyms hfit hroom
  have hlegal : ∀ sym ∈ leafSyms tree, HoldsLegal s sym (treeCode tree sym) := fun _ =>
    treeCode_legal hdistinct hcodes
  have hbits : (payloadBits (treeCode tree) stream).length ≤ 8 * s.cfg.obufSize := by
    rw [payload, length_packBytes, ceilDiv] at hfit
    omega
  obtain ⟨t, hrun, hended, hkeeps⟩ :=
    session_run hi hp (fun b hb => hlegal _ (hsyms b hb)) (hlegal 256 hend) hbits
  obtain ⟨init, last, place, hpayload, hwalk, hleaf⟩ := walks_payload hsyms hend (hkeeps.cfg ▸ hroom)
  obtain ⟨p, hpad, hstream⟩ := hended.eobufBits
  rw [hpayload, List.append_assoc, List.singleton_append] at hstream
  have hshape' := hkeeps.holdsShape hi hshape
  obtain ⟨u, hrun', hdone, hkeeps'⟩ := decSession_run hended.inv hended.pending (root_lt_of_holdsShape hshape')
    hshape' hstream (by rwa [List.length_replicate]) hwalk hleaf
  rw [length_eobufBytes] at hrun'
  have hcount : u.dec.ocnt.toNat = stream.length := by rw [← hdone.bytes, length_dobufBytes]
  exact ⟨t, hrun, u, hrun', hdone.done, by rw [hkeeps'.enc, hended.done], hdone.bytes, hcount,
    hkeeps'.flags.trans hkeeps.flags⟩

end Sys2Proof.Laws

/-! # The statements of 45_host_reference.md: the built tree's leaves and weights, that none of its codes begins
another, and the bounds on both -/

namespace Sys2Proof.Laws

open Sys2Proof.Machine

/-! ## The symbols of the frequency table (45_host_reference.md R170) -/

theorem symWeight_sentinel (stream : List Byte) : symWeight stream 256 = 1 := if_pos rfl

theorem symWeight_eq_count (stream : List Byte) {sym : Nat} (h : sym ≠ 256) :
    symWeight stream sym = (stream.map BitVec.toNat).count sym := by
  rw [symWeight, if_neg h, List.count, List.countP_map]
  rfl

theorem symWeight_pos_iff (stream : List Byte) (sym : Nat) :
    0 < symWeight stream sym ↔ sym = 256 ∨ sym ∈ stream.map BitVec.toNat := by
  by_cases h : sym = 256
  · simp [h, symWeight_sentinel]
  · rw [symWeight_eq_count stream h, List.count_pos_iff, or_iff_right h]

theorem byteSym_lt {stream : List Byte} {sym : Nat} (h : sym ∈ stream.map BitVec.toNat) : sym < 256 := by
  obtain ⟨b, _, rfl⟩ := List.mem_map.1 h
  exact b.isLt

theorem scan_syms (stream : List Byte) :
    (scan stream).map Prod.fst = (List.range 257).filter (fun sym => 0 < symWeight stream sym) := by
  rw [scan, List.filter_map, List.map_map]
  exact List.map_id _

theorem mem_scan_syms (stream : List Byte) (sym : Nat) :
    sym ∈ (scan stream).map Prod.fst ↔ sym = 256 ∨ sym ∈ stream.map BitVec.toNat := by
  rw [scan_syms, List.mem_filter, List.mem_range, decide_eq_true_iff, symWeight_pos_iff, and_iff_right_iff_imp]
  rintro (rfl | h)
  · decide
  · exact Nat.lt_succ_of_lt (byteSym_lt h)

/-- No symbol stands in the frequency table twice. -/
theorem scan_syms_nodup (stream : List Byte) : ((scan stream).map Prod.fst).Nodup := by
  rw [scan_syms]
  exact List.nodup_range.filter _

/-- The table's symbols are the sentinel and the input's distinct bytes. -/
theorem scan_syms_perm (stream : List Byte) :
    ((scan stream).map Prod.fst).Perm (256 :: (stream.map BitVec.toNat).dedup) := by
  have hfresh : 256 ∉ (stream.map BitVec.toNat).dedup := fun h =>
    Nat.lt_irrefl _ (byteSym_lt (List.mem_dedup.1 h))
  refine (List.perm_ext_iff_of_nodup (scan_syms_nodup stream) (List.nodup_dedup _ |>.cons hfresh)).2 fun sym => ?_
  rw [mem_scan_syms, List.mem_cons, List.mem_dedup]

/-- The table's weights add up to the input's bytes, each counted at its symbol, and one for the sentinel. -/
theorem scan_weights_sum (stream : List Byte) :
    (((scan stream).map Prod.fst).map (symWeight stream)).sum = stream.length + 1 := by
  have hbytes : (stream.map BitVec.toNat).dedup.map (symWeight stream) =
      (stream.map BitVec.toNat).dedup.map fun sym => (stream.map BitVec.toNat).count sym :=
    List.map_congr_left fun sym h => symWeight_eq_count stream (byteSym_lt (List.mem_dedup.1 h)).ne
  calc (((scan stream).map Prod.fst).map (symWeight stream)).sum
      = ((256 :: (stream.map BitVec.toNat).dedup).map (symWeight stream)).sum :=
        ((scan_syms_perm stream).map _).sum_eq
    _ = 1 + (stream.map BitVec.toNat).length := by
        rw [List.map_cons, List.sum_cons, symWeight_sentinel, hbytes, List.sum_map_count_dedup_eq_length]
    _ = stream.length + 1 := by rw [List.length_map, Nat.add_comm]

/-! ## The priority structure (45_host_reference.md R171) -/

theorem takeLeast_perm (x : PqItem) (rest : List PqItem) :
    ((takeLeast x rest).1 :: (takeLeast x rest).2).Perm (x :: rest) := by
  induction rest generalizing x with
  | nil => exact .refl _
  | cons y rest ih =>
    rw [takeLeast]
    split
    · exact (List.Perm.swap _ _ _).trans ((ih y).cons x)
    · exact .refl _

theorem extractMin_eq_none {q : Pq} (h : q.extractMin = none) : q.items = [] := by
  unfold Pq.extractMin at h
  split at h
  · assumption
  · cases h

/-- `extract_min` takes one pair out and leaves the others. -/
theorem extractMin_perm {q q' : Pq} {a : PqItem} (h : q.extractMin = some (a, q')) :
    q.items.Perm (a :: q'.items) := by
  unfold Pq.extractMin at h
  split at h
  · cases h
  · next x rest hitems =>
    obtain ⟨rfl, rfl⟩ := Prod.mk.inj (Option.some.inj h)
    exact hitems ▸ (takeLeast_perm x rest).symm

/-! ## The builder (45_host_reference.md R172) -/

/-- The symbols at the leaves of all the trees that the priority structure holds. -/
def heldSyms (q : Pq) : List Nat := q.items.flatMap fun x => leafSyms x.tree

/-- A merge keeps the leaves: the two least pairs give way to one whose tree has the leaves of both. -/
theorem heldSyms_merge {q q1 q2 : Pq} {a b : PqItem} (h1 : q.extractMin = some (a, q1))
    (h2 : q1.extractMin = some (b, q2)) :
    (heldSyms (q2.insert (a.weight + b.weight) (.node a.tree b.tree))).Perm (heldSyms q) := by
  have hitems : q.items.Perm (a :: b :: q2.items) := (extractMin_perm h1).trans ((extractMin_perm h2).cons a)
  have hmoved : (heldSyms q2 ++ (leafSyms a.tree ++ leafSyms b.tree)).Perm
      ((leafSyms a.tree ++ leafSyms b.tree) ++ heldSyms q2) := List.perm_append_comm
  refine List.Perm.trans ?_ (hitems.symm.flatMap_right _)
  simpa [heldSyms, Pq.insert, leafSyms] using hmoved

/-- A merge leaves one pair less. -/
theorem length_merge {q q1 q2 : Pq} {a b : PqItem} {w : Nat} {t : HTree} (h1 : q.extractMin = some (a, q1))
    (h2 : q1.extractMin = some (b, q2)) : (q2.insert w t).items.length + 1 = q.items.length := by
  have hlen1 := (extractMin_perm h1).length_eq
  have hlen2 := (extractMin_perm h2).length_eq
  rw [List.length_cons] at hlen1 hlen2
  rw [Pq.insert, List.length_append, List.length_singleton]
  omega

/-- The loop ends within as many turns as the structure holds pairs, with one tree of all their leaves. -/
theorem buildLoop_leafSyms {n : Nat} {q : Pq} (hne : q.items ≠ []) (hn : q.items.length ≤ n) :
    ∃ t, buildLoop n q = some t ∧ (leafSyms t).Perm (heldSyms q) := by
  induction n generalizing q with
  | zero => exact absurd (List.eq_nil_of_length_eq_zero (Nat.le_zero.1 hn)) hne
  | succ n ih =>
    unfold buildLoop
    split
    · next h => exact absurd (extractMin_eq_none h) hne
    · next a q1 h1 =>
      split
      · next h2 =>
        have hone : q.items.Perm [a] := extractMin_eq_none h2 ▸ extractMin_perm h1
        exact ⟨a.tree, rfl, by simpa [heldSyms] using (hone.symm.flatMap_right fun x => leafSyms x.tree)⟩
      · next b q2 h2 =>
        have hlen := length_merge (w := a.weight + b.weight) (t := .node a.tree b.tree) h1 h2
        obtain ⟨t, hbuild, hperm⟩ := ih (q := q2.insert (a.weight + b.weight) (.node a.tree b.tree))
          (by simp [Pq.insert]) (by omega)
        exact ⟨t, hbuild, hperm.trans (heldSyms_merge h1 h2)⟩

/-- The builder's initial insertions put in one leaf per pair of the table, in the table's order. -/
theorem insertLeaves_trees (w : List (Nat × Nat)) :
    (insertLeaves w).items.map PqItem.tree = w.map fun p => .leaf p.1 := by
  suffices h : ∀ q : Pq, (w.foldl (fun q p => q.insert p.2 (.leaf p.1)) q).items.map PqItem.tree =
      q.items.map PqItem.tree ++ w.map fun p => .leaf p.1 from h Pq.empty
  intro q
  induction w generalizing q with
  | nil => exact (List.append_nil _).symm
  | cons p w ih =>
    rw [List.foldl_cons, ih, Pq.insert, List.map_append, List.append_assoc]
    rfl

theorem length_insertLeaves (w : List (Nat × Nat)) : (insertLeaves w).items.length = w.length := by
  simpa using congrArg List.length (insertLeaves_trees w)

theorem heldSyms_insertLeaves (w : List (Nat × Nat)) : heldSyms (insertLeaves w) = w.map Prod.fst := by
  calc heldSyms (insertLeaves w)
      = ((insertLeaves w).items.map PqItem.tree).flatMap leafSyms := (List.flatMap_map _ _ _).symm
    _ = (w.map fun p => HTree.leaf p.1).flatMap leafSyms := by rw [insertLeaves_trees]
    _ = w.map Prod.fst := by rw [List.flatMap_map, List.map_eq_flatMap]; rfl

/-- The builder turns every table that is not empty into a tree with a leaf for each of its symbols. -/
theorem build_leafSyms {w : List (Nat × Nat)} (hne : w ≠ []) :
    ∃ t, build w = some t ∧ (leafSyms t).Perm (w.map Prod.fst) := by
  have hlen := length_insertLeaves w
  have hpos := List.length_pos_iff.2 hne
  rw [← heldSyms_insertLeaves]
  exact buildLoop_leafSyms (List.length_pos_iff.1 (hlen ▸ hpos)) (by omega)

/-- The sentinel is in every frequency table. -/
theorem scan_ne_nil (stream : List Byte) : scan stream ≠ [] := by
  obtain ⟨p, hp, _⟩ := List.mem_map.1 ((mem_scan_syms stream 256).2 (.inl rfl))
  exact List.ne_nil_of_mem hp

/-- Settles O49: each merge keeps the leaves, so the one tree left has the table's symbols, whose weights count each
byte of the input once and the sentinel. -/
theorem builtTreeHoldsEveryWeight : Obligations.BuiltTreeHoldsEveryWeight := by
  intro stream
  obtain ⟨tree, hbuild, hperm⟩ := build_leafSyms (scan_ne_nil stream)
  exact ⟨tree, hbuild, hperm, (hperm.map _).sum_eq.trans (scan_weights_sum stream)⟩

/-! ## No code begins another symbol's code (45_host_reference.md R180) -/

/-- A table that the generator answers is that of a tree. -/
theorem generate_eq_some {o : Option HTree} {table : List (Nat × List Bool)} (h : generate o = some table) :
    ∃ t, o = some t ∧ table = (generate (some t)).getD [] := by
  cases o with
  | none => cases h
  | some t => exact ⟨t, rfl, by rw [h, Option.getD_some]⟩

/-- Two codes below a node of which one begins the other turn the same way at every node, so they end at one leaf. -/
theorem walkCodes_prefix_sym {t : HTree} {s s' : Nat} {code code' : List Bool} (h : (s, code) ∈ walkCodes t [])
    (h' : (s', code') ∈ walkCodes t []) (hpre : code <+: code') : s = s' := by
  induction t generalizing code code' with
  | leaf sym =>
    obtain ⟨rfl, _⟩ := Prod.mk.inj (List.mem_singleton.1 h)
    obtain ⟨rfl, _⟩ := Prod.mk.inj (List.mem_singleton.1 h')
    rfl
  | node a b iha ihb =>
    obtain ⟨bit, rest, rfl, hmem⟩ := mem_walkCodes_node h
    obtain ⟨bit', rest', rfl, hmem'⟩ := mem_walkCodes_node h'
    obtain ⟨rfl, hrest⟩ := List.cons_prefix_cons.1 hpre
    cases bit with
    | false => exact iha hmem hmem' hrest
    | true => exact ihb hmem hmem' hrest

theorem generate_prefix_sym {t : HTree} {p q : Nat × List Bool} (hp : p ∈ (generate (some t)).getD [])
    (hq : q ∈ (generate (some t)).getD []) (hpre : p.2 <+: q.2) : p.1 = q.1 := by
  cases t with
  | leaf sym => rw [List.mem_singleton.1 hp, List.mem_singleton.1 hq]
  | node a b => exact walkCodes_prefix_sym (t := .node a b) hp hq hpre

/-- Settles O50: in the table of any tree, a code that begins another belongs to the same leaf. -/
theorem codesArePrefixFree : Obligations.CodesArePrefixFree := by
  intro stream table htable p hp q hq hne hpre
  obtain ⟨t, _, rfl⟩ := generate_eq_some htable
  exact hne (generate_prefix_sym hp hq hpre)

/-! ## The sizes of trees and the lengths of codes (45_host_reference.md R175) -/

theorem size_succ_eq (t : HTree) : t.size + 1 = 2 * (leafSyms t).length := by
  induction t with
  | leaf sym => rfl
  | node a b iha ihb =>
    rw [HTree.size, leafSyms, List.length_append]
    omega

/-- A built tree has at most one leaf per symbol. -/
theorem build_leaves_le {stream : List Byte} {t : HTree} (h : build (scan stream) = some t) :
    (leafSyms t).length ≤ 257 := by
  obtain ⟨t', hbuild, hperm⟩ := build_leafSyms (scan_ne_nil stream)
  obtain rfl : t' = t := Option.some.inj (hbuild.symm.trans h)
  refine leafSyms_length_le (hperm.nodup_iff.2 (scan_syms_nodup stream)) fun sym hsym => ?_
  rcases (mem_scan_syms stream sym).1 (hperm.mem_iff.1 hsym) with rfl | hbyte
  · exact Nat.le_refl _
  · exact (byteSym_lt hbyte).le

/-- Settles O51: an internal node adds one node to its children's, a code is shorter than the number of leaves, and a
built tree has at most 257 leaves. -/
theorem codeLengthAndTreeSizeBounds : Obligations.CodeLengthAndTreeSizeBounds := by
  refine ⟨fun tree => ⟨?_, fun table htable p hp => ?_⟩,
    fun stream tree hbuild => ⟨?_, fun table htable p hp => ?_⟩⟩
  · have hsize := size_succ_eq tree
    omega
  · have hmem : p ∈ (generate (some tree)).getD [] := by rwa [htable]
    exact ⟨(leads_of_mem_generate hmem).length_pos, generate_length hmem⟩
  · have hsize := size_succ_eq tree
    have hleaves := build_leaves_le hbuild
    omega
  · have hlen := generate_length (t := tree) (p := p) (by rwa [htable])
    have hleaves := build_leaves_le hbuild
    omega

end Sys2Proof.Laws

/-! # The statements of 60_exceptions.md: engine errors are precise and the first is kept, the transitions of both
engines, the frame of their commands, and that neither engine sees the other -/

namespace Sys2Proof.Laws

open Sys2Proof.Machine

/-! ## The commands of an engine, and what a commit keeps -/

theorem encCommand_cases {i : Instr} (h : engineCommand .enc i = true) :
    i = .encStart ∨ (∃ b, i = .encSym b) ∨ i = .encEnd ∨ i = .encOclr := by
  cases i with
  | encStart => exact .inl rfl
  | encSym b => exact .inr (.inl ⟨b, rfl⟩)
  | encEnd => exact .inr (.inr (.inl rfl))
  | encOclr => exact .inr (.inr (.inr rfl))
  | _ => exact absurd h Bool.false_ne_true

theorem decCommand_cases {i : Instr} (h : engineCommand .dec i = true) :
    (∃ r, i = .decStart r) ∨ (∃ b, i = .decByte b) ∨ i = .decEnd ∨ i = .decOclr := by
  cases i with
  | decStart r => exact .inl ⟨r, rfl⟩
  | decByte b => exact .inr (.inl ⟨b, rfl⟩)
  | decEnd => exact .inr (.inr (.inl rfl))
  | decOclr => exact .inr (.inr (.inr rfl))
  | _ => exact absurd h Bool.false_ne_true

/-- What holds of the copy a command computes, and of every state an engine error leads to, holds of the commit. -/
theorem commit_keeps {P : State → Prop} {e : Engine} {s : State} {r : Except EngineErr State}
    (hraise : ∀ c, P (raiseEngineError e c s)) (hcopy : ∀ t, r = .ok t → P t) : P (commit e s r) := by
  cases r with
  | ok t => exact hcopy t rfl
  | error c => exact hraise c

section
variable {sym need : Nat} {s t u : State}

/-- An append in ACTIVE: the error of a check that fails, or the copy, whose bytes fit EOBUF (42_encoder.md R132,
R134, R135). -/
theorem checkedAppend_active (h : s.enc.state = .active) :
    (∃ c, (c = .nosym ∨ c = .badlen ∨ c = .overflow) ∧ checkedAppend sym need s u = .error c) ∨
      (s.enc.ocnt.toNat + need ≤ s.cfg.obufSize ∧ checkedAppend sym need s u = .ok u) := by
  by_cases h0 : (ctabLen s sym).toNat = 0
  · exact .inl ⟨_, .inl rfl, checkedAppend_badCode h (checkCode_empty h0)⟩
  by_cases h256 : 256 < (ctabLen s sym).toNat
  · exact .inl ⟨_, .inr (.inl rfl), checkedAppend_badCode h (checkCode_tooLong h256)⟩
  have hcode : checkCode sym s = .ok () := checkCode_legal (by omega) (by omega)
  have hlegal := checkedAppend_legal (need := need) (t := u) h hcode
  by_cases hfull : s.cfg.obufSize < s.enc.ocnt.toNat + need
  · exact .inl ⟨_, .inr (.inr rfl), hlegal.trans (if_pos hfull)⟩
  · exact .inr ⟨by omega, hlegal.trans (if_neg hfull)⟩

/-- The copy of an append is the state before it in ERROR, and what it appends in ACTIVE. -/
theorem checkedAppend_ok (h : checkedAppend sym need s u = .ok t) :
    t = s ∨ (t = u ∧ s.enc.ocnt.toNat + need ≤ s.cfg.obufSize) := by
  cases hst : s.enc.state with
  | idle => cases (checkedAppend_noSession (.inl hst)).symm.trans h
  | done => cases (checkedAppend_noSession (.inr hst)).symm.trans h
  | error => exact .inl (Except.ok.inj (h.symm.trans (checkedAppend_ignored hst)))
  | active =>
    rcases checkedAppend_active (sym := sym) (need := need) (u := u) hst with ⟨_, _, he⟩ | ⟨hfit, hu⟩
    · cases he.symm.trans h
    · exact .inr ⟨Except.ok.inj (h.symm.trans hu), hfit⟩

/-- What holds of the state before an append, of what it appends where that fits, and of every error, holds of its
commit. -/
theorem append_keeps {P : State → Prop} (hraise : ∀ c, P (raiseEngineError .enc c s)) (hsame : P s)
    (hcopy : s.enc.ocnt.toNat + need ≤ s.cfg.obufSize → P u) :
    P (commit .enc s (checkedAppend sym need s u)) := by
  refine commit_keeps hraise fun t ht => ?_
  rcases checkedAppend_ok ht with rfl | ⟨rfl, hfit⟩
  · exact hsame
  · exact hcopy hfit

end

/-- The copy of DEC_BYTE: the state before it in ERROR, DXTRA set in DONE, and the walk in RUN (43_decoder.md
R152). -/
theorem decByteEffect_ok {b : Byte} {s t : State} (h : decByteEffect b s = .ok t) :
    t = s ∨ t = setFlag .dxtra s ∨ walkBits 0 (bitsMsbFirst b) s = .ok t := by
  cases hst : s.dec.state with
  | idle => cases (decByteEffect_idle hst).symm.trans h
  | error => exact .inl (Except.ok.inj (h.symm.trans (decByteEffect_error hst)))
  | done => exact .inr (.inl (Except.ok.inj (h.symm.trans (decByteEffect_done hst))))
  | run => exact .inr (.inr ((decByteEffect_run hst).symm.trans h))

/-- What holds of the state before DEC_BYTE, with DXTRA set too, of a walk, and of every error, holds of its commit. -/
theorem decByte_keeps {P : State → Prop} {b : Byte} {s : State} (hraise : ∀ c, P (raiseEngineError .dec c s))
    (hsame : P s) (hflag : P (setFlag .dxtra s)) (hwalk : ∀ t, walkBits 0 (bitsMsbFirst b) s = .ok t → P t) :
    P (commit .dec s (decByteEffect b s)) := by
  refine commit_keeps hraise fun t ht => ?_
  rcases decByteEffect_ok ht with rfl | rfl | ht
  · exact hsame
  · exact hflag
  · exact hwalk t ht

theorem decStart_keeps {P : State → Prop} {r : Nat} {s : State} (hraise : ∀ c, P (raiseEngineError .dec c s))
    (hopen : P (openDecSession (BitVec.ofNat 10 r) s)) : P (commit .dec s (decStartEffect r s)) := by
  unfold decStartEffect
  split
  · exact hraise _
  · exact hopen

theorem decEnd_keeps {P : State → Prop} {s : State} (hraise : ∀ c, P (raiseEngineError .dec c s)) (hsame : P s) :
    P (commit .dec s (decEndEffect s)) := by
  unfold decEndEffect
  cases s.dec.state with
  | error | done => exact hsame
  | idle | run => exact hraise _

/-! ## The frame of each engine's commands -/

/-- Only the encoder and memory differ. -/
def EncFrame (s t : State) : Prop := t = { s with enc := t.enc, mem := t.mem }

/-- Only the decoder, memory and FLAGS differ. -/
def DecFrame (s t : State) : Prop := t = { s with dec := t.dec, mem := t.mem, flags := t.flags }

theorem appendCode_encFrame (sym : Nat) (s : State) : EncFrame s (appendCode sym s) := (appendBits_rest _ s).1

theorem padded_encFrame (sym : Nat) (s : State) : EncFrame s (padAndEmit (appendCode sym s)) := by
  have hcode := appendCode_encFrame sym s
  have hpad : EncFrame (appendCode sym s) (padAndEmit (appendCode sym s)) := (padAndEmit_rest _).1
  unfold EncFrame at *
  rw [hpad, hcode]

theorem closed_encFrame (sym : Nat) (s : State) : EncFrame s (closeSession (padAndEmit (appendCode sym s))) :=
  congrArg closeSession (padded_encFrame sym s)

theorem walk_decFrame {b : Byte} {s t : State} (h : walkBits 0 (bitsMsbFirst b) s = .ok t) : DecFrame s t := by
  have hrest := (walkBits_keeps h).rest
  unfold DecFrame
  rw [hrest]

theorem encCommand_rest {i : Instr} {s t : State} (hc : engineCommand .enc i = true) (h : exec i s = .next t) :
    t = { s with enc := t.enc, mem := t.mem, resp := some { status := .okay, data := none } } := by
  rcases encCommand_cases hc with rfl | ⟨b, rfl⟩ | rfl | rfl
  · obtain rfl := Host.Outcome.next.inj h
    rfl
  · obtain rfl := Host.Outcome.next.inj ((exec_encSym b s).symm.trans h)
    exact congrArg respondOkay
      (append_keeps (P := EncFrame s) (fun _ => rfl) rfl fun _ => appendCode_encFrame b.toNat s)
  · obtain rfl := Host.Outcome.next.inj ((exec_encEnd s).symm.trans h)
    exact congrArg respondOkay
      (append_keeps (P := EncFrame s) (fun _ => rfl) rfl fun _ => closed_encFrame 256 s)
  · obtain rfl := Host.Outcome.next.inj h
    rfl

theorem decCommand_rest {i : Instr} {s t : State} (hc : engineCommand .dec i = true) (h : exec i s = .next t) :
    t = { s with
      dec := t.dec, mem := t.mem, flags := t.flags, resp := some { status := .okay, data := none } } := by
  rcases decCommand_cases hc with ⟨r, rfl⟩ | ⟨b, rfl⟩ | rfl | rfl
  · obtain rfl := Host.Outcome.next.inj h
    exact congrArg respondOkay (decStart_keeps (P := DecFrame s) (fun _ => rfl) rfl)
  · obtain rfl := Host.Outcome.next.inj h
    exact congrArg respondOkay (decByte_keeps (P := DecFrame s) (fun _ => rfl) rfl rfl fun _ => walk_decFrame)
  · obtain rfl := Host.Outcome.next.inj h
    exact congrArg respondOkay (decEnd_keeps (P := DecFrame s) (fun _ => rfl) rfl)
  · obtain rfl := Host.Outcome.next.inj h
    rfl

theorem memSameOutside_refl (lo n : Nat) (s : State) : MemSameOutside lo n s s := fun _ _ => rfl

/-- Bytes emitted into EOBUF, up to a count within OBUF_SIZE. -/
theorem appended_sameOutsideEobuf {s t : State} {bits : List Bool} (h : Appended s bits t)
    (hfit : t.enc.ocnt.toNat ≤ s.cfg.obufSize) : MemSameOutside (eobufAddr 0) s.cfg.obufSize s t := by
  intro a ha
  have hocnt := h.ocnt
  exact h.same a (by unfold eobufAddr at *; omega)

/-- Bytes emitted into DOBUF. -/
theorem walked_sameOutsideDobuf {s t : State} {n : Nat} (h : Walked s t n) :
    MemSameOutside (dobufAddr 0) s.cfg.obufSize s t := by
  intro a ha
  have hcount : t.dec.ocnt.toNat ≤ s.cfg.obufSize := walked_cfg h ▸ h.ready.count
  exact h.same a (by unfold dobufAddr at *; omega)

theorem encCommand_sameOutsideEobuf {i : Instr} {s t : State} (hi : Inv s) (hc : engineCommand .enc i = true)
    (h : exec i s = .next t) : MemSameOutside (eobufAddr 0) s.cfg.obufSize s t := by
  have hsame := memSameOutside_refl (eobufAddr 0) s.cfg.obufSize s
  rcases encCommand_cases hc with rfl | ⟨b, rfl⟩ | rfl | rfl
  · obtain rfl := Host.Outcome.next.inj h
    exact hsame
  · obtain rfl := Host.Outcome.next.inj ((exec_encSym b s).symm.trans h)
    refine append_keeps (P := MemSameOutside _ _ s) (fun _ => hsame) hsame fun hfit => ?_
    have ha := appended_sym hi hfit
    exact appended_sameOutsideEobuf ha (by rw [ha.ocnt, length_codeBits]; exact hfit)
  · obtain rfl := Host.Outcome.next.inj ((exec_encEnd s).symm.trans h)
    refine append_keeps (P := MemSameOutside _ _ s) (fun _ => hsame) hsame fun hfit => ?_
    obtain ⟨p, _, hneed, ha, _, _⟩ := appended_end hi hfit
    have hcount : (padAndEmit (appendCode 256 s)).enc.ocnt.toNat ≤ s.cfg.obufSize := by
      rw [ha.ocnt, List.length_append, length_codeBits, List.length_replicate]
      omega
    have hpad := appended_sameOutsideEobuf ha hcount
    exact hpad
  · obtain rfl := Host.Outcome.next.inj h
    exact hsame

theorem decCommand_sameOutsideDobuf {i : Instr} {s t : State} (hi : Inv s) (hc : engineCommand .dec i = true)
    (h : exec i s = .next t) : MemSameOutside (dobufAddr 0) s.cfg.obufSize s t := by
  have hsame := memSameOutside_refl (dobufAddr 0) s.cfg.obufSize s
  rcases decCommand_cases hc with ⟨r, rfl⟩ | ⟨b, rfl⟩ | rfl | rfl
  · obtain rfl := Host.Outcome.next.inj h
    exact decStart_keeps (P := MemSameOutside _ _ s) (fun _ => hsame) hsame
  · obtain rfl := Host.Outcome.next.inj h
    exact decByte_keeps (P := MemSameOutside _ _ s) (fun _ => hsame) hsame hsame fun _ hw =>
      walked_sameOutsideDobuf (walked_bits (walkReady_of_inv hi) hw)
  · obtain rfl := Host.Outcome.next.inj h
    exact decEnd_keeps (P := MemSameOutside _ _ s) (fun _ => hsame) hsame
  · obtain rfl := Host.Outcome.next.inj h
    exact hsame

/-- A command of the decoder clears no flag, and its event is DXTRA's alone (43_decoder.md R152). -/
theorem decCommand_flags {i : Instr} {s t : State} (hc : engineCommand .dec i = true) (h : exec i s = .next t)
    {f : Flag} (hf : f ≠ .dxtra) : flagValue f t.flags = flagValue f s.flags := by
  have hlaw := exec_flagLaw h f
  have hquiet : flagCleared f i = false ∧ flagEvent s f i = false := by
    cases f with
    | dxtra => exact absurd rfl hf
    | cmdBad | ctLock | trLock => rcases decCommand_cases hc with ⟨r, rfl⟩ | ⟨b, rfl⟩ | rfl | rfl <;> exact ⟨rfl, rfl⟩
  simpa [hquiet] using hlaw

/-- Settles O42: each command's frame, from its commit; the bytes its engine emits lie in the engine's own buffer. -/
theorem engineCommandsKeepTheRest : Obligations.EngineCommandsKeepTheRest := fun _ _ _ hi h =>
  ⟨fun hc => ⟨encCommand_sameOutsideEobuf hi hc h, encCommand_rest hc h⟩,
    fun hc => ⟨decCommand_sameOutsideDobuf hi hc h, fun _ hf => decCommand_flags hc h hf, decCommand_rest hc h⟩⟩

/-! ## What the other instructions leave of an engine -/

/-- Both engines are as before. -/
def EnginesKept (s t : State) : Prop := t.enc = s.enc ∧ t.dec = s.dec

theorem readWindow_engines (mapped : Bool) (v : Word) (s : State) : EnginesKept s (readWindow mapped v s) := by
  cases mapped <;> exact ⟨rfl, rfl⟩

theorem writeWindow_engines (mapped : Bool) {s t : State} (h : EnginesKept s t) :
    EnginesKept s (writeWindow mapped t s) := by
  cases mapped
  · exact ⟨rfl, rfl⟩
  · exact h

theorem writeTree_engines (index : Nat) (v : Word) (s : State) : EnginesKept s (writeTree index v s) := by
  unfold writeTree
  split <;> exact ⟨rfl, rfl⟩

theorem writeCtab_engines (sym word : Nat) (v : Word) (s : State) : EnginesKept s (writeCtab sym word v s) := by
  unfold writeCtab
  split <;> exact ⟨rfl, rfl⟩

/-- An instruction that is no engine command and no CMD write leaves both engines. -/
theorem exec_engines {i : Instr} {s t : State} (he : engineCommand .enc i = false)
    (hd : engineCommand .dec i = false) (hw : ∀ w, i ≠ .wrCmd w) (h : exec i s = .next t) : EnginesKept s t := by
  cases i with
  | encStart | encSym | encEnd | encOclr => exact absurd he.symm Bool.false_ne_true
  | decStart | decByte | decEnd | decOclr => exact absurd hd.symm Bool.false_ne_true
  | wrCmd w => exact absurd rfl (hw w)
  | rdTree | rdCtab | rdCtabEos | rdEobuf | rdDobuf =>
    obtain rfl := Host.Outcome.next.inj h
    exact readWindow_engines _ _ s
  | wrTree index v =>
    obtain rfl := Host.Outcome.next.inj h
    exact writeWindow_engines _ (writeTree_engines index v s)
  | wrCtab sym word v =>
    obtain rfl := Host.Outcome.next.inj h
    exact writeWindow_engines _ (writeCtab_engines sym word v s)
  | wrCtabEos word v =>
    obtain rfl := Host.Outcome.next.inj h
    exact writeWindow_engines _ (writeCtab_engines sentinel word v s)
  | wrEobuf _ v | wrDobuf _ v =>
    obtain rfl := Host.Outcome.next.inj h
    exact writeWindow_engines _ ⟨rfl, rfl⟩
  | _ =>
    obtain rfl := Host.Outcome.next.inj h
    exact ⟨rfl, rfl⟩

/-- The encoder changes by its own commands and by a CMD write only. -/
theorem exec_keeps_enc {i : Instr} {s t : State} (hw : ∀ w, i ≠ .wrCmd w) (h : exec i s = .next t)
    (he : engineCommand .enc i = false) : t.enc = s.enc := by
  cases hd : engineCommand .dec i with
  | true => rw [decCommand_rest hd h]
  | false => exact (exec_engines he hd hw h).1

/-- The decoder changes by its own commands and by a CMD write only. -/
theorem exec_keeps_dec {i : Instr} {s t : State} (hw : ∀ w, i ≠ .wrCmd w) (h : exec i s = .next t)
    (hd : engineCommand .dec i = false) : t.dec = s.dec := by
  cases he : engineCommand .enc i with
  | true => rw [encCommand_rest he h]
  | false => exact (exec_engines he hd hw h).2

/-! ## The transitions of the engines -/

/-- The transitions of ENC_SYM and ENC_END, which lead to the state `target` where they raise nothing. -/
theorem append_transitions {sym need : Nat} {s t u : State} {target : EncState} {out : Out}
    (hout : out = .next (respondOkay (commit .enc s (checkedAppend sym need s u))))
    (hu : s.enc.state = .active → u.enc.state = target) (h : out = .next t) :
    (s.enc.state = .idle ∨ s.enc.state = .done → t.enc.state = .error ∧ t.enc.err = .seq) ∧
    (s.enc.state = .active → t.enc.state = target ∨
      (t.enc.state = .error ∧ (t.enc.err = .nosym ∨ t.enc.err = .badlen ∨ t.enc.err = .overflow))) ∧
    (s.enc.state = .error → t.enc = s.enc) := by
  obtain rfl := Host.Outcome.next.inj (hout.symm.trans h)
  refine ⟨fun hst => ?_, fun hst => ?_, fun hst => ?_⟩
  · rw [checkedAppend_noSession hst]
    exact ⟨rfl, rfl⟩
  · rcases checkedAppend_active (sym := sym) (need := need) (u := u) hst with ⟨c, hc, he⟩ | ⟨_, hok⟩
    · rw [he]
      exact .inr ⟨rfl, hc⟩
    · rw [hok]
      exact .inl (hu hst)
  · rw [checkedAppend_ignored hst]
    rfl

theorem decStart_transitions {r : Nat} {s t : State} (h : exec (.decStart r) s = .next t) :
    t.dec.state = .run ∨ (t.dec.state = .error ∧ t.dec.err = .treeRange) := by
  obtain rfl := Host.Outcome.next.inj h
  by_cases hr : s.cfg.treeNodes ≤ r
  · rw [decStartEffect_range hr]
    exact .inr ⟨rfl, rfl⟩
  · rw [decStartEffect_opens (by omega)]
    exact .inl rfl

theorem decByte_transitions {b : Byte} {s t : State} (h : exec (.decByte b) s = .next t) :
    (s.dec.state = .idle → t.dec.state = .error ∧ t.dec.err = .seq) ∧
    (s.dec.state = .run → t.dec.state = .run ∨ t.dec.state = .done ∨
      (t.dec.state = .error ∧ (t.dec.err = .treeRange ∨ t.dec.err = .treeSym ∨ t.dec.err = .overflow))) ∧
    (s.dec.state = .done → t.dec = s.dec ∧ t.flags.getLsbD 3 = true) ∧
    (s.dec.state = .error → t.dec = s.dec) := by
  obtain rfl := Host.Outcome.next.inj h
  refine ⟨fun hst => ?_, fun hst => ?_, fun hst => ?_, fun hst => ?_⟩
  · rw [decByteEffect_idle hst]
    exact ⟨rfl, rfl⟩
  · rw [decByteEffect_run hst]
    cases hw : walkBits 0 (bitsMsbFirst b) s with
    | error c => exact .inr (.inr ⟨rfl, walkBits_error hw⟩)
    | ok u => exact (walkBits_keeps hw).state.imp (·.trans hst) .inl
  · rw [decByteEffect_done hst]
    have hset : flagValue .dxtra (withFlag .dxtra s.flags) = true := by simp [flagValue_withFlag]
    exact ⟨rfl, hset⟩
  · rw [decByteEffect_error hst]
    rfl

theorem decEnd_transitions {s t : State} (h : exec .decEnd s = .next t) :
    (s.dec.state = .idle → t.dec.state = .error ∧ t.dec.err = .seq) ∧
    (s.dec.state = .run → t.dec.state = .error ∧ t.dec.err = .malformed) ∧
    (s.dec.state = .done ∨ s.dec.state = .error → t.dec = s.dec) := by
  obtain rfl := Host.Outcome.next.inj h
  refine ⟨fun hst => ?_, fun hst => ?_, fun hst => ?_⟩
  · rw [decEndEffect_idle hst]
    exact ⟨rfl, rfl⟩
  · rw [decEndEffect_run hst]
    exact ⟨rfl, rfl⟩
  · rw [decEndEffect_ended hst.symm]
    rfl

/-- Settles O41: each command's transitions, a CMD write as its command, and what the other instructions leave. -/
theorem engineStateTransitions : Obligations.EngineStateTransitions := by
  intro s t
  have hsym : ∀ b : Byte, s.enc.state = .active → (appendCode b.toNat s).enc.state = .active :=
    fun b hst => (appendBits_rest _ s).2.1.trans hst
  refine ⟨fun h => ?_, fun b => append_transitions (exec_encSym b s) (hsym b),
    append_transitions (exec_encEnd s) fun _ => rfl, fun h => ?_, fun _ => decStart_transitions,
    fun _ => decByte_transitions, decEnd_transitions, fun h => ?_, fun h => ?_, fun w hw h => ?_,
    fun _ _ => exec_wrCmd_legal s, fun i hw h => ⟨exec_keeps_enc hw h, exec_keeps_dec hw h⟩⟩
  · obtain rfl := Host.Outcome.next.inj h
    rfl
  · obtain rfl := Host.Outcome.next.inj h
    rfl
  · obtain rfl := Host.Outcome.next.inj h
    rfl
  · obtain rfl := Host.Outcome.next.inj h
    exact ⟨rfl, rfl⟩
  · obtain rfl := Host.Outcome.next.inj ((exec_wrCmd_illegal s hw).symm.trans h)
    exact ⟨rfl, rfl⟩

/-! ## Engine errors -/

/-- An effect that takes the encoder into ERROR, or changes its ERR there, is an engine error of the encoder. -/
theorem effect_encRaise {s t : State} (h : Effect s t) (herr : t.enc.state = .error)
    (hnew : s.enc.state ≠ .error ∨ t.enc.err ≠ s.enc.err) :
    ∃ c, t = respondOkay (raiseEngineError .enc c s) := by
  have hkept : t.enc.state = s.enc.state → t.enc.err = s.enc.err → False := fun hs he =>
    hnew.elim (fun h => h (hs.symm.trans herr)) (fun h => h he)
  cases h with
  | encRaise c => exact ⟨c, rfl⟩
  | encOpen | encClose => cases herr
  | encAppend b =>
    obtain ⟨_, hs, he⟩ := appendBits_rest (codeBits s b.toNat) s
    exact (hkept hs he).elim
  | decWalk b u _ hu =>
    have henc : u.enc = s.enc := by rw [(walkBits_keeps hu).rest]
    exact (hkept (congrArg EncEngine.state henc) (congrArg EncEngine.err henc)).elim
  | _ => exact (hkept rfl rfl).elim

/-- An effect that takes the decoder into ERROR, or changes its ERR there, is an engine error of the decoder. -/
theorem effect_decRaise {s t : State} (h : Effect s t) (herr : t.dec.state = .error)
    (hnew : s.dec.state ≠ .error ∨ t.dec.err ≠ s.dec.err) :
    ∃ c, t = respondOkay (raiseEngineError .dec c s) := by
  have hkept : t.dec.state = s.dec.state → t.dec.err = s.dec.err → False := fun hs he =>
    hnew.elim (fun h => h (hs.symm.trans herr)) (fun h => h he)
  cases h with
  | decRaise c => exact ⟨c, rfl⟩
  | decOpen => cases herr
  | encAppend b =>
    have hdec : (appendCode b.toNat s).dec = s.dec := by rw [appendCode_encFrame b.toNat s]
    exact (hkept (congrArg DecEngine.state hdec) (congrArg DecEngine.err hdec)).elim
  | encClose u _ _ _ _ hu =>
    have hdec : u.dec = s.dec := by rw [hu, padded_encFrame 256 s]
    exact (hkept (congrArg DecEngine.state hdec) (congrArg DecEngine.err hdec)).elim
  | decWalk b u hst hu =>
    have hended : u.dec.state ≠ .error := by
      rcases (walkBits_keeps hu).state with e | e <;> simp [e, hst]
    exact absurd herr hended
  | _ => exact (hkept rfl rfl).elim

/-- Settles O39: an effect that raises an engine error is the one entry of R202, and nothing else. -/
theorem engineErrorsArePrecise : Obligations.EngineErrorsArePrecise := by
  intro i s t h
  refine ⟨fun herr hnew => ?_, fun herr hnew => ?_⟩
  · obtain ⟨c, rfl⟩ := effect_encRaise (effect_of_exec h) herr hnew
    rfl
  · obtain ⟨c, rfl⟩ := effect_decRaise (effect_of_exec h) herr hnew
    rfl

theorem toInstr_ne_wrCmd (c : Command) (w : Word) : c.toInstr ≠ .wrCmd w := by
  cases c <;> nofun

/-- In ERROR the encoder keeps STATE and ERR, whatever instruction but ENC_START and a CMD write runs. -/
theorem exec_keeps_encErr {i : Instr} {s t : State} (hst : s.enc.state = .error) (h : exec i s = .next t)
    (hw : ∀ w, i ≠ .wrCmd w) (hne : i ≠ .encStart) : t.enc.state = .error ∧ t.enc.err = s.enc.err := by
  obtain ⟨_, hsym, hend, hclr, _⟩ := engineStateTransitions s t
  have hkept : t.enc = s.enc → t.enc.state = .error ∧ t.enc.err = s.enc.err := fun e => by
    rw [e]
    exact ⟨hst, rfl⟩
  cases hc : engineCommand .enc i with
  | false => exact hkept (exec_keeps_enc hw h hc)
  | true =>
    rcases encCommand_cases hc with rfl | ⟨b, rfl⟩ | rfl | rfl
    · exact absurd rfl hne
    · obtain ⟨_, _, hignored⟩ := hsym b h
      exact hkept (hignored hst)
    · obtain ⟨_, _, hignored⟩ := hend h
      exact hkept (hignored hst)
    · rw [hclr h]
      exact ⟨hst, rfl⟩

/-- In ERROR the decoder keeps STATE and ERR, whatever instruction but DEC_START and a CMD write runs. -/
theorem exec_keeps_decErr {i : Instr} {s t : State} (hst : s.dec.state = .error) (h : exec i s = .next t)
    (hw : ∀ w, i ≠ .wrCmd w) (hne : ∀ r, i ≠ .decStart r) : t.dec.state = .error ∧ t.dec.err = s.dec.err := by
  have hkept : t.dec = s.dec → t.dec.state = .error ∧ t.dec.err = s.dec.err := fun e => by
    rw [e]
    exact ⟨hst, rfl⟩
  cases hc : engineCommand .dec i with
  | false => exact hkept (exec_keeps_dec hw h hc)
  | true =>
    rcases decCommand_cases hc with ⟨r, rfl⟩ | ⟨b, rfl⟩ | rfl | rfl
    · exact absurd rfl (hne r)
    · obtain ⟨_, _, _, hignored⟩ := decByte_transitions h
      exact hkept (hignored hst)
    · obtain ⟨_, _, hignored⟩ := decEnd_transitions h
      exact hkept (hignored (.inr hst))
    · obtain rfl := Host.Outcome.next.inj h
      exact ⟨hst, rfl⟩

/-- An instruction leaves both engines, or what runs is no CMD write: the instruction itself, or the command behind a
CMD write's word (41_bus_access.md R103). -/
theorem exec_runs {i : Instr} {s t : State} (h : exec i s = .next t) : EnginesKept s t ∨
    ∃ j, (∀ w, j ≠ .wrCmd w) ∧ exec j s = .next t ∧
      (j = i ∨ ∃ w c, i = .wrCmd w ∧ decodeCommand w = some c ∧ j = c.toInstr) := by
  by_cases hw : ∃ w, i = .wrCmd w
  · obtain ⟨w, rfl⟩ := hw
    cases hc : decodeCommand w with
    | none =>
      obtain rfl := Host.Outcome.next.inj ((exec_wrCmd_illegal s hc).symm.trans h)
      exact .inl ⟨rfl, rfl⟩
    | some c =>
      exact .inr ⟨_, toInstr_ne_wrCmd c, (exec_wrCmd_legal s hc).symm.trans h, .inr ⟨w, c, rfl, hc, rfl⟩⟩
  · exact .inr ⟨i, not_exists.1 hw, h, .inl rfl⟩

/-- Settles O40: the ignored commands answer OKAY and nothing else; a CMD write leaves the engines or runs its command,
and of the commands only START gives a new STATE or ERR. -/
theorem firstErrorIsKept : Obligations.FirstErrorIsKept := by
  refine ⟨fun b s hst => ⟨(append_errorsInOrder (exec_encSym b s)).1 hst, (append_errorsInOrder (exec_encEnd s)).1 hst⟩,
    fun b s hst => ⟨respond_commit_ok (decByteEffect_error hst), respond_commit_ok (decEndEffect_ended (.inl hst))⟩,
    fun i s t hst h hne hcmd => ?_, fun i s t hst h hne hcmd => ?_⟩
  · rcases exec_runs h with ⟨henc, _⟩ | ⟨j, hw, hj, hrun⟩
    · rw [henc]
      exact ⟨hst, rfl⟩
    · refine exec_keeps_encErr hst hj hw fun hstart => ?_
      rcases hrun with rfl | ⟨w, c, rfl, hc, rfl⟩
      · exact hne hstart
      · cases c <;> cases hstart
        exact hcmd w rfl hc
  · rcases exec_runs h with ⟨_, hdec⟩ | ⟨j, hw, hj, hrun⟩
    · rw [hdec]
      exact ⟨hst, rfl⟩
    · refine exec_keeps_decErr hst hj hw fun r hstart => ?_
      rcases hrun with rfl | ⟨w, c, rfl, hc, rfl⟩
      · exact hne r hstart
      · cases c <;> cases hstart
        exact hcmd w r rfl hc

/-! ## Two states that agree on what an engine sees -/

/-- Two runs of a command from different states raise the same engine error, or their copies are related. -/
inductive SameResult {α : Type} (R : α → α → Prop) : Except EngineErr α → Except EngineErr α → Prop
  | error (c : EngineErr) : SameResult R (.error c) (.error c)
  | ok {x y : α} (h : R x y) : SameResult R (.ok x) (.ok y)

/-- What is related where an engine raises, and where it commits, is related after the command. -/
theorem SameResult.commit {R : State → State → Prop} {e : Engine} {s1 s2 : State} {r1 r2 : Except EngineErr State}
    (h : SameResult R r1 r2) (hraise : ∀ c, R (raiseEngineError e c s1) (raiseEngineError e c s2)) :
    R (commit e s1 r1) (commit e s2 r2) := by
  cases h with
  | error c => exact hraise c
  | ok h => exact h

/-- A write of one byte to both memories keeps an agreement on some of their bytes. -/
theorem read_write_congr {m1 m2 : Memory} {b : Nat} (h : m1.read b = m2.read b) (a : Nat) (v : Byte) :
    (m1.write a v).read b = (m2.write a v).read b := by
  rw [read_write, read_write, h]

/-! ### The encoder -/

/-- Two states alike in what the encoder sees: the parameters, the counter of the engines' free values, the encoder,
CTAB and EOBUF. -/
structure EncAgree (s1 s2 : State) : Prop where
  cfg : s1.cfg = s2.cfg
  engineCtr : s1.engineCtr = s2.engineCtr
  enc : s1.enc = s2.enc
  mem : ∀ a, 0x08000 ≤ a → a < 0x20000 → s1.mem.read a = s2.mem.read a

section
variable {s1 s2 : State}

theorem EncAgree.afterRaise (h : EncAgree s1 s2) (c : EngineErr) :
    EncAgree (raiseEngineError .enc c s1) (raiseEngineError .enc c s2) :=
  ⟨h.cfg, h.engineCtr, by simp only [raiseEnc_enc, h.enc], h.mem⟩

theorem EncAgree.readWord_eq (h : EncAgree s1 s2) (free : Nat → Byte) {sym w : Nat} (hs : sym ≤ 256) (hw : w ≤ 16) :
    s1.mem.readWord free (ctabAddr sym w) = s2.mem.readWord free (ctabAddr sym w) :=
  readWord_congr free fun b _ _ => h.mem b (by unfold ctabAddr at *; omega) (by unfold ctabAddr at *; omega)

theorem EncAgree.ctabLen_eq (h : EncAgree s1 s2) {sym : Nat} (hs : sym ≤ 256) : ctabLen s1 sym = ctabLen s2 sym :=
  congrArg (BitVec.extractLsb' 0 9) (h.readWord_eq _ hs (Nat.zero_le _))

theorem EncAgree.codeBits_eq (h : EncAgree s1 s2) {sym : Nat} (hs : sym ≤ 256) : codeBits s1 sym = codeBits s2 sym := by
  unfold codeBits
  rw [h.ctabLen_eq hs]
  refine List.map_congr_left fun i hi => ?_
  have hlen : i < 512 := (List.mem_range.1 hi).trans (ctabLen s2 sym).isLt
  unfold codeBit engineWord
  rw [h.engineCtr, h.readWord_eq _ hs (by omega)]

theorem EncAgree.afterEmit (h : EncAgree s1 s2) (b : Byte) : EncAgree (emitByte b s1) (emitByte b s2) where
  cfg := h.cfg
  engineCtr := h.engineCtr
  enc := by simp only [emitByte_enc, h.enc]
  mem a hlo hhi := by
    rw [emitByte_mem, emitByte_mem, h.enc]
    exact read_write_congr (h.mem a hlo hhi) _ _

/-- The same encoder in both states keeps the agreement. -/
theorem EncAgree.withEnc (h : EncAgree s1 s2) {e1 e2 : EncEngine} (he : e1 = e2) :
    EncAgree { s1 with enc := e1 } { s2 with enc := e2 } :=
  ⟨h.cfg, h.engineCtr, he, h.mem⟩

theorem EncAgree.afterBit (h : EncAgree s1 s2) (bit : Bool) : EncAgree (appendBit s1 bit) (appendBit s2 bit) := by
  unfold appendBit
  simp only [h.enc]
  split
  · have he := h.afterEmit (assignBit s2.enc.acc (7 - s2.enc.nb.toNat) bit)
    exact he.withEnc (by rw [he.enc])
  · exact h.withEnc rfl

theorem EncAgree.afterBits (bits : List Bool) {s1 s2 : State} (h : EncAgree s1 s2) :
    EncAgree (bits.foldl appendBit s1) (bits.foldl appendBit s2) := by
  induction bits generalizing s1 s2 with
  | nil => exact h
  | cons bit rest ih => exact ih (h.afterBit bit)

theorem EncAgree.afterCode (h : EncAgree s1 s2) {sym : Nat} (hs : sym ≤ 256) :
    EncAgree (appendCode sym s1) (appendCode sym s2) := by
  unfold appendCode
  rw [h.codeBits_eq hs]
  exact h.afterBits _

theorem EncAgree.afterPad (h : EncAgree s1 s2) : EncAgree (padAndEmit s1) (padAndEmit s2) := by
  unfold padAndEmit
  rw [h.enc]
  split
  · have he := h.afterEmit s2.enc.acc
    exact he.withEnc (by rw [he.enc])
  · exact h

theorem EncAgree.afterClose (h : EncAgree s1 s2) : EncAgree (closeSession s1) (closeSession s2) :=
  h.withEnc (by rw [h.enc])

theorem EncAgree.checkCode_eq (h : EncAgree s1 s2) {sym : Nat} (hs : sym ≤ 256) :
    checkCode sym s1 = checkCode sym s2 := by
  unfold checkCode
  rw [h.ctabLen_eq hs]

theorem EncAgree.symNeed_eq (h : EncAgree s1 s2) {sym : Nat} (hs : sym ≤ 256) : symNeed sym s1 = symNeed sym s2 := by
  unfold symNeed
  rw [h.enc, h.ctabLen_eq hs]

theorem EncAgree.endNeed_eq (h : EncAgree s1 s2) : endNeed s1 = endNeed s2 := by
  unfold endNeed
  rw [h.enc, h.ctabLen_eq (Nat.le_refl sentinel)]

/-- The checks see only what the encoder sees, so that both states append, or both raise the same error. -/
theorem EncAgree.sameChecks (h : EncAgree s1 s2) {sym : Nat} (hs : sym ≤ 256) (need : Nat) {u1 u2 : State}
    (hu : EncAgree u1 u2) :
    SameResult EncAgree (checkedAppend sym need s1 u1) (checkedAppend sym need s2 u2) := by
  unfold checkedAppend
  rw [h.enc, h.cfg, h.checkCode_eq hs]
  split
  · exact .ok h
  · exact .error _
  · exact .error _
  · split
    · exact .error _
    · split
      · exact .error _
      · exact .ok hu

/-- Every encoder command keeps the agreement. -/
theorem EncAgree.afterCommand {i : Instr} {t1 t2 : State} (h : EncAgree s1 s2) (hc : engineCommand .enc i = true)
    (h1 : exec i s1 = .next t1) (h2 : exec i s2 = .next t2) : EncAgree t1 t2 := by
  have hanswer : ∀ {u v : State}, EncAgree u v → EncAgree (respondOkay u) (respondOkay v) := fun h =>
    ⟨h.cfg, h.engineCtr, h.enc, h.mem⟩
  rcases encCommand_cases hc with rfl | ⟨b, rfl⟩ | rfl | rfl
  · obtain rfl := Host.Outcome.next.inj h1
    obtain rfl := Host.Outcome.next.inj h2
    exact hanswer (h.withEnc rfl)
  · obtain rfl := Host.Outcome.next.inj ((exec_encSym b s1).symm.trans h1)
    obtain rfl := Host.Outcome.next.inj ((exec_encSym b s2).symm.trans h2)
    have hb : b.toNat ≤ 256 := Nat.le_of_lt b.isLt
    rw [h.symNeed_eq hb]
    exact hanswer ((h.sameChecks hb _ (h.afterCode hb)).commit h.afterRaise)
  · obtain rfl := Host.Outcome.next.inj ((exec_encEnd s1).symm.trans h1)
    obtain rfl := Host.Outcome.next.inj ((exec_encEnd s2).symm.trans h2)
    have h256 := Nat.le_refl 256
    rw [h.endNeed_eq]
    exact hanswer ((h.sameChecks h256 _ (h.afterCode h256).afterPad.afterClose).commit h.afterRaise)
  · obtain rfl := Host.Outcome.next.inj h1
    obtain rfl := Host.Outcome.next.inj h2
    exact hanswer (h.withEnc (by rw [h.enc]))

end

/-- Settles O43: every encoder command keeps the agreement, and answers OKAY. -/
theorem encoderIgnoresTheDecoder : Obligations.EncoderIgnoresTheDecoder := by
  intro i s1 s2 t1 t2 hc hcfg hctr henc hmem h1 h2
  have hagree := EncAgree.afterCommand ⟨hcfg, hctr, henc, hmem⟩ hc h1 h2
  refine ⟨hagree.enc, ?_, hagree.mem⟩
  rw [encCommand_rest hc h1, encCommand_rest hc h2]

/-! ### The decoder -/

/-- Two states alike in what the decoder sees: the parameters, the counter of the engines' free values, the decoder,
TREE and DOBUF. -/
structure DecAgree (s1 s2 : State) : Prop where
  cfg : s1.cfg = s2.cfg
  engineCtr : s1.engineCtr = s2.engineCtr
  dec : s1.dec = s2.dec
  mem : ∀ a, a < 0x08000 ∨ 0x20000 ≤ a → s1.mem.read a = s2.mem.read a

/-- Two answers of a step of the walk: it ends alike, in states alike. -/
def WalkAgree (x y : Walk × State) : Prop := x.1 = y.1 ∧ DecAgree x.2 y.2

section
variable {s1 s2 : State}

theorem DecAgree.afterRaise (h : DecAgree s1 s2) (c : EngineErr) :
    DecAgree (raiseEngineError .dec c s1) (raiseEngineError .dec c s2) :=
  ⟨h.cfg, h.engineCtr, by simp only [raiseDec_dec, h.dec], h.mem⟩

theorem DecAgree.treeWord_eq (h : DecAgree s1 s2) (pos : Nat) (i : BitVec 10) :
    treeWord s1 pos i.toNat = treeWord s2 pos i.toNat := by
  unfold treeWord engineWord
  rw [h.engineCtr]
  have hi := i.isLt
  exact readWord_congr _ fun b _ _ => h.mem b (by unfold treeAddr at *; omega)

theorem DecAgree.afterHit (h : DecAgree s1 s2) (n : Word) :
    SameResult WalkAgree (hitLeaf n s1) (hitLeaf n s2) := by
  unfold hitLeaf
  rw [h.dec, h.cfg]
  split
  · exact .error _
  · split
    · exact .ok ⟨rfl, rfl, h.engineCtr, rfl, h.mem⟩
    · split
      · exact .error _
      · exact .ok ⟨rfl, rfl, h.engineCtr, rfl, fun a ha => read_write_congr (h.mem a ha) _ _⟩

theorem DecAgree.afterStep (h : DecAgree s1 s2) (k : Nat) (bit : Bool) :
    SameResult WalkAgree (walkBit k bit s1) (walkBit k bit s2) := by
  unfold walkBit
  simp only [h.dec, h.cfg, h.treeWord_eq]
  split
  · exact h.afterHit _
  · split
    · exact .error _
    · split
      · exact h.afterHit _
      · exact .ok ⟨rfl, rfl, h.engineCtr, rfl, h.mem⟩

theorem DecAgree.afterWalk (bits : List Bool) {k : Nat} {s1 s2 : State} (h : DecAgree s1 s2) :
    SameResult DecAgree (walkBits k bits s1) (walkBits k bits s2) := by
  induction bits generalizing k s1 s2 with
  | nil => exact .ok h
  | cons bit rest ih =>
    have hstep := h.afterStep k bit
    rw [walkBits, walkBits]
    generalize walkBit k bit s1 = r1 at hstep ⊢
    generalize walkBit k bit s2 = r2 at hstep ⊢
    cases hstep with
    | error c => exact .error c
    | @ok x y hxy =>
      obtain ⟨⟨w, u1⟩, ⟨_, u2⟩⟩ := x, y
      obtain ⟨rfl, hu⟩ : w = _ ∧ DecAgree u1 u2 := hxy
      cases w with
      | stop => exact .ok hu
      | cont => exact ih hu

theorem DecAgree.sameByte (h : DecAgree s1 s2) (b : Byte) :
    SameResult DecAgree (decByteEffect b s1) (decByteEffect b s2) := by
  unfold decByteEffect
  rw [h.dec]
  split
  · exact .ok h
  · exact .ok ⟨h.cfg, h.engineCtr, h.dec, h.mem⟩
  · exact .error _
  · exact h.afterWalk _

theorem DecAgree.sameStart (h : DecAgree s1 s2) (r : Nat) :
    SameResult DecAgree (decStartEffect r s1) (decStartEffect r s2) := by
  unfold decStartEffect
  rw [h.cfg]
  split
  · exact .error _
  · exact .ok ⟨h.cfg, h.engineCtr, rfl, h.mem⟩

theorem DecAgree.sameEnd (h : DecAgree s1 s2) : SameResult DecAgree (decEndEffect s1) (decEndEffect s2) := by
  unfold decEndEffect
  rw [h.dec]
  split
  · exact .ok h
  · exact .ok h
  · exact .error _
  · exact .error _

/-- Every decoder command keeps the agreement. -/
theorem DecAgree.afterCommand {i : Instr} {t1 t2 : State} (h : DecAgree s1 s2) (hc : engineCommand .dec i = true)
    (h1 : exec i s1 = .next t1) (h2 : exec i s2 = .next t2) : DecAgree t1 t2 := by
  have hanswer : ∀ {u v : State}, DecAgree u v → DecAgree (respondOkay u) (respondOkay v) := fun h =>
    ⟨h.cfg, h.engineCtr, h.dec, h.mem⟩
  rcases decCommand_cases hc with ⟨r, rfl⟩ | ⟨b, rfl⟩ | rfl | rfl
  · obtain rfl := Host.Outcome.next.inj h1
    obtain rfl := Host.Outcome.next.inj h2
    exact hanswer ((h.sameStart r).commit h.afterRaise)
  · obtain rfl := Host.Outcome.next.inj h1
    obtain rfl := Host.Outcome.next.inj h2
    exact hanswer ((h.sameByte b).commit h.afterRaise)
  · obtain rfl := Host.Outcome.next.inj h1
    obtain rfl := Host.Outcome.next.inj h2
    exact hanswer (h.sameEnd.commit h.afterRaise)
  · obtain rfl := Host.Outcome.next.inj h1
    obtain rfl := Host.Outcome.next.inj h2
    exact hanswer ⟨h.cfg, h.engineCtr, congrArg (fun d : DecEngine => { d with ocnt := 0#17 }) h.dec, h.mem⟩

end

/-- Settles O44: every decoder command keeps the agreement, and answers OKAY. -/
theorem decoderIgnoresTheEncoder : Obligations.DecoderIgnoresTheEncoder := by
  intro i s1 s2 t1 t2 hc hcfg hctr hdec hmem h1 h2
  have hagree := DecAgree.afterCommand ⟨hcfg, hctr, hdec, hmem⟩ hc h1 h2
  refine ⟨hagree.dec, ?_, hagree.mem⟩
  rw [decCommand_rest hc h1, decCommand_rest hc h2]

end Sys2Proof.Laws

/-! # The statements of 70_reset_and_hazards.md: a reset between transactions, and the room that keeps OVERFLOW away -/

namespace Sys2Proof.Laws

open Sys2Proof.Machine

/-! ## A reset between transactions (R220) -/

/-- A reset empties the memory, in which every CTAB LEN reads 0. -/
theorem takeReset_ctabLen (s : State) (sym : Nat) : ctabLen (takeReset s) sym = 0#9 := reset_ctabLen sym

/-- After a reset a byte outside the LEN words is unwritten, whatever went before. -/
theorem takeReset_read_none (s : State) {a : Nat} (h : ¬ (0x08000 ≤ a ∧ a < 0x0C040 ∧ (a - 0x08000) % 64 < 4)) :
    (takeReset s).mem.read a = none := reset_read_none h

/-- Settles O13: the step is the reset of what is left once its input is taken. -/
theorem resetClearsTheBlock : Obligations.ResetClearsTheBlock := fun _ _ hp =>
  ⟨_, step_reset hp, takeReset_enc _, takeReset_dec _, takeReset_flags _, fun sym _ => takeReset_ctabLen _ sym,
    fun _ ha => takeReset_read_none _ ha, takeReset_cfg _, takeReset_pending _⟩

/-! ## The encoder's margin (R229) -/

/-- The encoder's count rises by at most `m`, and with room for `m` bytes OVERFLOW is not newly its ERR. -/
structure EncWithin (m : Nat) (s t : State) : Prop where
  count : t.enc.ocnt.toNat ≤ s.enc.ocnt.toNat + m
  noOverflow : s.enc.ocnt.toNat + m ≤ s.cfg.obufSize → t.enc.err = .overflow → s.enc.err = .overflow

/-- The pending bits are at most 7, so a code of at most 256 bits completes at most 32 bytes. -/
theorem symNeed_le {s : State} {sym : Nat} (h : (ctabLen s sym).toNat ≤ 256) : symNeed sym s ≤ 32 := by
  have := s.enc.nb.isLt
  unfold symNeed
  omega

/-- With the padding the sentinel's code completes at most 33 bytes. -/
theorem endNeed_le {s : State} (h : (ctabLen s 256).toNat ≤ 256) : endNeed s ≤ 33 := by
  have := s.enc.nb.isLt
  unfold endNeed ceilDiv sentinel
  omega

/-- Everything a checked append can answer, with what OVERFLOW and the copy say of LEN and of the room. -/
theorem checkedAppend_cases (sym need : Nat) (s u : State) :
    checkedAppend sym need s u = .ok s ∨
    (∃ c, c ≠ .overflow ∧ checkedAppend sym need s u = .error c) ∨
    ((ctabLen s sym).toNat ≤ 256 ∧ s.cfg.obufSize < s.enc.ocnt.toNat + need ∧
      checkedAppend sym need s u = .error .overflow) ∨
    ((ctabLen s sym).toNat ≤ 256 ∧ s.enc.ocnt.toNat + need ≤ s.cfg.obufSize ∧
      checkedAppend sym need s u = .ok u) := by
  cases hst : s.enc.state with
  | error => exact .inl (checkedAppend_ignored hst)
  | idle => exact .inr (.inl ⟨.seq, nofun, checkedAppend_noSession (.inl hst)⟩)
  | done => exact .inr (.inl ⟨.seq, nofun, checkedAppend_noSession (.inr hst)⟩)
  | active =>
    by_cases h0 : (ctabLen s sym).toNat = 0
    · exact .inr (.inl ⟨.nosym, nofun, checkedAppend_badCode hst (checkCode_empty h0)⟩)
    by_cases h256 : 256 < (ctabLen s sym).toNat
    · exact .inr (.inl ⟨.badlen, nofun, checkedAppend_badCode hst (checkCode_tooLong h256)⟩)
    have hcode : checkCode sym s = .ok () := checkCode_legal (by omega) (by omega)
    have hlegal := checkedAppend_legal (need := need) (t := u) hst hcode
    by_cases hfull : s.cfg.obufSize < s.enc.ocnt.toNat + need
    · exact .inr (.inr (.inl ⟨by omega, hfull, hlegal.trans (if_pos hfull)⟩))
    · exact .inr (.inr (.inr ⟨by omega, by omega, hlegal.trans (if_neg hfull)⟩))

/-- An append stays within a margin that is never less than its need: OVERFLOW comes where the need does not fit, and
the copy counts the need. -/
theorem append_within {sym need m : Nat} {s u : State} (hneed : (ctabLen s sym).toNat ≤ 256 → need ≤ m)
    (hcopy : s.enc.ocnt.toNat + need ≤ s.cfg.obufSize →
      u.enc.ocnt.toNat = s.enc.ocnt.toNat + need ∧ u.enc.err = s.enc.err) :
    EncWithin m s (respondOkay (commit .enc s (checkedAppend sym need s u))) := by
  rcases checkedAppend_cases sym need s u with e | ⟨c, hc, e⟩ | ⟨hlen, hfull, e⟩ | ⟨hlen, hfit, e⟩ <;> rw [e]
  · exact ⟨Nat.le_add_right _ _, fun _ h => h⟩
  · exact ⟨Nat.le_add_right _ _, fun _ h => absurd h hc⟩
  · have := hneed hlen
    exact ⟨Nat.le_add_right _ _, fun hroom => by omega⟩
  · have := hneed hlen
    obtain ⟨hocnt, herr⟩ := hcopy hfit
    exact ⟨hocnt.trans_le (by omega), fun _ h => herr.symm.trans h⟩

theorem encSym_within {b : Byte} {s t : State} (hi : Inv s) (h : exec (.encSym b) s = .next t) : EncWithin 32 s t := by
  obtain rfl := Host.Outcome.next.inj ((exec_encSym b s).symm.trans h)
  refine append_within symNeed_le fun hfit => ?_
  have ha := appended_sym hi hfit
  exact ⟨by rw [ha.ocnt, length_codeBits]; rfl, ha.err⟩

theorem encEnd_within {s t : State} (hi : Inv s) (h : exec .encEnd s = .next t) : EncWithin 33 s t := by
  obtain rfl := Host.Outcome.next.inj ((exec_encEnd s).symm.trans h)
  refine append_within endNeed_le fun hfit => ?_
  obtain ⟨p, _, hneed, ha, _, _⟩ := appended_end hi hfit
  have hocnt : (padAndEmit (appendCode 256 s)).enc.ocnt.toNat = s.enc.ocnt.toNat + endNeed s := by
    rw [ha.ocnt, List.length_append, length_codeBits, List.length_replicate]
    omega
  exact ⟨hocnt, ha.err⟩

/-- With room for 33 bytes no command of the encoder newly raises OVERFLOW. -/
theorem encCommand_noOverflow {i : Instr} {s t : State} (hi : Inv s) (h : exec i s = .next t)
    (hc : engineCommand .enc i = true) (hroom : s.enc.ocnt.toNat + 33 ≤ s.cfg.obufSize)
    (herr : t.enc.err = .overflow) : s.enc.err = .overflow := by
  rcases encCommand_cases hc with rfl | ⟨b, rfl⟩ | rfl | rfl
  · obtain rfl := Host.Outcome.next.inj h
    cases herr
  · exact (encSym_within hi h).noOverflow (by omega) herr
  · exact (encEnd_within hi h).noOverflow hroom herr
  · obtain rfl := Host.Outcome.next.inj h
    exact herr

/-! ## The decoder's margin (R229) -/

theorem hitLeaf_overflow {n : Word} {s : State} (h : hitLeaf n s = .error .overflow) :
    s.dec.ocnt.toNat = s.cfg.obufSize := by
  rcases hitLeaf_cases n s with ⟨_, e⟩ | ⟨_, e⟩ | ⟨_, hfull, _⟩ | ⟨_, _, e⟩
  · cases e.symm.trans h
  · cases e.symm.trans h
  · exact hfull
  · cases e.symm.trans h

/-- One bit of the walk raises OVERFLOW at a full buffer only (43_decoder.md R150). -/
theorem walkBit_overflow {k : Nat} {bit : Bool} {s : State} (h : walkBit k bit s = .error .overflow) :
    s.dec.ocnt.toNat = s.cfg.obufSize := by
  rcases walkBit_cases k bit s with ⟨_, e⟩ | ⟨_, nxt, _, ⟨_, e⟩ | ⟨_, _, e⟩ | ⟨_, _, e⟩⟩
  · exact hitLeaf_overflow (e.symm.trans h)
  · cases e.symm.trans h
  · exact hitLeaf_overflow (e.symm.trans h)
  · cases e.symm.trans h

/-- A walk raises OVERFLOW only where fewer bytes are left than it has bits: each bit stores at most one byte. -/
theorem walkBits_overflow {k : Nat} {bits : List Bool} {s : State} (hs : WalkReady s)
    (h : walkBits k bits s = .error .overflow) : s.cfg.obufSize < s.dec.ocnt.toNat + bits.length := by
  induction bits generalizing k s with
  | nil => cases h
  | cons b bs ih =>
    rw [List.length_cons]
    simp only [walkBits] at h
    split at h
    · rename_i c hc
      obtain rfl := Except.error.inj h
      have := walkBit_overflow hc
      omega
    · cases h
    · rename_i u hu
      have hwalked := (walked_bit hs hu).1
      have hrest := ih hwalked.ready h
      rw [walked_cfg hwalked] at hrest
      have := hwalked.most
      omega

/-- DEC_BYTE raises OVERFLOW by its walk only. -/
theorem decByteEffect_overflow {b : Byte} {s : State} (h : decByteEffect b s = .error .overflow) :
    walkBits 0 (bitsMsbFirst b) s = .error .overflow := by
  cases hst : s.dec.state with
  | idle => cases (decByteEffect_idle hst).symm.trans h
  | error => cases (decByteEffect_error hst).symm.trans h
  | done => cases (decByteEffect_done hst).symm.trans h
  | run => exact (decByteEffect_run hst).symm.trans h

/-- The eight bits of a byte store at most eight bytes. -/
theorem decByte_count {b : Byte} {s t : State} (hi : Inv s) (h : exec (.decByte b) s = .next t) :
    t.dec.ocnt.toNat ≤ s.dec.ocnt.toNat + 8 := by
  obtain rfl := Host.Outcome.next.inj h
  have hkept : s.dec.ocnt.toNat ≤ s.dec.ocnt.toNat + 8 := Nat.le_add_right _ _
  exact decByte_keeps (P := fun u => u.dec.ocnt.toNat ≤ s.dec.ocnt.toNat + 8) (fun _ => hkept) hkept hkept
    fun _ hw => (walked_bits (walkReady_of_inv hi) hw).most

/-- With room for 8 bytes DEC_BYTE does not newly raise OVERFLOW. -/
theorem decByte_noOverflow {b : Byte} {s t : State} (hi : Inv s) (h : exec (.decByte b) s = .next t)
    (hroom : s.dec.ocnt.toNat + 8 ≤ s.cfg.obufSize) (herr : t.dec.err = .overflow) : s.dec.err = .overflow := by
  obtain rfl := Host.Outcome.next.inj h
  cases hr : decByteEffect b s with
  | error c =>
    rw [hr] at herr
    obtain rfl : c = .overflow := herr
    have hfull := walkBits_overflow (walkReady_of_inv hi) (decByteEffect_overflow hr)
    rw [length_bitsMsbFirst] at hfull
    omega
  | ok u =>
    rw [hr] at herr
    rcases decByteEffect_ok hr with rfl | rfl | hw
    · exact herr
    · exact herr
    · exact (walkBits_keeps hw).err.symm.trans herr

/-- Settles O34: the needs bound the counts, and OVERFLOW is raised only where more is needed than is left. -/
theorem capacityMarginsSuffice : Obligations.CapacityMarginsSuffice :=
  ⟨fun _ _ _ hi h => (encSym_within hi h).count, fun _ _ hi h => (encEnd_within hi h).count,
    fun _ _ _ hi h => decByte_count hi h, fun _ _ _ hi h => encCommand_noOverflow hi h,
    fun _ _ _ hi h => decByte_noOverflow hi h⟩

end Sys2Proof.Laws
